-- ==== Sys2Proof/Word.lean ====
section
/-! DEFINITION. The byte and the bus word (spec/00_scope.md R6, R7). -/

namespace Sys2Proof

/-- An unsigned 8-bit value: a row-buffer byte, a predictor input or output (R7). -/
abbrev Byte := BitVec 8

/-- A 32-bit register or bus word, bit 0 the least significant (R6). -/
abbrev Word := BitVec 32

end Sys2Proof
end

