-- ==== Sys2Proof/Config.lean ====
section
/-! DEFINITION. The parameters of a build (spec/00_scope.md R5, 10_state.md R37).

`K` and `HAS_FASTPATHS` are arguments of the model: a state carries them in `State.params`, no step changes them, and
every statement holds for every value (log entry 1). `ARITH_BITS` changes no result (R116; `paethAtWidth` is the
datapath of a given width) and `LATENCY` is left to the schedule of turns (R210; log entry 4). No instruction leaves a
value undefined; the one free value is a host program's (log entry 7). -/

namespace Sys2Proof

/-- What an implementation fixes (R5): `k` = K, `hasFastpaths` = HAS_FASTPATHS. -/
structure Params where
  k : Nat
  hasFastpaths : Bool
  deriving DecidableEq, Repr

/-- 8 ≤ K ≤ 24 (R5). -/
abbrev Params.valid (p : Params) : Prop := 8 ≤ p.k ∧ p.k ≤ 24

/-- LMAX = 2^K, the byte capacity of each row buffer (R5). -/
def Params.lmax (p : Params) : Nat := 2 ^ p.k

/-- The defaults of R5: K = 16, HAS_FASTPATHS = true. -/
def Params.default : Params := { k := 16, hasFastpaths := true }

/-- The narrowest datapath R5 and R116 allow. -/
def Config.minArithBits : Nat := 10

/-- A host program's `t` (30_encoding.md R100) where nothing has been read into it yet: a free value, no number chosen
(log entry 7). -/
opaque Config.unboundRead : Word

end Sys2Proof
end

