-- ==== Sys2Proof/Syntax.lean ====
section
/-! DEFINITION. The instructions: one constructor per row of spec/opcode_table.json.

Seven rows are what a written command word can decode to (30_encoding.md R96). The four path forms `UNFILTER/W1`,
`/W3`, `/W4`, `/GEN` share UNFILTER's word and are not selected by it (R97): each is the form the engine steps through
once that path is latched (41_unfilter.md R136–R139). Log entry 2. -/

namespace Sys2Proof

/-- The rows of spec/opcode_table.json. `fg` is bit 8 of the command word where the row leaves it free: it is stored in
CMD for read-back (R92). `op` is the part of OP that the row leaves free. -/
inductive Instr where
  /-- `PREDICT` (R118): OP = 0x1, FG ignored but stored. -/
  | predict (fg : Bool)
  /-- `UNFILTER` (R142): OP = 0x2, FG = 0. -/
  | unfilter
  /-- `UNFILTER.G` (R143): OP = 0x2, FG = 1. -/
  | unfilterG
  /-- `UNFILTER/W1` (R137): one engine step of the width-1 path. -/
  | unfilterW1
  /-- `UNFILTER/W3` (R138): one engine step of the width-3 path. -/
  | unfilterW3
  /-- `UNFILTER/W4` (R139): one engine step of the width-4 path. -/
  | unfilterW4
  /-- `UNFILTER/GEN` (R136): one engine step of the generic path; its row admits either FG. -/
  | unfilterGen (fg : Bool)
  /-- Reserved OP 0x0 (R91). -/
  | reserved0 (fg : Bool)
  /-- Reserved OP 0x3 (R91). -/
  | reserved3 (fg : Bool)
  /-- Reserved OP 0x4–0x7 (R91): OP = 01 followed by the two bits `op`. -/
  | reserved4to7 (op : BitVec 2) (fg : Bool)
  /-- Reserved OP 0x8–0xF (R91): OP = 1 followed by the three bits `op`. -/
  | reserved8toF (op : BitVec 3) (fg : Bool)
  deriving DecidableEq, Repr

end Sys2Proof
end

