-- ==== Sys2Proof/WellFormed.lean ====
section
/-! DEFINITION. Which instructions a command word can stand for. -/

namespace Sys2Proof

/-- A well-formed COMMAND: what some 32-bit word written to CMD decodes to (30_encoding.md R96). Operand fields are
bounded by their types; the one check left is that a path form is no command of its own (R97). -/
def Instr.wellFormed : Instr → Bool
  | .predict _ => true
  | .unfilter => true
  | .unfilterG => true
  | .unfilterW1 => false
  | .unfilterW3 => false
  | .unfilterW4 => false
  | .unfilterGen _ => false
  | .reserved0 _ => true
  | .reserved3 _ => true
  | .reserved4to7 _ _ => true
  | .reserved8toF _ _ => true

end Sys2Proof
end

