-- ==== Sys2Proof/Decode.lean ====
section
/-! DEFINITION. The command word: decoder, encoder and the opcode table's rows (30_encoding.md R90–R98). -/

namespace Sys2Proof

/-- OP is bits 3:0 of the command word (R90). -/
def wordOp (w : Word) : BitVec 4 := w.extractLsb' 0 4

/-- FG is bit 8 of the command word (R90). -/
def wordFg (w : Word) : Bool := w.getLsbD 8

/-- R96: total over all 2^32 words; the reserved bits 7:4 and 31:9 are not looked at (R93). -/
def decodeWord (w : Word) : Instr :=
  if wordOp w = 0x1#4 then .predict (wordFg w)
  else if wordOp w = 0x2#4 then (if wordFg w then .unfilterG else .unfilter)
  else if wordOp w = 0x0#4 then .reserved0 (wordFg w)
  else if wordOp w = 0x3#4 then .reserved3 (wordFg w)
  else if w.getLsbD 3 then .reserved8toF (w.extractLsb' 0 3) (wordFg w)
  else .reserved4to7 (w.extractLsb' 0 2) (wordFg w)

/-- Why a list of bytes is no command word. -/
inductive DecodeError where
  /-- Fewer than the four bytes that every command has (R98). -/
  | truncated (got : Nat)
  deriving DecidableEq, Repr

/-- The word whose field starting at bit `lo` is `v` and whose other bits are 0 (00_scope.md R6). -/
def bitsAt {n : Nat} (lo : Nat) (v : BitVec n) : Word := v.setWidth 32 <<< lo

/-- A word from its four byte lanes, lowest lane first (20_memory.md R63). -/
def wordOfBytes (b0 b1 b2 b3 : Byte) : Word := bitsAt 24 b3 ||| bitsAt 16 b2 ||| bitsAt 8 b1 ||| bitsAt 0 b0

/-- The byte in lane `n` of a word: bits 8n+7:8n (20_memory.md R63). -/
def byteLane (w : Word) (n : Nat) : Byte := w.extractLsb' (8 * n) 8

/-- The decoder on bytes: one command is exactly one 32-bit word (R98), so anything shorter is rejected by name and
what follows the fourth byte is handed back. -/
def decode : List Byte → Except DecodeError (Instr × List Byte)
  | b0 :: b1 :: b2 :: b3 :: rest => .ok (decodeWord (wordOfBytes b0 b1 b2 b3), rest)
  | short => .error (.truncated short.length)

/-- The command word of OP and FG with every reserved bit 0 (R90). -/
def packWord (op : BitVec 4) (fg : Bool) : Word := bitsAt 8 (BitVec.ofBool fg) ||| bitsAt 0 op

/-- The OP field of an instruction's row (R91; the path forms have UNFILTER's, R97). -/
def Instr.op : Instr → BitVec 4
  | .predict _ => 0x1#4
  | .unfilter => 0x2#4
  | .unfilterG => 0x2#4
  | .unfilterW1 => 0x2#4
  | .unfilterW3 => 0x2#4
  | .unfilterW4 => 0x2#4
  | .unfilterGen _ => 0x2#4
  | .reserved0 _ => 0x0#4
  | .reserved3 _ => 0x3#4
  | .reserved4to7 op _ => 0b01#2 ++ op
  | .reserved8toF op _ => 0b1#1 ++ op

/-- The FG bit of an instruction (R92; the fast paths are reached with FG = 0 only, R137–R139). -/
def Instr.fg : Instr → Bool
  | .predict fg => fg
  | .unfilter => false
  | .unfilterG => true
  | .unfilterW1 => false
  | .unfilterW3 => false
  | .unfilterW4 => false
  | .unfilterGen fg => fg
  | .reserved0 fg => fg
  | .reserved3 fg => fg
  | .reserved4to7 _ fg => fg
  | .reserved8toF _ fg => fg

/-- The command word of an instruction, reserved bits 0. -/
def encode (i : Instr) : Word := packWord i.op i.fg

/-- The command that shares an instruction's word: itself, or UNFILTER / UNFILTER.G for a path form (R97, R136). -/
def Instr.command : Instr → Instr
  | .unfilterW1 => .unfilter
  | .unfilterW3 => .unfilter
  | .unfilterW4 => .unfilter
  | .unfilterGen fg => if fg then .unfilterG else .unfilter
  | .predict fg => .predict fg
  | .unfilter => .unfilter
  | .unfilterG => .unfilterG
  | .reserved0 fg => .reserved0 fg
  | .reserved3 fg => .reserved3 fg
  | .reserved4to7 op fg => .reserved4to7 op fg
  | .reserved8toF op fg => .reserved8toF op fg

/-- The `mask` of an instruction's row in spec/opcode_table.json. -/
def Instr.rowMask : Instr → Word
  | .predict _ => 0x0000000F#32
  | .unfilter => 0x0000010F#32
  | .unfilterG => 0x0000010F#32
  | .unfilterW1 => 0x0000010F#32
  | .unfilterW3 => 0x0000010F#32
  | .unfilterW4 => 0x0000010F#32
  | .unfilterGen _ => 0x0000000F#32
  | .reserved0 _ => 0x0000000F#32
  | .reserved3 _ => 0x0000000F#32
  | .reserved4to7 _ _ => 0x0000000C#32
  | .reserved8toF _ _ => 0x00000008#32

/-- The `match` of an instruction's row in spec/opcode_table.json. -/
def Instr.rowMatch : Instr → Word
  | .predict _ => 0x00000001#32
  | .unfilter => 0x00000002#32
  | .unfilterG => 0x00000102#32
  | .unfilterW1 => 0x00000002#32
  | .unfilterW3 => 0x00000002#32
  | .unfilterW4 => 0x00000002#32
  | .unfilterGen _ => 0x00000002#32
  | .reserved0 _ => 0x00000000#32
  | .reserved3 _ => 0x00000003#32
  | .reserved4to7 _ _ => 0x00000004#32
  | .reserved8toF _ _ => 0x00000008#32

/-- The bits of `w` below `nbits`, as the command word a `WR32` carries (all commands are 32 bits, R98). -/
def tableWord (nbits w : Nat) : Word := BitVec.ofNat 32 (w % 2 ^ nbits)

/-- What the decoder reads from a row's bits, numbered as spec/opcode_table.json numbers them: the word is laid out in
its four byte lanes (R63) and given to `decode`. -/
def decodeTableWord (nbits w : Nat) : Option Instr :=
  let v := tableWord nbits w
  match decode [byteLane v 0, byteLane v 1, byteLane v 2, byteLane v 3] with
  | .ok (i, _) => some i
  | .error _ => none

end Sys2Proof
end

