-- ==== Sys2Proof/Machine/Types.lean ====
section
/-! DEFINITION. The kinds of data the state is made of. -/

namespace Sys2Proof.Machine

/-- The four execution paths (10_state.md R34; 00_scope.md, glossary "Path"). -/
inductive FilterPath where
  | w1 | w3 | w4 | gen
  deriving DecidableEq, Repr

/-- What the engine is doing (R34). -/
inductive Phase where
  | idle | runPredict | runUnfilter
  deriving DecidableEq, Repr

/-- The error codes of STATUS.ERR other than NONE (60_exceptions.md R170). -/
inductive ErrCode where
  | badOp | badWidth | lenRange | lenMismatch
  deriving DecidableEq, Repr

/-- Which neighbour the predictor returned (40_predictor.md R110). -/
inductive Sel where
  | left | above | aboveLeft
  deriving DecidableEq, Repr

/-- The two row buffers (10_state.md R33). -/
inductive Buffer where
  | cur | prev
  deriving DecidableEq, Repr

/-- The host-visible registers (10_state.md R22–R31). -/
inductive Reg where
  | cap | cmd | status | ctrl | width | len | prevLen | predIn | predOut | predDist
  deriving DecidableEq, Repr

/-- The result of one predictor evaluation: R114's five-tuple. -/
structure PaethOut where
  value : Byte
  sel : Sel
  pa : Nat
  pb : Nat
  pc : Nat
  deriving DecidableEq, Repr

/-- CMD (R23): OP in bits 3:0, FG in bit 8. -/
structure CmdReg where
  op : BitVec 4
  fg : Bool
  deriving DecidableEq, Repr

/-- STATUS (R24) but for BUSY, which is `phase ≠ IDLE` (R34). `none` is ERR = NONE and PATH = NONE: the codes that are
never produced (ERR 0x5–0xF, PATH 5–7) have no representation. -/
structure StatusReg where
  done : Bool
  ovr : Bool
  err : Option ErrCode
  path : Option FilterPath
  deriving DecidableEq, Repr

/-- PRED_IN (R29). -/
structure PredIn where
  a : Byte
  b : Byte
  c : Byte
  deriving DecidableEq, Repr

/-- PRED_OUT (R30). -/
structure PredOut where
  result : Byte
  sel : Sel
  deriving DecidableEq, Repr

/-- PRED_DIST (R31). -/
structure PredDist where
  pa : BitVec 9
  pb : BitVec 9
  pc : BitVec 9
  deriving DecidableEq, Repr

/-- The engine's hidden state (R34): the sequencer and the four running pairs. -/
structure Engine where
  phase : Phase
  path : FilterPath
  i : Nat
  j : Nat
  pairA : Vector Byte 4
  pairC : Vector Byte 4
  deriving DecidableEq, Repr

/-- One host bus transaction (20_memory.md R62; its triple of 30_encoding.md R99 is the constructor, the offset and the
data). -/
inductive Txn where
  | rd8 (off : Nat)
  | wr8 (off : Nat) (v : Byte)
  | rd32 (off : Nat)
  | wr32 (off : Nat) (v : Word)
  /-- A transfer of any size other than 8 or 32 bits (R62). -/
  | otherSize (off : Nat) (write : Bool)
  deriving DecidableEq, Repr

/-- What the block answers a transaction with (20_memory.md R65; 70_reset_and_hazards.md R207). -/
inductive BusResponse where
  /-- A write's normal response. -/
  | written
  /-- An `RD8`'s data. -/
  | byte (v : Byte)
  /-- An `RD32`'s data. -/
  | word (v : Word)
  /-- The error response to a read; its data is 0 (R65). -/
  | readError
  /-- The error response to a write (R65). -/
  | writeError
  deriving DecidableEq, Repr

/-- One line of a host program (30_encoding.md R99, R100). -/
inductive HostOp where
  /-- One bus transaction. -/
  | txn (t : Txn)
  /-- `POLL off, mask, val`: repeat `RD32 off -> t` until `(t AND mask) == val`. -/
  | poll (off : Nat) (mask val : Word)
  /-- `WR8 off, t`: write the byte the host read last (the second half of a `COPYROW` element). -/
  | wr8Last (off : Nat)
  deriving DecidableEq, Repr

/-- Who moves next: one host transaction, one engine step, or the reset input (20_memory.md R69; R200). -/
inductive Turn where
  | host | engine | reset
  deriving DecidableEq, Repr

/-- The outside of the block: the host's remaining program, the responses it has had (newest first; R211's sequence of
read values), and the turns still to be taken (log entry 4). -/
structure HostSide where
  schedule : List Turn
  program : List HostOp
  responses : List BusResponse
  deriving DecidableEq, Repr

end Sys2Proof.Machine
end

