-- ==== Sys2Proof/Machine/State.lean ====
section
/-! DEFINITION. The state of the machine, its reset value, and the reasons a step can stop. -/

namespace Sys2Proof.Machine

/-- A row buffer (10_state.md R33): the bytes written since reset, by position, positions strictly rising. A position
that is not listed is ⊥ (unwritten). -/
abbrev Memory := List Host.Cell

/-- The state. The block's part is every register and buffer of 10_state.md; `params` are the build's parameters
(constant); `host` is the outside (log entries 1 and 4). STATUS.BUSY is `engine.phase ≠ idle` (R34), CAP is computed
from `params` (R22), and `irq` from `intEn` and `status.done` (R32): each piece is stored once. -/
structure State where
  params : Params
  cmd : CmdReg
  status : StatusReg
  intEn : Bool
  width : BitVec 16
  len : BitVec 32
  prevLen : BitVec 32
  predIn : PredIn
  predOut : PredOut
  predDist : PredDist
  engine : Engine
  cur : Memory
  prev : Memory
  host : HostSide
  deriving DecidableEq, Repr

/-- Why the machine stops. -/
inductive Fault where
  /-- ModelFault(UNINIT) (60_exceptions.md R179): raised by an element step (`element`) or an idle window read
  (`windowRead8`, `windowRead32`) that reads the byte `pos` of `buf` while it is ⊥. The hardware returns an unspecified
  byte and goes on, so stopping is SAFE: nothing is claimed of what follows. -/
  | uninit (buf : Buffer) (pos : Nat)
  deriving DecidableEq, Repr

/-- Why an instruction has no meaning. -/
inductive Refusal where
  /-- Raised only by an arm of `exec` whose instruction is not modelled yet; there is none. SAFE. -/
  | notModelled (mnemonic : String)
  deriving DecidableEq, Repr

/-- The block after reset (70_reset_and_hazards.md R200–R202), for the build `p`, with the outside `h` untouched. The
engine's `path` is unspecified there and read by nothing before it is set (R201); it is given W1 (log entry 3). -/
def State.resetWith (p : Params) (h : HostSide) : State :=
  { params := p
    cmd := { op := 0x0#4, fg := false }
    status := { done := false, ovr := false, err := none, path := none }
    intEn := false
    width := 0x0000#16
    len := 0x00000000#32
    prevLen := 0x00000000#32
    predIn := { a := 0x00#8, b := 0x00#8, c := 0x00#8 }
    predOut := { result := 0x00#8, sel := .left }
    predDist := { pa := 0#9, pb := 0#9, pc := 0#9 }
    engine :=
      { phase := .idle, path := .w1, i := 0, j := 0
        pairA := Vector.replicate 4 0x00#8, pairC := Vector.replicate 4 0x00#8 }
    cur := []
    prev := []
    host := h }

/-- The machine right after reset: the default build (R5), no host program placed. -/
def State.reset : State :=
  State.resetWith Params.default { schedule := [], program := [], responses := [] }

end Sys2Proof.Machine
end

