-- ==== Sys2Proof/Machine/Ops.lean ====
section
/-! DEFINITION. The named operations over buffers and registers, and the acceptance, rejection and end of a command. -/

namespace Sys2Proof.Machine

/-! ### Row buffers (10_state.md R33) -/

/-- What a position that nothing has written holds: ⊥, no value (70_reset_and_hazards.md R202). -/
def Memory.unlisted : Option Byte := none

/-- Byte `a` of a buffer. -/
def Memory.read : Memory → Nat → Option Byte
  | [], _ => Memory.unlisted
  | (k, v) :: rest, a => if k = a then some v else Memory.read rest a

/-- Write byte `a` of a buffer, keeping the positions strictly rising. -/
def Memory.write : Memory → Nat → Byte → Memory
  | [], a, v => [(a, v)]
  | (k, x) :: rest, a, v =>
    if a < k then (a, v) :: (k, x) :: rest
    else if a = k then (a, v) :: rest
    else (k, x) :: Memory.write rest a v

/-- The canonical form: positions strictly rising (no entry can equal ⊥, since ⊥ is no byte). -/
abbrev Memory.wf (m : Memory) : Prop := m.Pairwise (fun x y => x.1 < y.1)

/-- Every listed position is below `n`. -/
abbrev Memory.below (m : Memory) (n : Nat) : Prop := ∀ x ∈ m, x.1 < n

/-- `RD32` of a buffer (20_memory.md R63): the word at positions `a`…`a+3`, lowest position in the lowest lane, or the
first of the four positions that is ⊥. -/
def Memory.read32 (m : Memory) (a : Nat) : Except Nat Word :=
  match m.read a with
  | none => .error a
  | some b0 =>
    match m.read (a + 1) with
    | none => .error (a + 1)
    | some b1 =>
      match m.read (a + 2) with
      | none => .error (a + 2)
      | some b2 =>
        match m.read (a + 3) with
        | none => .error (a + 3)
        | some b3 => .ok (wordOfBytes b0 b1 b2 b3)

/-- `WR32` of a buffer (R63, R64): all four bytes, lane `n` at position `a + n`. -/
def Memory.write32 (m : Memory) (a : Nat) (w : Word) : Memory :=
  (((m.write a (byteLane w 0)).write (a + 1) (byteLane w 1)).write (a + 2) (byteLane w 2)).write (a + 3) (byteLane w 3)

/-! ### Writes of one piece of the state -/

def State.setCmd (s : State) (v : CmdReg) : State := { s with cmd := v }
def State.setStatus (s : State) (v : StatusReg) : State := { s with status := v }
def State.setIntEn (s : State) (v : Bool) : State := { s with intEn := v }
def State.setWidth (s : State) (v : BitVec 16) : State := { s with width := v }
def State.setLen (s : State) (v : BitVec 32) : State := { s with len := v }
def State.setPrevLen (s : State) (v : BitVec 32) : State := { s with prevLen := v }
def State.setPredIn (s : State) (v : PredIn) : State := { s with predIn := v }
def State.setPredOut (s : State) (v : PredOut) : State := { s with predOut := v }
def State.setPredDist (s : State) (v : PredDist) : State := { s with predDist := v }
def State.setEngine (s : State) (v : Engine) : State := { s with engine := v }
def State.setCur (s : State) (v : Memory) : State := { s with cur := v }
def State.setPrev (s : State) (v : Memory) : State := { s with prev := v }
def State.setHost (s : State) (v : HostSide) : State := { s with host := v }

/-- A row buffer by name. -/
def State.buffer (s : State) : Buffer → Memory
  | .cur => s.cur
  | .prev => s.prev

/-- Write a row buffer by name. -/
def State.setBuffer (s : State) : Buffer → Memory → State
  | .cur, m => s.setCur m
  | .prev, m => s.setPrev m

/-- STATUS.BUSY: 1 exactly when phase ≠ IDLE (10_state.md R34). -/
def State.busy (s : State) : Bool :=
  match s.engine.phase with
  | .idle => false
  | .runPredict => true
  | .runUnfilter => true

/-- The `irq` output: CTRL.INT_EN AND STATUS.DONE, at every instant (R32, R175). -/
def State.irq (s : State) : Bool := s.intEn && s.status.done

/-! ### Acceptance, rejection, end of a command (60_exceptions.md R171–R176) -/

/-- STATUS.OVR <- 1: the effect of a hazard access on the block (70_reset_and_hazards.md R207). -/
def State.overrun (s : State) : State := s.setStatus { s.status with ovr := true }

/-- A write that is a hazard access while BUSY: then it is dropped and sets OVR, otherwise it takes effect (R207). -/
def State.whenIdle (s : State) (effect : State → State) : State :=
  if s.busy then s.overrun else effect s

/-- The head of acceptance (R171): CMD.OP and CMD.FG are stored, DONE, ERR and PATH are cleared. -/
def State.latchCommand (s : State) (op : BitVec 4) (fg : Bool) : State :=
  (s.setCmd { op := op, fg := fg }).setStatus { s.status with done := false, err := none, path := none }

/-- `raise Error(code)` (R173), the block's exception entry: ERR, PATH = 0 and DONE; nothing else changes and there is
no vector, no saved state and no mode to change. -/
def State.raiseError (s : State) (code : ErrCode) : State :=
  s.setStatus { s.status with err := some code, path := none, done := true }

/-- What a write of `v` to STATUS clears (R24): DONE if bit 1 is 1, OVR if bit 2 is 1. Clearing DONE is the block's
return from an exception (R176). -/
def State.clearStatus (s : State) (v : Word) : State :=
  s.setStatus
    { s.status with
      done := s.status.done && !v.getLsbD 1
      ovr := s.status.ovr && !v.getLsbD 2 }

/-- The finish step's part common to both commands (R174): phase IDLE (so BUSY is 0) and DONE = 1. -/
def State.finish (s : State) : State :=
  (s.setEngine { s.engine with phase := .idle }).setStatus { s.status with done := true }

/-! ### The outside -/

/-- Record the block's response to the transaction in progress. -/
def State.respond (s : State) (r : BusResponse) : State :=
  s.setHost { s.host with responses := r :: s.host.responses }

/-- Replace the host's remaining program. -/
def State.setProgram (s : State) (p : List HostOp) : State := s.setHost { s.host with program := p }

/-- Replace the turns still to be taken. -/
def State.setSchedule (s : State) (t : List Turn) : State := s.setHost { s.host with schedule := t }

end Sys2Proof.Machine
end

