-- ==== Sys2Proof/Machine/Operands.lean ====
section
/-! DEFINITION. Operand assembly (30_encoding.md R94, R95) and the running pairs (10_state.md R35). -/

namespace Sys2Proof.Machine

/-- A byte zero-extended to a mathematical integer: `int(x)` (00_scope.md R7; R94). -/
def intOf (x : Byte) : Int := (x.toNat : Int)

/-- w = WIDTH[15:0], unsigned (R95). -/
def State.opWidth (s : State) : Nat := s.width.toNat

/-- L = LEN[31:0], unsigned (R95). -/
def State.opLen (s : State) : Nat := s.len.toNat

/-- PL = PREV_LEN[31:0], unsigned (R95). -/
def State.opPrevLen (s : State) : Nat := s.prevLen.toNat

/-- The pair of position `j` on each path (R35): pair 0 for W1 and GEN, `j mod 3` for W3, `j mod 4` for W4. -/
def pairOf (p : FilterPath) (j : Nat) : Fin 4 :=
  match p with
  | .w1 => 0
  | .w3 => ⟨j % 3, Nat.lt_trans (Nat.mod_lt j (by decide)) (by decide)⟩
  | .w4 => ⟨j % 4, Nat.mod_lt j (by decide)⟩
  | .gen => 0

end Sys2Proof.Machine
end

