-- ==== Sys2Proof/Machine/Predictor.lean ====
section
/-! DEFINITION. The Paeth predictor (40_predictor.md R110–R117). -/

namespace Sys2Proof.Machine

/-- `Paeth(a, b, c)` with a = left, b = above, c = aboveLeft (R114): the distances over mathematical integers (R112),
the tie-break left, then above, then aboveLeft (R113). -/
def paeth (a b c : Byte) : PaethOut :=
  let pa := (intOf b - intOf c).natAbs
  let pb := (intOf a - intOf c).natAbs
  let pc := ((intOf a - intOf c) + (intOf b - intOf c)).natAbs
  if pa ≤ pb ∧ pa ≤ pc then { value := a, sel := .left, pa := pa, pb := pb, pc := pc }
  else if pb ≤ pc then { value := b, sel := .above, pa := pa, pb := pb, pc := pc }
  else { value := c, sel := .aboveLeft, pa := pa, pb := pb, pc := pc }

/-- `abs` on an `n`-bit two's-complement value by branching on the sign (R111). -/
def absBranch (n : Nat) (x : BitVec n) : BitVec n := if x.msb then -x else x

/-- `abs` on an `n`-bit two's-complement value without a branch, the form R111 offers a hardware implementer:
m = x >>> (n−1) (arithmetic), abs x = (x XOR m) − m. -/
def absBitTrick (n : Nat) (x : BitVec n) : BitVec n :=
  (x ^^^ x.sshiftRight (n - 1)) - x.sshiftRight (n - 1)

/-- The predictor on an `n`-bit two's-complement datapath (R116, ARITH_BITS = n) that uses `abs` as its absolute value. -/
def paethAtWidth (n : Nat) (abs : BitVec n → BitVec n) (a b c : Byte) : PaethOut :=
  let da := BitVec.setWidth n a - BitVec.setWidth n c
  let db := BitVec.setWidth n b - BitVec.setWidth n c
  let pa := (abs db).toNat
  let pb := (abs da).toNat
  let pc := (abs (da + db)).toNat
  if pa ≤ pb ∧ pa ≤ pc then { value := a, sel := .left, pa := pa, pb := pb, pc := pc }
  else if pb ≤ pc then { value := b, sel := .above, pa := pa, pb := pb, pc := pc }
  else { value := c, sel := .aboveLeft, pa := pa, pb := pb, pc := pc }

end Sys2Proof.Machine
end

