-- ==== Sys2Proof/Machine/Predict.lean ====
section
/-! DEFINITION. The PREDICT command (40_predictor.md R118, R119). -/

namespace Sys2Proof.Machine

/-- `start PREDICT` (R118, after the head of acceptance): BUSY = 1, phase = RUN_PREDICT. -/
def startPredict (s : State) : State := s.setEngine { s.engine with phase := .runPredict }

/-- `WR32 CMD` with a PREDICT word (R118): while idle it is accepted and never rejected; while busy it is a hazard
access (R207). -/
def execPredict (fg : Bool) (s : State) : Host.Outcome State Fault Refusal :=
  .next (s.whenIdle fun s => startPredict (s.latchCommand 0x1#4 fg))

/-- PRED_OUT and PRED_DIST of one evaluation (R119; 10_state.md R30, R31). -/
def State.storePrediction (s : State) (r : PaethOut) : State :=
  (s.setPredOut { result := r.value, sel := r.sel }).setPredDist
    { pa := BitVec.ofNat 9 r.pa, pb := BitVec.ofNat 9 r.pb, pc := BitVec.ofNat 9 r.pc }

/-- The engine's only step while phase = RUN_PREDICT (R119). -/
def predictFinish (s : State) : State :=
  (s.storePrediction (paeth s.predIn.a s.predIn.b s.predIn.c)).finish

end Sys2Proof.Machine
end

