-- ==== Sys2Proof/Machine/Reserved.lean ====
section
/-! DEFINITION. The reserved OP values (30_encoding.md R91): a written word with one is rejected with BAD_OP
(60_exceptions.md R170, R171). -/

namespace Sys2Proof.Machine

/-- R171's BAD_OP case: CMD keeps the bad OP for read-back, ERR = BAD_OP, DONE = 1. -/
def rejectOp (op : BitVec 4) (fg : Bool) (s : State) : State :=
  s.whenIdle fun s => (s.latchCommand op fg).raiseError .badOp

/-- Reserved OP 0x0. -/
def execReserved0 (fg : Bool) (s : State) : Host.Outcome State Fault Refusal := .next (rejectOp 0x0#4 fg s)

/-- Reserved OP 0x3. -/
def execReserved3 (fg : Bool) (s : State) : Host.Outcome State Fault Refusal := .next (rejectOp 0x3#4 fg s)

/-- Reserved OP 0x4–0x7. -/
def execReserved4to7 (op : BitVec 2) (fg : Bool) (s : State) : Host.Outcome State Fault Refusal :=
  .next (rejectOp (0b01#2 ++ op) fg s)

/-- Reserved OP 0x8–0xF. -/
def execReserved8toF (op : BitVec 3) (fg : Bool) (s : State) : Host.Outcome State Fault Refusal :=
  .next (rejectOp (0b1#1 ++ op) fg s)

end Sys2Proof.Machine
end

