-- ==== Sys2Proof/Machine/Unfilter.lean ====
section
/-! DEFINITION. The UNFILTER commands, the path selector and the four paths (41_unfilter.md R130–R143). -/

namespace Sys2Proof.Machine

/-! ### Acceptance -/

/-- R134: the path of a command with the force bit `fg`, width `w` and length `l`. -/
def selectPath (hasFastpaths fg : Bool) (w l : Nat) : FilterPath :=
  if fg || !hasFastpaths then .gen
  else if w = 1 then .w1
  else if w = 3 ∧ l % 3 = 0 then .w3
  else if w = 4 ∧ l % 4 = 0 then .w4
  else .gen

/-- The acceptance checks of UNFILTER, in the order that fixes their priority (60_exceptions.md R171, R172). -/
def State.unfilterError (s : State) : Option ErrCode :=
  if s.opWidth = 0 then some .badWidth
  else if s.opLen > s.params.lmax ∨ s.opPrevLen > s.params.lmax then some .lenRange
  else if s.opLen ≠ s.opPrevLen then some .lenMismatch
  else none

/-- The path R134 selects for the command in CMD. -/
def State.selected (s : State) : FilterPath :=
  selectPath s.params.hasFastpaths s.cmd.fg s.opWidth s.opLen

/-- `start UNFILTER` (R142): the path is latched and reported, the sequencer and every pair are zeroed, BUSY = 1. -/
def startUnfilter (s : State) : State :=
  (s.setStatus { s.status with path := some s.selected }).setEngine
    { phase := .runUnfilter, path := s.selected, i := 0, j := 0
      pairA := Vector.replicate 4 0x00#8, pairC := Vector.replicate 4 0x00#8 }

/-- The body of R171's UNFILTER case, once CMD is stored: the first failing check rejects the command. -/
def checkAndStart (s : State) : State :=
  match s.unfilterError with
  | some code => s.raiseError code
  | none => startUnfilter s

/-- `WR32 CMD` with an UNFILTER word (R142). -/
def execUnfilter (s : State) : Host.Outcome State Fault Refusal :=
  .next (s.whenIdle fun s => checkAndStart (s.latchCommand 0x2#4 false))

/-- `WR32 CMD` with an UNFILTER.G word (R143). -/
def execUnfilterG (s : State) : Host.Outcome State Fault Refusal :=
  .next (s.whenIdle fun s => checkAndStart (s.latchCommand 0x2#4 true))

/-! ### Engine steps -/

/-- `Element(j, k)` (R140): reconstruct position `j` with pair `k`. PREV is read first, then CUR. -/
def element (j : Nat) (k : Fin 4) (s : State) : Except Fault State :=
  match s.prev.read j with
  | none => .error (.uninit .prev j)
  | some b =>
    match s.cur.read j with
    | none => .error (.uninit .cur j)
    | some f =>
      let x := (paeth s.engine.pairA[k] b s.engine.pairC[k]).value + f
      .ok ((s.setCur (s.cur.write j x)).setEngine
        { s.engine with pairA := s.engine.pairA.set k x, pairC := s.engine.pairC.set k b })

/-- The position the path's next step reconstructs, none when its next step is Finish (R136–R139). -/
def nextPosition (p : FilterPath) (s : State) : Option Nat :=
  match p with
  | .gen => if s.engine.i < min s.opWidth s.opLen then some s.engine.j else none
  | .w1 => if s.engine.j < s.opLen then some s.engine.j else none
  | .w3 => if s.engine.j < s.opLen then some s.engine.j else none
  | .w4 => if s.engine.j < s.opLen then some s.engine.j else none

/-- GEN after an element (R136): along the channel, or to the next channel with pair 0 zeroed. -/
def advanceGen (s : State) : State :=
  if s.engine.j + s.opWidth < s.opLen then
    s.setEngine { s.engine with j := s.engine.j + s.opWidth }
  else
    s.setEngine
      { s.engine with
        i := s.engine.i + 1
        j := s.engine.i + 1
        pairA := s.engine.pairA.set 0 0x00#8
        pairC := s.engine.pairC.set 0 0x00#8 }

/-- A pixel-serial path after an element (R137–R139): the next position. -/
def advanceSerial (s : State) : State := s.setEngine { s.engine with j := s.engine.j + 1 }

/-- How each path moves on after an element. -/
def advance (p : FilterPath) (s : State) : State :=
  match p with
  | .gen => advanceGen s
  | .w1 => advanceSerial s
  | .w3 => advanceSerial s
  | .w4 => advanceSerial s

/-- Is the engine running an UNFILTER on path `p`? -/
def State.running (s : State) (p : FilterPath) : Bool :=
  s.engine.phase = .runUnfilter && s.engine.path = p

/-- One engine step of path `p`: an element step or Finish. The engine steps only through the path it has latched
(R142), and takes no step while idle (10_state.md R20): then nothing changes (log entry 2). -/
def pathStep (p : FilterPath) (s : State) : Host.Outcome State Fault Refusal :=
  if s.running p then
    match nextPosition p s with
    | some j =>
      match element j (pairOf p j) s with
      | .ok t => .next (advance p t)
      | .error f => .fault f
    | none => .next s.finish
  else .next s

/-- UNFILTER/W1 (R137). -/
def execUnfilterW1 (s : State) : Host.Outcome State Fault Refusal := pathStep .w1 s

/-- UNFILTER/W3 (R138). -/
def execUnfilterW3 (s : State) : Host.Outcome State Fault Refusal := pathStep .w3 s

/-- UNFILTER/W4 (R139). -/
def execUnfilterW4 (s : State) : Host.Outcome State Fault Refusal := pathStep .w4 s

/-- UNFILTER/GEN (R136); its steps do not depend on the row's F bit. -/
def execUnfilterGen (_fg : Bool) (s : State) : Host.Outcome State Fault Refusal := pathStep .gen s

end Sys2Proof.Machine
end

