-- ==== Sys2Proof/Machine/Dispatch.lean ====
section
/-! DEFINITION. One arm per constructor of `Instr`. -/

namespace Sys2Proof.Machine

/-- The meaning of an instruction: of a command, what writing its word to CMD does (60_exceptions.md R171); of a path
form, one engine step of that path (41_unfilter.md R136–R139). -/
def exec (i : Instr) (s : State) : Host.Outcome State Fault Refusal :=
  match i with
  | .predict fg => Sys2Proof.Machine.execPredict fg s
  | .unfilter => Sys2Proof.Machine.execUnfilter s
  | .unfilterG => Sys2Proof.Machine.execUnfilterG s
  | .unfilterW1 => Sys2Proof.Machine.execUnfilterW1 s
  | .unfilterW3 => Sys2Proof.Machine.execUnfilterW3 s
  | .unfilterW4 => Sys2Proof.Machine.execUnfilterW4 s
  | .unfilterGen fg => Sys2Proof.Machine.execUnfilterGen fg s
  | .reserved0 fg => Sys2Proof.Machine.execReserved0 fg s
  | .reserved3 fg => Sys2Proof.Machine.execReserved3 fg s
  | .reserved4to7 op fg => Sys2Proof.Machine.execReserved4to7 op fg s
  | .reserved8toF op fg => Sys2Proof.Machine.execReserved8toF op fg s

end Sys2Proof.Machine
end

