-- ==== Sys2Proof/Machine/Flags.lean ====
section
/-! DEFINITION. The registers as 32-bit words: every field and status bit in its place (10_state.md R22–R31), reserved
bits reading 0 (30_encoding.md R93). -/

namespace Sys2Proof.Machine

/-- STATUS.ERR (60_exceptions.md R170). -/
def errBits : Option ErrCode → BitVec 4
  | none => 0x0#4
  | some .badOp => 0x1#4
  | some .badWidth => 0x2#4
  | some .lenRange => 0x3#4
  | some .lenMismatch => 0x4#4

/-- STATUS.PATH (R24). -/
def pathBits : Option FilterPath → BitVec 3
  | none => 0#3
  | some .w1 => 1#3
  | some .w3 => 2#3
  | some .w4 => 3#3
  | some .gen => 4#3

/-- PRED_OUT.SEL (R30). -/
def selBits : Sel → BitVec 2
  | .left => 0#2
  | .above => 1#2
  | .aboveLeft => 2#2

/-- CAP (R22): VERSION 31:24 = 1, KBITS 12:8, FASTPATHS 0. -/
def capWord (p : Params) : Word :=
  bitsAt 24 0x01#8 ||| bitsAt 8 (BitVec.ofNat 5 p.k) ||| bitsAt 0 (BitVec.ofBool p.hasFastpaths)

/-- CMD (R23): FG 8, OP 3:0. -/
def cmdWord (c : CmdReg) : Word := packWord c.op c.fg

/-- STATUS (R24): PATH 10:8, ERR 7:4, OVR 2, DONE 1, BUSY 0. -/
def statusWord (busy : Bool) (t : StatusReg) : Word :=
  bitsAt 8 (pathBits t.path) ||| bitsAt 4 (errBits t.err) ||| bitsAt 2 (BitVec.ofBool t.ovr) |||
    bitsAt 1 (BitVec.ofBool t.done) ||| bitsAt 0 (BitVec.ofBool busy)

/-- CTRL (R25): INT_EN 0. -/
def ctrlWord (intEn : Bool) : Word := bitsAt 0 (BitVec.ofBool intEn)

/-- WIDTH (R26): W 15:0. -/
def widthWord (w : BitVec 16) : Word := bitsAt 0 w

/-- PRED_IN (R29): C 23:16, B 15:8, A 7:0. -/
def predInWord (p : PredIn) : Word := bitsAt 16 p.c ||| bitsAt 8 p.b ||| bitsAt 0 p.a

/-- PRED_OUT (R30): SEL 9:8, RESULT 7:0. -/
def predOutWord (p : PredOut) : Word := bitsAt 8 (selBits p.sel) ||| bitsAt 0 p.result

/-- PRED_DIST (R31): PC 28:20, PB 18:10, PA 8:0. -/
def predDistWord (p : PredDist) : Word := bitsAt 20 p.pc ||| bitsAt 10 p.pb ||| bitsAt 0 p.pa

/-- What `RD32` of a register returns (R22–R31); no read has a side effect (20_memory.md R67). -/
def State.readReg (s : State) : Reg → Word
  | .cap => capWord s.params
  | .cmd => cmdWord s.cmd
  | .status => statusWord s.busy s.status
  | .ctrl => ctrlWord s.intEn
  | .width => widthWord s.width
  | .len => s.len
  | .prevLen => s.prevLen
  | .predIn => predInWord s.predIn
  | .predOut => predOutWord s.predOut
  | .predDist => predDistWord s.predDist

/-- The bits of each register that some field holds (R22–R31); the others are reserved. -/
def Reg.fieldMask : Reg → Word
  | .cap => 0xFF001F01#32
  | .cmd => 0x0000010F#32
  | .status => 0x000007F7#32
  | .ctrl => 0x00000001#32
  | .width => 0x0000FFFF#32
  | .len => 0xFFFFFFFF#32
  | .prevLen => 0xFFFFFFFF#32
  | .predIn => 0x00FFFFFF#32
  | .predOut => 0x000003FF#32
  | .predDist => 0x1FF7FDFF#32

/-- The fields of a word written to PRED_IN (R29). -/
def predInOf (v : Word) : PredIn :=
  { a := v.extractLsb' 0 8, b := v.extractLsb' 8 8, c := v.extractLsb' 16 8 }

end Sys2Proof.Machine
end

