-- ==== Sys2Proof/Machine/Bus.lean ====
section
/-! DEFINITION. The host port: the device space and its transactions (20_memory.md R60–R67; the hazards of
70_reset_and_hazards.md R207). -/

namespace Sys2Proof.Machine

/-- The offset of each register (10_state.md, register map). -/
def Reg.offset : Reg → Nat
  | .cap => 0x00
  | .cmd => 0x04
  | .status => 0x08
  | .ctrl => 0x0C
  | .width => 0x10
  | .len => 0x14
  | .prevLen => 0x18
  | .predIn => 0x1C
  | .predOut => 0x20
  | .predDist => 0x24

/-- The register at an offset of the REG region, none at 0x28–0xFF and at offsets that are no multiple of 4 (R61, R62). -/
def regAt (off : Nat) : Option Reg :=
  [Reg.cap, .cmd, .status, .ctrl, .width, .len, .prevLen, .predIn, .predOut, .predDist].find? (fun r => r.offset == off)

/-- What a device offset reaches. -/
inductive Place where
  | reg (r : Reg)
  | window (b : Buffer) (pos : Nat)
  | nothing
  deriving DecidableEq, Repr

/-- The device space map (R61). Offsets of 4·LMAX and above do not exist and reach nothing (log entry 6). -/
def place (p : Params) (off : Nat) : Place :=
  if off < 0x100 then
    match regAt off with
    | some r => .reg r
    | none => .nothing
  else if off < p.lmax then .nothing
  else if off < 2 * p.lmax then .window .cur (off - p.lmax)
  else if off < 3 * p.lmax then .window .prev (off - 2 * p.lmax)
  else .nothing

/-- The offset of byte `pos` of a buffer's window (R61; the symbols `CUR+j` and `PREV+j` of 30_encoding.md R99). -/
def windowOffset (p : Params) (b : Buffer) (pos : Nat) : Nat :=
  match b with
  | .cur => p.lmax + pos
  | .prev => 2 * p.lmax + pos

/-- A bus error on a read or on a write (R65): the error response, and nothing else changes. -/
def busError (write : Bool) (s : State) : State := s.respond (if write then .writeError else .readError)

/-- `WR32` of a register (R64; the write effects of 10_state.md R22–R31; R207). The response is the normal one. A write to
CMD runs the command its word decodes to (30_encoding.md R96). -/
def writeReg (r : Reg) (v : Word) (s : State) : Host.Outcome State Fault Refusal :=
  let s := s.respond .written
  match r with
  | .cap => .next s
  | .cmd => exec (decodeWord v) s
  | .status => .next (s.clearStatus v)
  | .ctrl => .next (s.setIntEn (v.getLsbD 0))
  | .width => .next (s.whenIdle fun s => s.setWidth (v.extractLsb' 0 16))
  | .len => .next (s.whenIdle fun s => s.setLen v)
  | .prevLen => .next (s.whenIdle fun s => s.setPrevLen v)
  | .predIn => .next (s.whenIdle fun s => s.setPredIn (predInOf v))
  | .predOut => .next s
  | .predDist => .next s

/-- `RD8` of a window (R64, R207, R179). -/
def windowRead8 (b : Buffer) (pos : Nat) (s : State) : Host.Outcome State Fault Refusal :=
  if s.busy then .next ((s.respond (.byte 0x00#8)).overrun)
  else
    match (s.buffer b).read pos with
    | some v => .next (s.respond (.byte v))
    | none => .fault (.uninit b pos)

/-- `RD32` of a window (R63, R64, R207, R179). -/
def windowRead32 (b : Buffer) (pos : Nat) (s : State) : Host.Outcome State Fault Refusal :=
  if s.busy then .next ((s.respond (.word 0x00000000#32)).overrun)
  else
    match (s.buffer b).read32 pos with
    | .ok v => .next (s.respond (.word v))
    | .error bad => .fault (.uninit b bad)

/-- `WR8` of a window (R64, R207). -/
def windowWrite8 (b : Buffer) (pos : Nat) (v : Byte) (s : State) : State :=
  (s.respond .written).whenIdle fun s => s.setBuffer b ((s.buffer b).write pos v)

/-- `WR32` of a window (R63, R64, R207). -/
def windowWrite32 (b : Buffer) (pos : Nat) (v : Word) (s : State) : State :=
  (s.respond .written).whenIdle fun s => s.setBuffer b ((s.buffer b).write32 pos v)

/-- One host transaction (R62, R64): registers take aligned 32-bit accesses, windows bytes anywhere and 32 bits at
multiples of 4; every other combination is a bus error. -/
def transact (t : Txn) (s : State) : Host.Outcome State Fault Refusal :=
  match t with
  | .rd8 off =>
    match place s.params off with
    | .window b pos => windowRead8 b pos s
    | .reg _ => .next (busError false s)
    | .nothing => .next (busError false s)
  | .wr8 off v =>
    match place s.params off with
    | .window b pos => .next (windowWrite8 b pos v s)
    | .reg _ => .next (busError true s)
    | .nothing => .next (busError true s)
  | .rd32 off =>
    match place s.params off with
    | .window b pos => if off % 4 = 0 then windowRead32 b pos s else .next (busError false s)
    | .reg r => .next (s.respond (.word (s.readReg r)))
    | .nothing => .next (busError false s)
  | .wr32 off v =>
    match place s.params off with
    | .window b pos => if off % 4 = 0 then .next (windowWrite32 b pos v s) else .next (busError true s)
    | .reg r => writeReg r v s
    | .nothing => .next (busError true s)
  | .otherSize _ write => .next (busError write s)

/-- Does R62 allow the transaction? -/
def Txn.allowed (p : Params) : Txn → Bool
  | .rd8 off =>
    match place p off with
    | .window _ _ => true
    | .reg _ => false
    | .nothing => false
  | .wr8 off _ =>
    match place p off with
    | .window _ _ => true
    | .reg _ => false
    | .nothing => false
  | .rd32 off =>
    match place p off with
    | .window _ _ => off % 4 == 0
    | .reg _ => true
    | .nothing => false
  | .wr32 off _ =>
    match place p off with
    | .window _ _ => off % 4 == 0
    | .reg _ => true
    | .nothing => false
  | .otherSize _ _ => false

/-- The device offset a transaction goes to. -/
def Txn.offset : Txn → Nat
  | .rd8 off => off
  | .wr8 off _ => off
  | .rd32 off => off
  | .wr32 off _ => off
  | .otherSize off _ => off

/-- Is the transaction a write? -/
def Txn.isWrite : Txn → Bool
  | .rd8 _ => false
  | .wr8 _ _ => true
  | .rd32 _ => false
  | .wr32 _ _ => true
  | .otherSize _ write => write

end Sys2Proof.Machine
end

