-- ==== Sys2Proof/Machine/HostProgram.lean ====
section
/-! DEFINITION. Host programs: what one line does, and the pseudo-instructions (30_encoding.md R99, R100). -/

namespace Sys2Proof.Machine

/-- The data a response carries back to the host, if it answers a read (20_memory.md R65: 0 with an error). -/
def BusResponse.readData : BusResponse → Option Word
  | .written => none
  | .byte v => some (BitVec.setWidth 32 v)
  | .word v => some v
  | .readError => some 0x00000000#32
  | .writeError => none

/-- The data of the host's last read, R100's `t` (a free value before the first read; log entry 7). -/
def lastRead : List BusResponse → Word
  | [] => Config.unboundRead
  | r :: rest =>
    match r.readData with
    | some v => v
    | none => lastRead rest

/-- After a `POLL`'s read: drop the line when the value matched, keep it for another repetition otherwise (R100). -/
def pollResult (mask val : Word) (rest : List HostOp) (t : State) : State :=
  if lastRead t.host.responses &&& mask = val then t.setProgram rest else t

/-- The host's turn: one transaction of the first line of its program; nothing when the program is over. -/
def hostTurn (s : State) : Host.Outcome State Fault Refusal :=
  match s.host.program with
  | [] => .next s
  | .txn t :: rest => transact t (s.setProgram rest)
  | .poll off mask val :: rest =>
    match transact (.rd32 off) s with
    | .next t => .next (pollResult mask val rest t)
    | .fault f => .fault f
    | .refused r => .refused r
  | .wr8Last off :: rest =>
    transact (.wr8 off (byteLane (lastRead s.host.responses) 0)) (s.setProgram rest)

/-- The pseudo-instructions of R100. -/
inductive Pseudo where
  | poll (off : Nat) (mask val : Word)
  | wait
  | ack
  | setRow (w l : Word)
  | predict (a b c : Byte)
  | unfilter
  | unfilterG
  | load (b : Buffer) (pos : Nat) (bytes : List Byte)
  | copyRow (l : Nat)
  | zeroPrev (l : Nat)
  deriving DecidableEq, Repr

/-- `WR32 reg, v`. -/
def wrReg (r : Reg) (v : Word) : HostOp := .txn (.wr32 r.offset v)

/-- `WAIT`: poll STATUS until BUSY = 0. -/
def waitOp : HostOp := .poll Reg.status.offset 0x00000001#32 0x00000000#32

/-- `LOADCUR` and `LOADPREV`: one `WR8` for each byte, from position `pos` on. -/
def loadOps (p : Params) (b : Buffer) : Nat → List Byte → List HostOp
  | _, [] => []
  | pos, x :: rest => .txn (.wr8 (windowOffset p b pos) x) :: loadOps p b (pos + 1) rest

/-- The exact expansions of R100. -/
def Pseudo.expand (p : Params) : Pseudo → List HostOp
  | .poll off mask val => [.poll off mask val]
  | .wait => [waitOp]
  | .ack => [wrReg .status 0x00000006#32]
  | .setRow w l => [wrReg .width w, wrReg .len l, wrReg .prevLen l]
  | .predict a b c => [wrReg .predIn (bitsAt 16 c ||| bitsAt 8 b ||| bitsAt 0 a), wrReg .cmd 0x00000001#32, waitOp]
  | .unfilter => [wrReg .cmd 0x00000002#32, waitOp]
  | .unfilterG => [wrReg .cmd 0x00000102#32, waitOp]
  | .load b pos bytes => loadOps p b pos bytes
  | .copyRow l =>
    (List.range l).flatMap fun n => [.txn (.rd8 (windowOffset p .cur n)), .wr8Last (windowOffset p .prev n)]
  | .zeroPrev l => (List.range l).map fun n => .txn (.wr8 (windowOffset p .prev n) 0x00#8)

end Sys2Proof.Machine
end

