-- ==== Sys2Proof/Machine/Turns.lean ====
section
/-! DEFINITION. One turn of each agent, and whose turn it is (20_memory.md R66, R69; 70_reset_and_hazards.md R210). -/

namespace Sys2Proof.Machine

/-- The instruction a path is stepped by (41_unfilter.md R136–R139); `fg` is CMD.FG. -/
def FilterPath.instr (fg : Bool) : FilterPath → Instr
  | .w1 => .unfilterW1
  | .w3 => .unfilterW3
  | .w4 => .unfilterW4
  | .gen => .unfilterGen fg

/-- The engine's turn: no step while idle (10_state.md R20), PREDICT's finish step (40_predictor.md R119), or one step of
the latched path (41_unfilter.md R142). -/
def engineTurn (s : State) : Host.Outcome State Fault Refusal :=
  match s.engine.phase with
  | .idle => .next s
  | .runPredict => .next (predictFinish s)
  | .runUnfilter => exec (s.engine.path.instr s.cmd.fg) s

/-- The reset input (70_reset_and_hazards.md R200–R203): at any time, whatever the engine is doing; the outside keeps
what it has. -/
def resetTurn (s : State) : State := State.resetWith s.params s.host

/-- Whose turn it is: the schedule says; past its end a busy engine moves before the host (log entry 4). -/
def nextTurn (s : State) : Turn :=
  match s.host.schedule with
  | t :: _ => t
  | [] => if s.busy then .engine else .host

/-- The turn in progress is taken off the schedule. -/
def takeTurn (s : State) : State := s.setSchedule s.host.schedule.tail

/-- One turn. -/
def runTurn (t : Turn) (s : State) : Host.Outcome State Fault Refusal :=
  match t with
  | .host => hostTurn s
  | .engine => engineTurn s
  | .reset => .next (resetTurn s)

end Sys2Proof.Machine
end

