-- ==== Sys2Proof/Machine/Step.lean ====
section
/-! DEFINITION. One step of the machine, and how a command word is placed where the next step runs it. -/

namespace Sys2Proof.Machine

/-- One step: one whole host transaction, one whole engine step, or a reset (20_memory.md R66, R69). -/
def step (s : State) : Host.Outcome State Fault Refusal :=
  runTurn (nextTurn s) (takeTurn s)

/-- The block fetches nothing (20_memory.md R72): a command comes from the host. This puts `WR32 CMD, w` at the head of the
host's program and gives the host the next turn, so that the very next step writes that word to CMD (log entry 5). -/
def State.withFetchWord (s : State) (nbits w : Nat) : State :=
  s.setHost
    { s.host with
      schedule := .host :: s.host.schedule
      program := wrReg .cmd (tableWord nbits w) :: s.host.program }

end Sys2Proof.Machine
end

