-- ==== Sys2Proof/Laws/PerInstr.lean ====
section
/-! SUPPORT. Facts about every instruction as syntax, one lemma per constructor. -/

namespace Sys2Proof.Laws.Encoding

/-- What encoding and decoding an instruction gives back: the command that shares its word (30_encoding.md R96, R97),
which is the instruction itself exactly when it is a well-formed command. -/
def Statement (i : Instr) : Prop :=
  decodeWord (encode i) = i.command ∧ (i.wellFormed = true ↔ i.command = i)

theorem predict (fg : Bool) : Statement (.predict fg) := by cases fg <;> exact ⟨by decide, by decide⟩
theorem unfilter : Statement .unfilter := ⟨by decide, by decide⟩
theorem unfilterG : Statement .unfilterG := ⟨by decide, by decide⟩
theorem unfilterW1 : Statement .unfilterW1 := ⟨by decide, by decide⟩
theorem unfilterW3 : Statement .unfilterW3 := ⟨by decide, by decide⟩
theorem unfilterW4 : Statement .unfilterW4 := ⟨by decide, by decide⟩
theorem unfilterGen (fg : Bool) : Statement (.unfilterGen fg) := by cases fg <;> exact ⟨by decide, by decide⟩
theorem reserved0 (fg : Bool) : Statement (.reserved0 fg) := by cases fg <;> exact ⟨by decide, by decide⟩
theorem reserved3 (fg : Bool) : Statement (.reserved3 fg) := by cases fg <;> exact ⟨by decide, by decide⟩

theorem reserved4to7 (op : BitVec 2) (fg : Bool) : Statement (.reserved4to7 op fg) :=
  ⟨by revert op fg; decide, by simp [Instr.wellFormed, Instr.command]⟩

theorem reserved8toF (op : BitVec 3) (fg : Bool) : Statement (.reserved8toF op fg) :=
  ⟨by revert op fg; decide, by simp [Instr.wellFormed, Instr.command]⟩

end Sys2Proof.Laws.Encoding
end

