-- ==== Sys2Proof/Machine/Row.lean ====
section
/-! DEFINITION. The result of the row transform as a function of the row alone (41_unfilter.md R131, R144, R147): what
the engine's sequencers are stated to compute. No step uses these definitions. -/

namespace Sys2Proof.Machine

/-- Channel `k` of a row of `w`-byte pixels, pixel after pixel (R131 along one channel, R144): `F` the filtered bytes,
`P` the previous row. -/
def laneByte (w : Nat) (F P : Nat → Byte) (k : Nat) : Nat → Byte
  | 0 => (paeth 0x00#8 (P k) 0x00#8).value + F k
  | n + 1 =>
    (paeth (laneByte w F P k n) (P (k + (n + 1) * w)) (P (k + n * w))).value + F (k + (n + 1) * w)

/-- `Rc[j]` (R131): channel `j mod w`, pixel `j div w` (00_scope.md R10). -/
def rowResult (w : Nat) (F P : Nat → Byte) (j : Nat) : Byte := laneByte w F P (j % w) (j / w)

/-- `Filt[j]`, the reference forward filter of an original row `O` (R147). -/
def forwardFilter (w : Nat) (O P : Nat → Byte) (j : Nat) : Byte :=
  O j - (paeth (if w ≤ j then O (j - w) else 0x00#8) (P j) (if w ≤ j then P (j - w) else 0x00#8)).value

end Sys2Proof.Machine
end

