-- ==== Sys2Proof/Safety.lean ====
section
/-! DEFINITION. The terms claims are stated in: the machine's invariant, a row that is fully written, safe runs. -/

namespace Sys2Proof.Machine

/-- Every byte an UNFILTER of the present registers would read holds a value (70_reset_and_hazards.md R204, step 3). -/
abbrev State.rowsWritten (s : State) : Prop :=
  ∀ j, j < s.opLen → (s.cur.read j).isSome = true ∧ (s.prev.read j).isSome = true

/-- Byte `j` of a buffer as a row function (0 where ⊥). -/
def rowOf (m : Memory) (j : Nat) : Byte := (m.read j).getD 0x00#8

/-- Where the sequencer of a path may stand in a row (41_unfilter.md R136–R139). -/
def State.sequencerInRow (s : State) : Prop :=
  match s.engine.path with
  | .gen =>
    s.engine.i ≤ min s.opWidth s.opLen ∧
      (s.engine.i < min s.opWidth s.opLen → s.engine.j < s.opLen ∧ s.engine.j % s.opWidth = s.engine.i)
  | .w1 => s.engine.j ≤ s.opLen
  | .w3 => s.engine.j ≤ s.opLen
  | .w4 => s.engine.j ≤ s.opLen

/-- The invariant that every step keeps, from every state that has it. -/
structure State.Inv (s : State) : Prop where
  /-- 8 ≤ K ≤ 24 (00_scope.md R5). -/
  params_valid : s.params.valid
  /-- Both buffers are in canonical form and hold only positions below LMAX (10_state.md R33). -/
  cur_wf : s.cur.wf
  prev_wf : s.prev.wf
  cur_below : s.cur.below s.params.lmax
  prev_below : s.prev.below s.params.lmax
  /-- The sequencer's ranges (10_state.md R34). -/
  i_range : s.engine.i ≤ 65535
  j_range : s.engine.j ≤ s.params.lmax
  /-- The distances' ranges (10_state.md R31). -/
  pa_range : s.predDist.pa.toNat ≤ 255
  pb_range : s.predDist.pb.toNat ≤ 255
  pc_range : s.predDist.pc.toNat ≤ 510
  /-- A running command has cleared DONE and ERR (60_exceptions.md R171, R177). -/
  busy_done : s.busy = true → s.status.done = false
  busy_err : s.busy = true → s.status.err = none
  /-- A rejected command reports no path (R173). -/
  err_path : s.status.err ≠ none → s.status.path = none
  /-- Without the fast paths STATUS.PATH is NONE or GEN (41_unfilter.md R135). -/
  path_built : s.params.hasFastpaths = false → s.status.path = none ∨ s.status.path = some .gen
  /-- While PREDICT runs, CMD says so and PATH is NONE (40_predictor.md R118). -/
  predict_running : s.engine.phase = .runPredict → s.cmd.op = 0x1#4 ∧ s.status.path = none
  /-- While UNFILTER runs, CMD says so, its checks still hold, and the latched path is the one R134 selects and STATUS
  reports (41_unfilter.md R142). -/
  unfilter_running : s.engine.phase = .runUnfilter →
    s.cmd.op = 0x2#4 ∧ s.unfilterError = none ∧ s.engine.path = s.selected ∧ s.status.path = some s.selected
  unfilter_sequencer : s.engine.phase = .runUnfilter → s.sequencerInRow

/-- `n` steps, stopping at the first fault or refusal. -/
def runSteps (n : Nat) (s : State) : Host.Outcome State Fault Refusal := Host.Core.run Sys2Proof.core n s

/-- A safe run: the machine never stops with a fault (60_exceptions.md R179: "A faulted state is never final"). -/
def SafeFrom (s : State) : Prop := ∀ n f, runSteps n s ≠ .fault f

/-- The next `n` turns are the engine's, one by one, and no turn after them is fixed (20_memory.md R69; log entry 4). -/
def State.engineTurns (s : State) (n : Nat) : State := s.setSchedule (List.replicate n .engine)

/-- The offsets of the device space that reach neither a register nor a window (20_memory.md R61), and those past it. -/
def unmapped (p : Params) (off : Nat) : Prop :=
  (0x28 ≤ off ∧ off < 0x100) ∨ (0x100 ≤ off ∧ off < p.lmax) ∨ 3 * p.lmax ≤ off

/-- `R` satisfies R131's recurrence on a row of length `l`, width `w`, filtered bytes `F`, previous row `P`. -/
def RowRecurrence (w l : Nat) (F P R : Nat → Byte) : Prop :=
  ∀ j, j < l → R j =
    (paeth (if w ≤ j then R (j - w) else 0x00#8) (P j) (if w ≤ j then P (j - w) else 0x00#8)).value + F j

/-- A state in which an UNFILTER word is accepted (60_exceptions.md R171: idle, and none of the checks fails). -/
abbrev State.unfilterReady (s : State) : Prop :=
  s.busy = false ∧ s.opWidth ≠ 0 ∧ s.opLen ≤ s.params.lmax ∧ s.opLen = s.opPrevLen

/-- The state after an accepted UNFILTER word (41_unfilter.md R142), its FG bit being `fg`. -/
def State.afterUnfilter (s : State) (fg : Bool) : State :=
  { s with
    cmd := { op := 0x2#4, fg := fg }
    status :=
      { s.status with
        done := false
        err := none
        path := some (selectPath s.params.hasFastpaths fg s.opWidth s.opLen) }
    engine :=
      { phase := .runUnfilter
        path := selectPath s.params.hasFastpaths fg s.opWidth s.opLen
        i := 0
        j := 0
        pairA := Vector.replicate 4 0x00#8
        pairC := Vector.replicate 4 0x00#8 } }

end Sys2Proof.Machine
end

