-- ==== Sys2Proof/Certificates/Slice0/Obligations.lean ====
section
/-! DEFINITION. The statements for the provers. -/

open Sys2Proof Sys2Proof.Machine

/-! ### Reset (70_reset_and_hazards.md §1) -/

/-- R200: "On reset: every host-visible register takes the value in the "reset" column of its table", `irq` is 0, the mode
is idle; for every build, at power-up and at every reset turn. -/
def Obligations.ResetGivesTheTabledRegisters : Prop :=
  let tabled (p : Params) (t : State) : Prop :=
    t.readReg .cap =
      0x01000000#32 ||| (BitVec.ofNat 32 p.k <<< 8) ||| (if p.hasFastpaths then 0x00000001#32 else 0x00000000#32) ∧
    (∀ r, r ≠ .cap → t.readReg r = 0x00000000#32) ∧ t.irq = false ∧ t.busy = false
  (∀ (p : Params) (h : HostSide), p.valid → tabled p (State.resetWith p h)) ∧
  tabled State.reset.params State.reset ∧
  (∀ s, s.params.valid → nextTurn s = .reset → ∃ t, step s = .next t ∧ tabled s.params t)

/-- R202: "Every byte of CUR and PREV becomes ⊥"; with it the parts of R203 and R201 that give values, from every state, so
while BUSY too: BUSY and DONE are 0, no finish step runs (R203), phase IDLE, i = j = 0, every running pair 0 (R201). -/
def Obligations.ResetAbortsAndLeavesBuffersUnwritten : Prop :=
  ∀ s, nextTurn s = .reset →
    ∃ t, step s = .next t ∧ (∀ a, t.cur.read a = none ∧ t.prev.read a = none) ∧
      t.busy = false ∧ t.status.done = false ∧
      t.engine.phase = .idle ∧ t.engine.i = 0 ∧ t.engine.j = 0 ∧
      (∀ k : Fin 4, t.engine.pairA[k] = 0x00#8 ∧ t.engine.pairC[k] = 0x00#8)

/-- The invariant holds after reset, for every build that R5 allows and whatever the outside holds. -/
def Obligations.ResetMeetsInvariant : Prop :=
  State.reset.Inv ∧ ∀ (p : Params) (h : HostSide), p.valid → (State.resetWith p h).Inv

/-! ### The whole machine -/

/-- Every step, by whichever agent and from every state that has it, keeps the invariant `State.Inv`. -/
def Obligations.StepKeepsInvariant : Prop :=
  ∀ s t, s.Inv → step s = .next t → t.Inv

/-- R179's premise suffices: from a state with the invariant in which every byte of both buffers has been written, with no
reset to come, the machine never faults, whatever the host's program and the schedule. -/
def Obligations.WrittenBuffersNeverFault : Prop :=
  ∀ s, s.Inv → (∀ a, a < s.params.lmax → (s.cur.read a).isSome = true ∧ (s.prev.read a).isSome = true) →
    Turn.reset ∉ s.host.schedule → SafeFrom s

/-- R179, the other way: a step refuses nothing, and it faults only on a byte of a row buffer that holds ⊥. -/
def Obligations.OnlyUnwrittenBytesStopTheMachine : Prop :=
  ∀ s, (∃ t, step s = .next t) ∨
    ∃ b pos, step s = .fault (.uninit b pos) ∧ (s.buffer b).read pos = none ∧ nextTurn s ≠ .reset ∧
      (nextTurn s = .host → s.busy = false)

/-- R22 ("Every field is constant while the hardware runs") for CAP and the parameters behind it. -/
def Obligations.CapabilitiesAreConstant : Prop :=
  ∀ s t, step s = .next t → t.params = s.params ∧ t.readReg .cap = s.readReg .cap

/-- R209: "Only the engine's finish step ends BUSY, and the host cannot force it" (the reset input apart, R203). -/
def Obligations.BusyEndsOnlyByFinishOrReset : Prop :=
  ∀ s t, step s = .next t → s.busy = true → t.busy = false →
    nextTurn s = .reset ∨ (nextTurn s = .engine ∧ t.status.done = true ∧ t.status.err = s.status.err)

/-- R24 and R176, STATUS.DONE. It rises only when a command ends: at the engine's finish step, or in the host's turn at a
rejected command, which leaves an error code. It is cleared by a `WR32 STATUS` with bit 1 = 1, by the next accepted CMD
write, or by reset, and by nothing else. -/
def Obligations.DoneChangesOnlyAtCommandEndOrAck : Prop :=
  ∀ s t, step s = .next t →
    (s.status.done = false → t.status.done = true →
      (nextTurn s = .engine ∧ s.busy = true ∧ t.busy = false) ∨
      (nextTurn s = .host ∧ s.busy = false ∧ t.busy = false ∧ t.status.err ≠ none)) ∧
    (s.status.done = true → t.status.done = false →
      nextTurn s = .reset ∨
      (nextTurn s = .host ∧ ∃ v rest, s.host.program = .txn (.wr32 0x08 v) :: rest ∧ v.getLsbD 1 = true) ∨
      (nextTurn s = .host ∧ s.busy = false ∧ ∃ v rest, s.host.program = .txn (.wr32 0x04 v) :: rest))

/-- R24, STATUS.OVR: set by hazard accesses only (a host turn while BUSY), cleared only by a `WR32 STATUS` with bit 2 = 1
or by reset. -/
def Obligations.OverrunChangesOnlyByHazardOrAck : Prop :=
  ∀ s t, step s = .next t →
    (s.status.ovr = false → t.status.ovr = true → nextTurn s = .host ∧ s.busy = true) ∧
    (s.status.ovr = true → t.status.ovr = false →
      nextTurn s = .reset ∨
      (nextTurn s = .host ∧ ∃ v rest, s.host.program = .txn (.wr32 0x08 v) :: rest ∧ v.getLsbD 2 = true))

/-- R30 and R31: PRED_OUT and PRED_DIST change only at the finish step of PREDICT (or by reset). -/
def Obligations.PredictionWrittenOnlyByPredictFinish : Prop :=
  ∀ s t, step s = .next t → (t.predOut ≠ s.predOut ∨ t.predDist ≠ s.predDist) →
    nextTurn s = .reset ∨
    (nextTurn s = .engine ∧ s.engine.phase = .runPredict ∧
      t.predOut.result = (paeth s.predIn.a s.predIn.b s.predIn.c).value)

/-- R68, over whole steps: the engine never changes PREV, and changes CUR only at a position below LEN while an UNFILTER
runs; the host changes a buffer only while the engine is idle; reset forgets both. -/
def Obligations.BuffersChangeOnlyByTheirOwners : Prop :=
  ∀ s t, s.Inv → step s = .next t →
    (nextTurn s = .engine → t.prev = s.prev) ∧
    (∀ a, nextTurn s = .engine → t.cur.read a ≠ s.cur.read a → s.engine.phase = .runUnfilter ∧ a < s.opLen) ∧
    (nextTurn s = .host → s.busy = true → t.cur = s.cur ∧ t.prev = s.prev)

/-- R95 and R177: while a command runs nothing but reset changes its operands or CMD, and no other command is accepted. -/
def Obligations.RunningCommandKeepsItsOperands : Prop :=
  ∀ s t, s.busy = true → step s = .next t → nextTurn s ≠ .reset →
    t.cmd = s.cmd ∧ t.width = s.width ∧ t.len = s.len ∧ t.prevLen = s.prevLen ∧ t.predIn = s.predIn ∧
    (t.busy = true → t.engine.phase = s.engine.phase ∧ t.engine.path = s.engine.path)

/-! ### Encoding (30_encoding.md) -/

/-- Decode and encode agree on every well-formed command and all its operands, from the four byte lanes of the word (R63)
and whatever follows them; and a path form's word decodes to the command it shares the word with (R97). -/
def Obligations.DecodeOfEncodeIsTheInstruction : Prop :=
  (∀ (i : Instr) (rest : List Byte), i.wellFormed = true →
    decode (byteLane (encode i) 0 :: byteLane (encode i) 1 :: byteLane (encode i) 2 :: byteLane (encode i) 3 :: rest) =
      .ok (i, rest)) ∧
  (∀ i : Instr, decodeTableWord 32 (encode i).toNat = some i.command)

/-- Encode and decode agree on every word: what is lost is exactly the reserved bits (R93). -/
def Obligations.EncodeOfDecodeMasksReservedBits : Prop :=
  ∀ w : Word, (decodeWord w).wellFormed = true ∧ encode (decodeWord w) = w &&& 0x0000010F#32

/-- R96: the decoding of all 2^32 words; a BAD_OP word, accepted while idle, touches no buffer and sets ERR = 1 and
DONE = 1. -/
def Obligations.DecodingIsTotalByOpField : Prop :=
  ∀ w : Word,
    (w.toNat % 16 = 1 → decodeWord w = .predict (w.getLsbD 8)) ∧
    (w.toNat % 16 = 2 → w.getLsbD 8 = false → decodeWord w = .unfilter) ∧
    (w.toNat % 16 = 2 → w.getLsbD 8 = true → decodeWord w = .unfilterG) ∧
    (w.toNat % 16 ≠ 1 → w.toNat % 16 ≠ 2 → ∀ s, s.busy = false →
      ∃ t, exec (decodeWord w) s = .next t ∧ t.cur = s.cur ∧ t.prev = s.prev ∧ errBits t.status.err = 0x1#4 ∧
        t.status.done = true ∧ t.busy = false ∧ t.cmd.op = BitVec.ofNat 4 (w.toNat % 16))

/-- Every word matches the row of spec/opcode_table.json that it decodes to, and no row of another command. -/
def Obligations.DecodingMatchesOneTableRow : Prop :=
  ∀ w : Word,
    w &&& (decodeWord w).rowMask = (decodeWord w).rowMatch ∧
    ∀ i : Instr, i.wellFormed = true → w &&& i.rowMask = i.rowMatch →
      i.rowMask = (decodeWord w).rowMask ∧ i.rowMatch = (decodeWord w).rowMatch

/-- Words written out from R90 and the opcode table decode to what they stand for. -/
def Obligations.SpelledWordsDecode : Prop :=
  decodeWord 0b00000000000000000000000000000001#32 = .predict false ∧
  decodeWord 0b11111111111111111111111111110001#32 = .predict true ∧
  decodeWord 0b00000000000000000000000000000010#32 = .unfilter ∧
  decodeWord 0b00000000000000000000000100000010#32 = .unfilterG ∧
  decodeWord 0b11111111111111111111111011110010#32 = .unfilter ∧
  decodeWord 0b00000000000000000000000000000000#32 = .reserved0 false ∧
  decodeWord 0b00000000000000000000000100000011#32 = .reserved3 true ∧
  decodeWord 0b00000000000000000000000000000110#32 = .reserved4to7 0b10#2 false ∧
  decodeWord 0b00000000000000000000000000001111#32 = .reserved8toF 0b111#3 false

/-- R93: reserved bits of a written word never matter, to the command word or to any register, and read back as 0. -/
def Obligations.ReservedBitsAreIgnoredAndReadZero : Prop :=
  (∀ w : Word, decodeWord w = decodeWord (w &&& 0x0000010F#32)) ∧
  (∀ (r : Reg) (v : Word) (s : State), writeReg r v s = writeReg r (v &&& r.fieldMask) s) ∧
  (∀ (r : Reg) (s : State), s.readReg r &&& ~~~r.fieldMask = 0x00000000#32)

/-! ### Steps and turns -/

/-- The host's turn on a `WR32 CMD` line runs exactly the command its word decodes to (R96, R98), after the line and the
turn are taken and the normal response is given. The second clause is about the MODEL'S OWN device for placing a command,
`withFetchWord` (log entry 5): it puts such a line where the very next step performs it. -/
def Obligations.StepRunsTheWrittenCommand : Prop :=
  (∀ (s : State) (w : Word) (rest : List HostOp),
    nextTurn s = .host → s.host.program = .txn (.wr32 0x04 w) :: rest →
      step s = exec (decodeWord w) (((takeTurn s).setProgram rest).respond .written)) ∧
  (∀ (s : State) (i : Instr), i.wellFormed = true →
    step (s.withFetchWord 32 (encode i).toNat) = exec i (s.respond .written))

/-- R20 and R185: the engine's turn takes no step while idle; while UNFILTER runs it is the latched path's form; while
PREDICT runs it is the finish step of R119. (That an idle engine can be given a turn, which then passes, is the model's
way of listing turns, log entry 4.) -/
def Obligations.EngineTurnRunsTheLatchedForm : Prop :=
  ∀ s, nextTurn s = .engine →
    (s.engine.phase = .idle → step s = .next (takeTurn s)) ∧
    (s.engine.phase = .runUnfilter → step s = exec (s.engine.path.instr s.cmd.fg) (takeTurn s)) ∧
    (s.engine.phase = .runPredict →
      step s = .next (((takeTurn s).storePrediction (paeth s.predIn.a s.predIn.b s.predIn.c)).finish))

/-- The other lines of a host program (R99, R100): one transaction; a `POLL` line of any offset, a register's first, reads
once and stays until the value read matches; `WR8 off, t` writes what was read last, as `COPYROW` needs. The MODEL'S CHOICES
in it: that an ended program's turn passes (log entry 4), that each repetition's response is kept (log entry 13), and, of
`t`, that writes in between do not change it, that a read of 32 bits is cut to its low byte and that it is some byte where
nothing has been read (log entry 7). -/
def Obligations.HostTurnPerformsOneLine : Prop :=
  ∀ s, nextTurn s = .host →
    (s.host.program = [] → step s = .next (takeTurn s)) ∧
    (∀ t rest, s.host.program = .txn t :: rest → step s = transact t ((takeTurn s).setProgram rest)) ∧
    (∀ (r : Reg) mask val rest, s.host.program = .poll r.offset mask val :: rest →
      (s.readReg r &&& mask = val →
        step s = .next (((takeTurn s).respond (.word (s.readReg r))).setProgram rest)) ∧
      (s.readReg r &&& mask ≠ val → step s = .next ((takeTurn s).respond (.word (s.readReg r))))) ∧
    (∀ off mask val rest, s.host.program = .poll off mask val :: rest →
      (∀ u, transact (.rd32 off) (takeTurn s) = .next u →
        ∃ r d, u.host.responses = r :: s.host.responses ∧ r.readData = some d ∧
          (d &&& mask = val → step s = .next (u.setProgram rest)) ∧ (d &&& mask ≠ val → step s = .next u)) ∧
      (∀ f, transact (.rd32 off) (takeTurn s) = .fault f → step s = .fault f)) ∧
    (∀ off v rest resp, s.host.program = .wr8Last off :: rest → s.host.responses = .byte v :: resp →
      step s = transact (.wr8 off v) ((takeTurn s).setProgram rest)) ∧
    (∀ off rest newer r d older, s.host.program = .wr8Last off :: rest → s.host.responses = newer ++ r :: older →
      (∀ x ∈ newer, x.readData = none) → r.readData = some d →
      step s = transact (.wr8 off (BitVec.ofNat 8 d.toNat)) ((takeTurn s).setProgram rest)) ∧
    (∀ off rest, s.host.program = .wr8Last off :: rest → (∀ x ∈ s.host.responses, x.readData = none) →
      ∃ v, step s = transact (.wr8 off v) ((takeTurn s).setProgram rest))

/-! ### The predictor (40_predictor.md §1) -/

/-- R113: the selection and its tie-break, with the distances of R112 over the integers. -/
def Obligations.PredictorSelectsByTieBreak : Prop :=
  ∀ a b c : Byte, ∃ pa pb pc : Nat,
    (pa : Int) = |(b.toNat : Int) - c.toNat| ∧
    (pb : Int) = |(a.toNat : Int) - c.toNat| ∧
    (pc : Int) = |((a.toNat : Int) - c.toNat) + ((b.toNat : Int) - c.toNat)| ∧
    (paeth a b c).pa = pa ∧ (paeth a b c).pb = pb ∧ (paeth a b c).pc = pc ∧
    (pa ≤ pb ∧ pa ≤ pc → (paeth a b c).value = a ∧ (paeth a b c).sel = .left) ∧
    (¬(pa ≤ pb ∧ pa ≤ pc) → pb ≤ pc → (paeth a b c).value = b ∧ (paeth a b c).sel = .above) ∧
    (¬(pa ≤ pb ∧ pa ≤ pc) → ¬pb ≤ pc → (paeth a b c).value = c ∧ (paeth a b c).sel = .aboveLeft)

/-- R115, items 1–4 and the two ties of item 5: the predictor returns one of its inputs, the one SEL names; equal inputs
give (a, LEFT); a left/above tie that wins forces a = b; above beats aboveLeft and left beats aboveLeft. -/
def Obligations.PredictorReturnsANeighbour : Prop :=
  ∀ a b c : Byte,
    ((paeth a b c).value = a ∨ (paeth a b c).value = b ∨ (paeth a b c).value = c) ∧
    ((paeth a b c).sel = .left → (paeth a b c).value = a) ∧
    ((paeth a b c).sel = .above → (paeth a b c).value = b) ∧
    ((paeth a b c).sel = .aboveLeft → (paeth a b c).value = c) ∧
    (a = b → b = c → paeth a b c = { value := a, sel := .left, pa := 0, pb := 0, pc := 0 }) ∧
    ((paeth a b c).pa = (paeth a b c).pb → (paeth a b c).pb ≤ (paeth a b c).pc → a = b ∧ (paeth a b c).sel = .left) ∧
    ((paeth a b c).pb = (paeth a b c).pc → (paeth a b c).pc < (paeth a b c).pa → (paeth a b c).sel = .above) ∧
    ((paeth a b c).pa = (paeth a b c).pc → (paeth a b c).pc < (paeth a b c).pb → (paeth a b c).sel = .left)

/-- R116: every two's-complement datapath of at least 10 bits computes the predictor exactly, with either absolute value
that R111 allows. -/
def Obligations.DatapathWidthIsUnobservable : Prop :=
  ∀ n : Nat, Config.minArithBits ≤ n → ∀ a b c : Byte,
    paethAtWidth n (absBranch n) a b c = paeth a b c ∧ paethAtWidth n (absBitTrick n) a b c = paeth a b c

/-! ### PREDICT (40_predictor.md §2) -/

/-- PREDICT completes: a written PREDICT word is accepted in every idle state, with the acceptance effects of R118 and no
other, and the engine's next turn stores the prediction of PRED_IN and ends the command. -/
def Obligations.PredictIsAcceptedAndCompletes : Prop :=
  ∀ (fg : Bool) (s : State), s.busy = false →
    ∃ t u, exec (.predict fg) s = .next t ∧
      t = { s with
            cmd := { op := 0x1#4, fg := fg }
            status := { s.status with done := false, err := none, path := none }
            engine := { s.engine with phase := .runPredict } } ∧
      t.busy = true ∧
      engineTurn t = .next u ∧
      u = { s with
            cmd := { op := 0x1#4, fg := fg }
            status := { done := true, ovr := s.status.ovr, err := none, path := none }
            engine := { s.engine with phase := .idle }
            predOut :=
              { result := (paeth s.predIn.a s.predIn.b s.predIn.c).value
                sel := (paeth s.predIn.a s.predIn.b s.predIn.c).sel }
            predDist :=
              { pa := BitVec.ofNat 9 (paeth s.predIn.a s.predIn.b s.predIn.c).pa
                pb := BitVec.ofNat 9 (paeth s.predIn.a s.predIn.b s.predIn.c).pb
                pc := BitVec.ofNat 9 (paeth s.predIn.a s.predIn.b s.predIn.c).pc } } ∧
      u.busy = false

/-- R119: PREDICT's finish step, from every state in which it is due; until then no step but reset changes PRED_IN. -/
def Obligations.PredictFinishStoresThePrediction : Prop :=
  ∀ s, s.engine.phase = .runPredict →
    ∃ t, engineTurn s = .next t ∧
      t.predOut.result = (paeth s.predIn.a s.predIn.b s.predIn.c).value ∧
      t.predOut.sel = (paeth s.predIn.a s.predIn.b s.predIn.c).sel ∧
      t.predDist.pa.toNat = (paeth s.predIn.a s.predIn.b s.predIn.c).pa ∧
      t.predDist.pb.toNat = (paeth s.predIn.a s.predIn.b s.predIn.c).pb ∧
      t.predDist.pc.toNat = (paeth s.predIn.a s.predIn.b s.predIn.c).pc ∧
      t.engine = { s.engine with phase := .idle } ∧ t.busy = false ∧
      t.status = { s.status with done := true } ∧
      t.cur = s.cur ∧ t.prev = s.prev ∧ t.cmd = s.cmd ∧ t.predIn = s.predIn ∧ t.width = s.width ∧ t.len = s.len ∧
      t.prevLen = s.prevLen ∧ t.intEn = s.intEn ∧ t.params = s.params ∧ t.host = s.host ∧
      (∀ u, nextTurn s ≠ .reset → step s = .next u → u.predIn = s.predIn)

/-! ### Acceptance and rejection (60_exceptions.md §2, 41_unfilter.md §2 and §4) -/

/-- R134: the selector; an accepted UNFILTER (FG = 0) or UNFILTER.G (FG = 1) latches the path it selects, and STATUS.PATH
records it with its code. -/
def Obligations.SelectorDispatchesByWidthAndLength : Prop :=
  ∀ (fast fg : Bool) (w l : Nat),
    (fg = true ∨ fast = false → selectPath fast fg w l = .gen) ∧
    (fg = false → fast = true →
      (w = 1 → selectPath fast fg w l = .w1) ∧
      (w = 3 → l % 3 = 0 → selectPath fast fg w l = .w3) ∧
      (w = 4 → l % 4 = 0 → selectPath fast fg w l = .w4) ∧
      (w ≠ 1 → ¬(w = 3 ∧ l % 3 = 0) → ¬(w = 4 ∧ l % 4 = 0) → selectPath fast fg w l = .gen)) ∧
    pathBits (some .w1) = 1#3 ∧ pathBits (some .w3) = 2#3 ∧ pathBits (some .w4) = 3#3 ∧ pathBits (some .gen) = 4#3 ∧
    (∀ s : State, s.unfilterReady →
      ∃ t, exec (if fg then .unfilterG else .unfilter) s = .next t ∧
        t.engine.path = selectPath s.params.hasFastpaths fg s.opWidth s.opLen ∧ t.status.path = some t.engine.path ∧
        (t.readReg .status).extractLsb' 8 3 = pathBits (some t.engine.path))

/-- R142 and R143, acceptance: UNFILTER and UNFILTER.G start in every idle state whose registers pass the checks, with the
path of R134 latched and reported, the sequencer and the pairs zeroed, and nothing else changed. -/
def Obligations.UnfilterIsAcceptedAndStarts : Prop :=
  ∀ s : State, s.unfilterReady →
    exec .unfilter s = .next (s.afterUnfilter false) ∧
    exec .unfilterG s = .next (s.afterUnfilter true) ∧
    (s.afterUnfilter false).busy = true ∧ (s.afterUnfilter true).busy = true ∧
    (s.afterUnfilter true).status.path = some .gen

/-- R171–R173 for UNFILTER and UNFILTER.G: the first failing check in the order BAD_WIDTH, LEN_RANGE, LEN_MISMATCH gives
the one code reported; CMD, ERR, PATH and DONE change and nothing else does. -/
def Obligations.UnfilterIsRejectedByPriority : Prop :=
  ∀ (s : State) (code : ErrCode), s.busy = false →
    (s.opWidth = 0 ∧ code = .badWidth ∨
      s.opWidth ≠ 0 ∧ (s.opLen > s.params.lmax ∨ s.opPrevLen > s.params.lmax) ∧ code = .lenRange ∨
      s.opWidth ≠ 0 ∧ s.opLen ≤ s.params.lmax ∧ s.opPrevLen ≤ s.params.lmax ∧ s.opLen ≠ s.opPrevLen ∧
        code = .lenMismatch) →
    exec .unfilter s = .next { s with
      cmd := { op := 0x2#4, fg := false }
      status := { done := true, ovr := s.status.ovr, err := some code, path := none } } ∧
    exec .unfilterG s = .next { s with
      cmd := { op := 0x2#4, fg := true }
      status := { done := true, ovr := s.status.ovr, err := some code, path := none } }

/-- R91, R170 and R171 for the reserved OP values: the command ends within its acceptance with BAD_OP and DONE; CMD keeps
the bad OP and FG for read-back; nothing else changes. -/
def Obligations.ReservedOpsAreRejected : Prop :=
  ∀ (s : State) (fg : Bool), s.busy = false →
    let rejected (op : BitVec 4) : State := { s with
      cmd := { op := op, fg := fg }
      status := { done := true, ovr := s.status.ovr, err := some .badOp, path := none } }
    exec (.reserved0 fg) s = .next (rejected 0x0#4) ∧
    exec (.reserved3 fg) s = .next (rejected 0x3#4) ∧
    (∀ op : BitVec 2, exec (.reserved4to7 op fg) s = .next (rejected (BitVec.ofNat 4 (4 + op.toNat)))) ∧
    (∀ op : BitVec 3, exec (.reserved8toF op fg) s = .next (rejected (BitVec.ofNat 4 (8 + op.toNat))))

/-- R23 and R177: a command word written while BUSY, whatever it is, is dropped and sets OVR; the running command goes
on. -/
def Obligations.CommandWhileBusyIsDropped : Prop :=
  ∀ (i : Instr) (s : State), i.wellFormed = true → s.busy = true →
    exec i s = .next { s with status := { s.status with ovr := true } }

/-- The frame of the seven commands: only CMD (to the word's OP and FG), STATUS and the engine's own state may change; OVR
only while busy; every byte of both buffers reads as before. -/
def Obligations.CommandsFrame : Prop :=
  ∀ (i : Instr) (s t : State), i.wellFormed = true → exec i s = .next t →
    t.params = s.params ∧ t.intEn = s.intEn ∧ t.width = s.width ∧ t.len = s.len ∧ t.prevLen = s.prevLen ∧
    t.predIn = s.predIn ∧ t.predOut = s.predOut ∧ t.predDist = s.predDist ∧ t.host = s.host ∧
    (∀ a, t.cur.read a = s.cur.read a ∧ t.prev.read a = s.prev.read a) ∧
    (s.busy = true → t.cmd = s.cmd ∧ t.engine = s.engine) ∧
    (s.busy = false → t.cmd = { op := i.op, fg := i.fg } ∧ t.status.ovr = s.status.ovr) ∧
    (t.busy = false → t.engine = s.engine)

/-! ### Engine steps (41_unfilter.md §3) -/

/-- R140: the element step, in full. -/
def Obligations.ElementReconstructsOneByte : Prop :=
  ∀ (j : Nat) (k : Fin 4) (s : State),
    (s.prev.read j = none → element j k s = .error (.uninit .prev j)) ∧
    (∀ b, s.prev.read j = some b → s.cur.read j = none → element j k s = .error (.uninit .cur j)) ∧
    (∀ b f, s.prev.read j = some b → s.cur.read j = some f →
      ∃ t, element j k s = .ok t ∧
        t.cur.read j = some (BitVec.ofNat 8
          (((paeth s.engine.pairA[k] b s.engine.pairC[k]).value.toNat + f.toNat) % 256)) ∧
        t.engine.pairC[k] = b ∧
        some t.engine.pairA[k] = t.cur.read j ∧
        (∀ k', k' ≠ k → t.engine.pairA[k'] = s.engine.pairA[k'] ∧ t.engine.pairC[k'] = s.engine.pairC[k']) ∧
        (∀ a, a ≠ j → t.cur.read a = s.cur.read a) ∧
        t.prev = s.prev ∧ t.status = s.status ∧ t.predOut = s.predOut ∧ t.predDist = s.predDist ∧
        t.engine.phase = s.engine.phase ∧ t.engine.path = s.engine.path)

/-- R137–R139: while its path runs and the row is not at its end, each pixel-serial form reconstructs position j with the
pair `j mod w` and moves to j + 1. -/
def Obligations.SerialPathsStepThroughTheRow : Prop :=
  ∀ (s : State) (b f : Byte), s.engine.phase = .runUnfilter → s.engine.j < s.opLen →
    s.prev.read s.engine.j = some b → s.cur.read s.engine.j = some f →
    let stepped (k : Fin 4) : State := { s with
      cur := s.cur.write s.engine.j ((paeth s.engine.pairA[k] b s.engine.pairC[k]).value + f)
      engine := { s.engine with
        j := s.engine.j + 1
        pairA := s.engine.pairA.set k ((paeth s.engine.pairA[k] b s.engine.pairC[k]).value + f)
        pairC := s.engine.pairC.set k b } }
    (s.engine.path = .w1 → exec .unfilterW1 s = .next (stepped 0)) ∧
    (s.engine.path = .w3 → ∀ k : Fin 4, k.val = s.engine.j % 3 → exec .unfilterW3 s = .next (stepped k)) ∧
    (s.engine.path = .w4 → ∀ k : Fin 4, k.val = s.engine.j % 4 → exec .unfilterW4 s = .next (stepped k))

/-- R136: while GEN runs and a channel is left, its form reconstructs position j with pair 0 and moves w along the channel,
or to the start of the next channel with pair 0 zeroed. -/
def Obligations.GenericPathStepsThroughChannels : Prop :=
  ∀ (s : State) (fg : Bool) (b f : Byte), s.engine.phase = .runUnfilter → s.engine.path = .gen →
    s.engine.i < min s.opWidth s.opLen → s.prev.read s.engine.j = some b → s.cur.read s.engine.j = some f →
    let x : Byte := (paeth s.engine.pairA[0] b s.engine.pairC[0]).value + f
    (s.engine.j + s.opWidth < s.opLen →
      exec (.unfilterGen fg) s = .next { s with
        cur := s.cur.write s.engine.j x
        engine := { s.engine with
          j := s.engine.j + s.opWidth
          pairA := s.engine.pairA.set 0 x
          pairC := s.engine.pairC.set 0 b } }) ∧
    (s.opLen ≤ s.engine.j + s.opWidth →
      exec (.unfilterGen fg) s = .next { s with
        cur := s.cur.write s.engine.j x
        engine := { s.engine with
          i := s.engine.i + 1
          j := s.engine.i + 1
          pairA := s.engine.pairA.set 0 0x00#8
          pairC := s.engine.pairC.set 0 0x00#8 } })

/-- R136–R139, R142 and R174: when its path's positions are all done, each path form is the finish step. -/
def Obligations.PathsFinishAtTheEndOfTheRow : Prop :=
  ∀ s : State, s.engine.phase = .runUnfilter →
    let finished : State := { s with
      engine := { s.engine with phase := .idle }
      status := { s.status with done := true } }
    (s.engine.path = .w1 → s.opLen ≤ s.engine.j → exec .unfilterW1 s = .next finished) ∧
    (s.engine.path = .w3 → s.opLen ≤ s.engine.j → exec .unfilterW3 s = .next finished) ∧
    (s.engine.path = .w4 → s.opLen ≤ s.engine.j → exec .unfilterW4 s = .next finished) ∧
    (s.engine.path = .gen → min s.opWidth s.opLen ≤ s.engine.i →
      ∀ fg, exec (.unfilterGen fg) s = .next finished)

/-- R179, UNINIT in an element step: each path form stops with the fault that names the ⊥ byte, PREV before CUR. -/
def Obligations.PathsFaultOnUnwrittenBytes : Prop :=
  ∀ (s : State) (p : FilterPath) (fg : Bool) (j : Nat), s.running p = true → nextPosition p s = some j →
    (s.prev.read j = none → exec (p.instr fg) s = .fault (.uninit .prev j)) ∧
    ((s.prev.read j).isSome = true → s.cur.read j = none → exec (p.instr fg) s = .fault (.uninit .cur j))

/-- The frame of the four path forms: no register, no byte of PREV and no other part changes but STATUS.DONE and the
engine's own state; every byte of CUR outside the position `nextPosition` gives reads as before, and all of CUR when it
gives none; pairs the path does not use keep their value (R35). Where the engine does not run the path nothing changes at
all (the model's reading of R20 and R142; log entry 2). -/
def Obligations.PathFormsFrame : Prop :=
  ∀ (s t : State) (p : FilterPath) (fg : Bool), exec (p.instr fg) s = .next t →
    t.params = s.params ∧ t.cmd = s.cmd ∧ t.intEn = s.intEn ∧ t.width = s.width ∧ t.len = s.len ∧
    t.prevLen = s.prevLen ∧ t.predIn = s.predIn ∧ t.predOut = s.predOut ∧ t.predDist = s.predDist ∧ t.host = s.host ∧
    t.status.ovr = s.status.ovr ∧ t.status.err = s.status.err ∧ t.status.path = s.status.path ∧
    t.engine.path = s.engine.path ∧
    (t.status.done ≠ s.status.done → t.busy = false) ∧
    (∀ a, t.prev.read a = s.prev.read a) ∧
    (∀ j, nextPosition p s = some j → ∀ a, a ≠ j → t.cur.read a = s.cur.read a) ∧
    (nextPosition p s = none → ∀ a, t.cur.read a = s.cur.read a) ∧
    (s.running p = false → t = s) ∧
    (∀ k : Fin 4, (∀ j, pairOf p j ≠ k) → t.engine.pairA[k] = s.engine.pairA[k] ∧ t.engine.pairC[k] = s.engine.pairC[k])

/-! ### The row transform (41_unfilter.md §1, §3, §5) -/

/-- R131, R141, R142, R143: from every accepted UNFILTER or UNFILTER.G whose row is written, on whichever path R134
selects, the engine ends the command after L element steps and one finish step with CUR[j] = Rc[j] for every j < L, Rc being
any function that satisfies R131's recurrence; every other byte and register is unchanged. The L + 1 turns are given to the
engine one by one, so the order past a schedule's end (log entry 4) is not used; `ResultIsTheSameUnderEveryInterleaving` has
every other list of turns. -/
def Obligations.UnfilterComputesTheRecurrence : Prop :=
  ∀ (s : State) (fg : Bool) (Rc : Nat → Byte), s.unfilterReady → s.rowsWritten →
    RowRecurrence s.opWidth s.opLen (rowOf s.cur) (rowOf s.prev) Rc →
    ∃ u, runSteps (s.opLen + 1) ((s.afterUnfilter fg).engineTurns (s.opLen + 1)) = .next u ∧
      (∀ j, j < s.opLen → u.cur.read j = some (Rc j)) ∧
      (∀ j, s.opLen ≤ j → u.cur.read j = s.cur.read j) ∧
      u.prev = s.prev ∧ u.busy = false ∧
      u.status = { done := true, ovr := s.status.ovr, err := none,
                   path := some (selectPath s.params.hasFastpaths fg s.opWidth s.opLen) } ∧
      u.cmd = { op := 0x2#4, fg := fg } ∧ u.params = s.params ∧ u.intEn = s.intEn ∧ u.width = s.width ∧
      u.len = s.len ∧ u.prevLen = s.prevLen ∧ u.predIn = s.predIn ∧ u.predOut = s.predOut ∧ u.predDist = s.predDist ∧
      u.host = { s.host with schedule := [] }

/-- R132, R136–R139, R210: an accepted UNFILTER takes exactly L element steps, each visiting a position below L that no other
visits (the pixel-serial paths in ascending order, the generic path channel after channel in strides of w), and then one
finish step; the engine is busy until that. (The turns are the engine's, one by one; log entry 4.) -/
def Obligations.EachPositionIsVisitedOnce : Prop :=
  ∀ (s : State) (fg : Bool), s.unfilterReady → s.rowsWritten →
    ∃ visit : Nat → Nat,
      (∀ n, n < s.opLen → visit n < s.opLen ∧
        ∃ u, runSteps n ((s.afterUnfilter fg).engineTurns (s.opLen + 1)) = .next u ∧ u.busy = true ∧ u.status.done = false ∧
          u.engine.path = (s.afterUnfilter fg).engine.path ∧ nextPosition u.engine.path u = some (visit n)) ∧
      (∀ m n, m < s.opLen → n < s.opLen → visit m = visit n → m = n) ∧
      ((s.afterUnfilter fg).engine.path ≠ .gen → ∀ n, n < s.opLen → visit n = n) ∧
      ((s.afterUnfilter fg).engine.path = .gen → ∀ n, n + 1 < s.opLen →
        visit n % s.opWidth < visit (n + 1) % s.opWidth ∨ visit (n + 1) = visit n + s.opWidth) ∧
      (∃ u, runSteps s.opLen ((s.afterUnfilter fg).engineTurns (s.opLen + 1)) = .next u ∧ u.busy = true ∧
        nextPosition u.engine.path u = none) ∧
      (∃ u, runSteps (s.opLen + 1) ((s.afterUnfilter fg).engineTurns (s.opLen + 1)) = .next u ∧ u.busy = false ∧
        u.status.done = true)

/-- R141 as the differential test of R92 and R143: the path R134 selects and the forced generic path leave the same bytes
in CUR; only CMD.FG, STATUS.PATH and the engine's hidden state may differ. (The turns are the engine's, one by one; the order
past a schedule's end, log entry 4, is not used.) -/
def Obligations.AllPathsLeaveTheSameRow : Prop :=
  ∀ s : State, s.unfilterReady → s.rowsWritten →
    ∃ u v, runSteps (s.opLen + 1) ((s.afterUnfilter false).engineTurns (s.opLen + 1)) = .next u ∧
      runSteps (s.opLen + 1) ((s.afterUnfilter true).engineTurns (s.opLen + 1)) = .next v ∧
      (∀ a, u.cur.read a = v.cur.read a) ∧ u.prev = v.prev ∧
      v = { u with cmd := v.cmd, status := { u.status with path := some .gen }, engine := v.engine, cur := v.cur }

/-- R207, R66 and D17: whatever the host does while the command runs, in whatever order the turns fall (no reset), the
result is the same: with the L + 1 engine turns taken, the last turn being the engine's, CUR holds Rc. (The list of turns is
the model's form of R69's interleaving, log entry 4; every list is covered.) -/
def Obligations.ResultIsTheSameUnderEveryInterleaving : Prop :=
  ∀ (s : State) (fg : Bool) (Rc : Nat → Byte) (program : List HostOp) (turns : List Turn),
    s.unfilterReady → s.rowsWritten →
    RowRecurrence s.opWidth s.opLen (rowOf s.cur) (rowOf s.prev) Rc →
    Turn.reset ∉ turns → turns.count .engine = s.opLen →
    ∃ u, runSteps (turns.length + 1)
        (((s.afterUnfilter fg).setProgram program).setSchedule (turns ++ [.engine])) = .next u ∧
      (∀ j, j < s.opLen → u.cur.read j = some (Rc j)) ∧
      (∀ j, s.opLen ≤ j → u.cur.read j = s.cur.read j) ∧
      u.prev = s.prev ∧ u.busy = false ∧ u.status.done = true ∧ u.status.err = none ∧
      u.status.path = some (selectPath s.params.hasFastpaths fg s.opWidth s.opLen)

/-- `rowResult`, channel by channel, satisfies R131's recurrence; and nothing else does. -/
def Obligations.RowResultIsTheRecurrence : Prop :=
  ∀ (w l : Nat) (F P R : Nat → Byte), 0 < w →
    (RowRecurrence w l F P R ↔ ∀ j, j < l → R j = rowResult w F P j)

/-- R144: Rc[j] depends only on F and P at the positions of j's own channel up to j. -/
def Obligations.ChannelsAreIndependent : Prop :=
  ∀ (w : Nat) (F F' P P' : Nat → Byte) (j : Nat), 0 < w →
    (∀ m, m ≤ j → m % w = j % w → F m = F' m ∧ P m = P' m) → rowResult w F P j = rowResult w F' P' j

/-- R147, on the block: after an UNFILTER of the forward-filtered row, CUR holds the original row, for every O, P and w. -/
def Obligations.UnfilterInvertsTheForwardFilter : Prop :=
  ∀ (s : State) (fg : Bool) (O P : Nat → Byte), s.unfilterReady →
    (∀ j, j < s.opLen → s.cur.read j = some (forwardFilter s.opWidth O P j) ∧ s.prev.read j = some (P j)) →
    ∃ u, runSteps (s.opLen + 1) ((s.afterUnfilter fg).engineTurns (s.opLen + 1)) = .next u ∧ u.busy = false ∧
      ∀ j, j < s.opLen → u.cur.read j = some (O j)

/-- R205: with a zero previous row the predictor returns left, so the row is a running sum mod 256 along each channel. -/
def Obligations.FirstRowIsARunningSum : Prop :=
  (∀ a : Byte, (paeth a 0x00#8 0x00#8).value = a ∧ (paeth a 0x00#8 0x00#8).sel = .left) ∧
  (∀ (w : Nat) (F : Nat → Byte) (j : Nat), 0 < w →
    rowResult w F (fun _ => 0x00#8) j =
      (if w ≤ j then rowResult w F (fun _ => 0x00#8) (j - w) else 0x00#8) + F j)

/-! ### Host transactions (20_memory.md, 70_reset_and_hazards.md §3) -/

/-- R65, with every combination R62 forbids spelled out, over the offsets of the device space (R60): the host gets an error
response, a read's data is 0, and nothing else changes, busy or not. -/
def Obligations.BusErrorsChangeNothing : Prop :=
  ∀ (s : State) (off : Nat) (v : Word) (x : Byte) (write : Bool), s.params.valid →
    off < 4 * s.params.lmax →
    (off < 0x100 ∨ unmapped s.params off →
      transact (.rd8 off) s = .next (s.respond .readError) ∧ transact (.wr8 off x) s = .next (s.respond .writeError)) ∧
    (off % 4 ≠ 0 ∨ unmapped s.params off →
      transact (.rd32 off) s = .next (s.respond .readError) ∧ transact (.wr32 off v) s = .next (s.respond .writeError)) ∧
    transact (.otherSize off write) s = .next (s.respond (if write then .writeError else .readError)) ∧
    BusResponse.readData .readError = some 0x00000000#32

/-- R64, bytes: while idle, `RD8` of a window returns the byte and `WR8` stores it there, and nothing else changes. -/
def Obligations.WindowBytesReadAndWrite : Prop :=
  ∀ (s : State) (b : Buffer) (pos : Nat) (v : Byte), s.params.valid → s.busy = false → pos < s.params.lmax →
    ((s.buffer b).read pos = some v →
      transact (.rd8 (windowOffset s.params b pos)) s = .next (s.respond (.byte v))) ∧
    (∃ t, transact (.wr8 (windowOffset s.params b pos) v) s = .next t ∧
      (t.buffer b).read pos = some v ∧
      (∀ a, a ≠ pos → (t.buffer b).read a = (s.buffer b).read a) ∧
      t = (s.setBuffer b (t.buffer b)).respond .written)

/-- R63 and R64, words: while idle, a 32-bit window access at a multiple of 4 moves the bytes at o…o+3, the byte at o in
data bits 7:0. -/
def Obligations.WindowWordsAreLittleEndian : Prop :=
  ∀ (s : State) (b : Buffer) (pos : Nat) (v : Word), s.params.valid → s.busy = false → pos < s.params.lmax →
    pos % 4 = 0 →
    (∀ b0 b1 b2 b3 : Byte, (s.buffer b).read pos = some b0 → (s.buffer b).read (pos + 1) = some b1 →
      (s.buffer b).read (pos + 2) = some b2 → (s.buffer b).read (pos + 3) = some b3 →
      transact (.rd32 (windowOffset s.params b pos)) s = .next (s.respond (.word (b3 ++ b2 ++ b1 ++ b0)))) ∧
    (∃ t, transact (.wr32 (windowOffset s.params b pos) v) s = .next t ∧
      (∀ n, n < 4 → (t.buffer b).read (pos + n) = some (BitVec.ofNat 8 (v.toNat / 2 ^ (8 * n)))) ∧
      (∀ a, a < pos ∨ pos + 4 ≤ a → (t.buffer b).read a = (s.buffer b).read a) ∧
      t = (s.setBuffer b (t.buffer b)).respond .written)

/-- R33, R63 and R179: while idle, a window read of a byte nothing has written since reset stops with UNINIT. -/
def Obligations.UnwrittenWindowReadsFault : Prop :=
  ∀ (s : State) (b : Buffer) (pos : Nat), s.params.valid → s.busy = false → pos < s.params.lmax →
    ((s.buffer b).read pos = none →
      transact (.rd8 (windowOffset s.params b pos)) s = .fault (.uninit b pos)) ∧
    (pos % 4 = 0 → (∃ n, n < 4 ∧ (s.buffer b).read (pos + n) = none) →
      ∃ n, n < 4 ∧ (s.buffer b).read (pos + n) = none ∧
        transact (.rd32 (windowOffset s.params b pos)) s = .fault (.uninit b (pos + n)))

/-- R207: the hazard accesses while BUSY and their effect (writes dropped, reads 0, OVR set, a normal response); the
accesses that are never hazards, which behave the same busy or not; and the accesses of the device space that R62 forbids,
which are bus errors and no hazards even while busy. -/
def Obligations.HazardAccessesAreDropped : Prop :=
  ∀ (s : State) (v : Word), s.params.valid →
    (s.busy = true →
      (∀ r, r ∈ [Reg.cmd, .width, .len, .prevLen, .predIn] →
        transact (.wr32 r.offset v) s = .next ((s.respond .written).overrun)) ∧
      (∀ (b : Buffer) (pos : Nat) (x : Byte), pos < s.params.lmax →
        transact (.rd8 (windowOffset s.params b pos)) s = .next ((s.respond (.byte 0x00#8)).overrun) ∧
        transact (.wr8 (windowOffset s.params b pos) x) s = .next ((s.respond .written).overrun) ∧
        (pos % 4 = 0 →
          transact (.rd32 (windowOffset s.params b pos)) s = .next ((s.respond (.word 0x00000000#32)).overrun) ∧
          transact (.wr32 (windowOffset s.params b pos) v) s = .next ((s.respond .written).overrun)))) ∧
    (∀ r, transact (.rd32 r.offset) s = .next (s.respond (.word (s.readReg r)))) ∧
    (∀ r, r ∈ [Reg.cap, .predOut, .predDist] → transact (.wr32 r.offset v) s = .next (s.respond .written)) ∧
    transact (.wr32 0x08 v) s = .next ((s.setStatus { s.status with
      done := s.status.done && !v.getLsbD 1
      ovr := s.status.ovr && !v.getLsbD 2 }).respond .written) ∧
    transact (.wr32 0x0C v) s = .next ((s.setIntEn (v.getLsbD 0)).respond .written) ∧
    (∀ t : Txn, t.offset < 4 * s.params.lmax → t.allowed s.params = false →
      transact t s = .next (s.respond (if t.isWrite then .writeError else .readError)))

/-- R26–R29: while idle a write to a configuration register stores its fields, which read back with the reserved bits 0;
nothing else changes. -/
def Obligations.ConfigurationWritesReadBack : Prop :=
  ∀ (s : State) (v : Word), s.busy = false →
    transact (.wr32 0x10 v) s = .next ({ s with width := BitVec.ofNat 16 v.toNat }.respond .written) ∧
    transact (.wr32 0x14 v) s = .next ({ s with len := v }.respond .written) ∧
    transact (.wr32 0x18 v) s = .next ({ s with prevLen := v }.respond .written) ∧
    transact (.wr32 0x1C v) s = .next ({ s with
      predIn := { a := BitVec.ofNat 8 v.toNat, b := BitVec.ofNat 8 (v.toNat / 256),
                  c := BitVec.ofNat 8 (v.toNat / 65536) } }.respond .written) ∧
    (∀ r, r ∈ [Reg.width, .len, .prevLen, .predIn] → ∀ t, transact (.wr32 r.offset v) s = .next t →
      t.readReg r = v &&& r.fieldMask)

/-- R24 and R176: a write to STATUS, at any time, clears DONE if bit 1 is 1 and OVR if bit 2 is 1; every other bit of the
word is ignored and nothing else changes. -/
def Obligations.StatusWritesClearDoneAndOverrun : Prop :=
  ∀ (s : State) (v : Word),
    transact (.wr32 0x08 v) s = .next ({ s with
      status := { s.status with
        done := if v.toNat / 2 % 2 = 1 then false else s.status.done
        ovr := if v.toNat / 4 % 2 = 1 then false else s.status.ovr } }.respond .written)

/-- R32, R175 and R176: `irq` is INT_EN AND DONE, 0 after reset; a command that ends with INT_EN set asserts it, in success or
in error; clearing INT_EN drops it and leaves DONE. -/
def Obligations.InterruptFollowsDoneAndEnable : Prop :=
  (∀ s : State, s.irq = true ↔ s.intEn = true ∧ s.status.done = true) ∧
  (∀ (p : Params) (h : HostSide), (State.resetWith p h).irq = false) ∧
  (∀ s t, step s = .next t → s.busy = true → t.busy = false → nextTurn s = .engine → t.irq = s.intEn) ∧
  (∀ (s : State) (code : ErrCode), (s.raiseError code).irq = s.intEn) ∧
  (∀ (s : State) (v : Word), v.getLsbD 0 = false →
    ∃ t, transact (.wr32 0x0C v) s = .next t ∧ t.irq = false ∧ t.status.done = s.status.done) ∧
  (∀ (s : State) (v : Word), v.getLsbD 1 = true →
    ∃ t, transact (.wr32 0x08 v) s = .next t ∧ t.irq = false ∧ t.intEn = s.intEn)

/-- The fields of every register stand where 10_state.md's tables put them. -/
def Obligations.RegisterFieldsStandInTheirBits : Prop :=
  ∀ s : State, s.params.valid →
    (s.readReg .cap).toNat = 2 ^ 24 + s.params.k * 2 ^ 8 + s.params.hasFastpaths.toNat ∧
    (s.readReg .cmd).toNat = s.cmd.fg.toNat * 2 ^ 8 + s.cmd.op.toNat ∧
    (s.readReg .status).toNat =
      (pathBits s.status.path).toNat * 2 ^ 8 + (errBits s.status.err).toNat * 2 ^ 4 + s.status.ovr.toNat * 2 ^ 2 +
        s.status.done.toNat * 2 + s.busy.toNat ∧
    (s.readReg .ctrl).toNat = s.intEn.toNat ∧
    (s.readReg .width).toNat = s.width.toNat ∧
    (s.readReg .len).toNat = s.len.toNat ∧
    (s.readReg .prevLen).toNat = s.prevLen.toNat ∧
    (s.readReg .predIn).toNat = s.predIn.c.toNat * 2 ^ 16 + s.predIn.b.toNat * 2 ^ 8 + s.predIn.a.toNat ∧
    (s.readReg .predOut).toNat = (selBits s.predOut.sel).toNat * 2 ^ 8 + s.predOut.result.toNat ∧
    (s.readReg .predDist).toNat = s.predDist.pc.toNat * 2 ^ 20 + s.predDist.pb.toNat * 2 ^ 10 + s.predDist.pa.toNat

/-! ### Host programs (30_encoding.md §4) -/

/-- R100 and R208: the pseudo-instruction `PREDICT a, b, c`, from an idle block with no turn scheduled, ends after four
steps with the prediction of its operands in PRED_OUT and DONE = 1, and the host's program goes on after it. THE MODEL'S
CHOICE (log entry 4): with no turn scheduled a busy engine moves before the host, one order that R210's weak fairness allows;
that the WAIT ends, and after one POLL, is that order's, and R211 fixes no count. -/
def Obligations.PredictPseudoReturnsThePrediction : Prop :=
  ∀ (s : State) (a b c : Byte) (rest : List HostOp), s.busy = false → s.host.schedule = [] →
    s.host.program = (Pseudo.predict a b c).expand s.params ++ rest →
    ∃ u, runSteps 4 s = .next u ∧ u.predOut.result = (paeth a b c).value ∧ u.predOut.sel = (paeth a b c).sel ∧
      u.predIn = { a := a, b := b, c := c } ∧ u.busy = false ∧ u.status.done = true ∧ u.status.err = none ∧
      u.host.program = rest ∧ u.cur = s.cur ∧ u.prev = s.prev

/-- R100, R71 and R208: the pseudo-instructions `UNFILTER` and `UNFILTER.G`, from a ready block with its row written and no
turn scheduled, end after L + 3 steps with the reconstructed row in CUR, and the host's program goes on after them. THE
MODEL'S CHOICE (log entry 4): with no turn scheduled a busy engine moves before the host; that the WAIT ends, and after one
POLL, is that order's, and R211 fixes no count. -/
def Obligations.UnfilterPseudoReturnsTheRow : Prop :=
  ∀ (s : State) (fg : Bool) (Rc : Nat → Byte) (rest : List HostOp), s.unfilterReady → s.rowsWritten →
    RowRecurrence s.opWidth s.opLen (rowOf s.cur) (rowOf s.prev) Rc →
    s.host.schedule = [] →
    s.host.program = (if fg then Pseudo.unfilterG else Pseudo.unfilter).expand s.params ++ rest →
    ∃ u, runSteps (s.opLen + 3) s = .next u ∧ (∀ j, j < s.opLen → u.cur.read j = some (Rc j)) ∧
      u.busy = false ∧ u.status.done = true ∧ u.host.program = rest

/-- R100, R205 and R206: `ZEROPREV L` leaves PREV zero below L, and `COPYROW L` leaves a copy of CUR there; CUR and every
other byte of PREV are as before. (With no turn scheduled an idle block leaves the turns to the host, the model's choice,
log entry 4.) -/
def Obligations.RowPseudosPrepareThePreviousRow : Prop :=
  ∀ (s : State) (l : Nat) (rest : List HostOp), s.params.valid → s.busy = false → s.host.schedule = [] →
    l ≤ s.params.lmax →
    (s.host.program = (Pseudo.zeroPrev l).expand s.params ++ rest →
      ∃ u, runSteps l s = .next u ∧ (∀ j, j < l → u.prev.read j = some 0x00#8) ∧
        (∀ j, l ≤ j → u.prev.read j = s.prev.read j) ∧ u.cur = s.cur ∧ u.host.program = rest ∧ u.busy = false) ∧
    (s.host.program = (Pseudo.copyRow l).expand s.params ++ rest →
      (∀ j, j < l → (s.cur.read j).isSome = true) →
      ∃ u, runSteps (2 * l) s = .next u ∧ (∀ j, j < l → u.prev.read j = s.cur.read j) ∧
        (∀ j, l ≤ j → u.prev.read j = s.prev.read j) ∧ u.cur = s.cur ∧ u.host.program = rest ∧ u.busy = false)

/-- The whole of the reset state, the MODEL'S CHOICES in it included: a reset turn gives `State.resetWith`, whose engine path
is W1 (log entry 3), for the build at hand, and keeps the outside but for the turn taken (log entry 12); the model starts as
the default build of R5 with an empty outside (log entries 1 and 5). -/
def Obligations.ResetKeepsTheBuildAndTheOutside : Prop :=
  (∀ s, nextTurn s = .reset →
    step s = .next (State.resetWith s.params { s.host with schedule := s.host.schedule.tail }) ∧
    ∃ t, step s = .next t ∧ t.params = s.params ∧ t.engine.path = .w1 ∧ t.host.program = s.host.program ∧
      t.host.responses = s.host.responses ∧ t.host.schedule = s.host.schedule.tail) ∧
  State.reset.params = { k := 16, hasFastpaths := true } ∧ State.reset.readReg .cap = 0x01001001#32 ∧
  State.reset.host = { schedule := [], program := [], responses := [] }
end

