-- ==== Sys2Proof/Laws/Decoding.lean ====
section
/-! SUPPORT. Bits of packed words, byte lanes, and the decoder's inversion. -/

namespace Sys2Proof

/-- Bit `i` of a field placed at `lo` (00_scope.md R6). -/
theorem bitsAt_getLsbD {n : Nat} (lo : Nat) (v : BitVec n) (i : Nat) :
    (bitsAt lo v).getLsbD i = (decide (i < 32) && (!decide (i < lo) && v.getLsbD (i - lo))) := by
  simp only [bitsAt, BitVec.getLsbD_shiftLeft, BitVec.getLsbD_setWidth]
  by_cases h : i < 32
  · have : i - lo < 32 := by omega
    simp [h, this]
  · simp [h]

/-- A field placed at `lo` as a number, when it fits. -/
theorem bitsAt_toNat {n : Nat} (lo : Nat) (v : BitVec n) (h : n + lo ≤ 32) :
    (bitsAt lo v).toNat = v.toNat * 2 ^ lo := by
  have h1 : v.toNat < 2 ^ n := v.isLt
  have h2 : v.toNat * 2 ^ lo < 2 ^ 32 :=
    calc v.toNat * 2 ^ lo < 2 ^ n * 2 ^ lo := Nat.mul_lt_mul_of_pos_right h1 (Nat.two_pow_pos lo)
      _ = 2 ^ (n + lo) := (Nat.pow_add 2 n lo).symm
      _ ≤ 2 ^ 32 := Nat.pow_le_pow_right (by decide) h
  have h3 : v.toNat < 2 ^ 32 := Nat.lt_of_le_of_lt (Nat.le_mul_of_pos_right _ (Nat.two_pow_pos lo)) h2
  simp only [bitsAt, BitVec.toNat_shiftLeft, BitVec.toNat_setWidth, Nat.mod_eq_of_lt h3, Nat.shiftLeft_eq,
    Nat.mod_eq_of_lt h2]

/-- Fields in disjoint bits add up. -/
theorem or_bitsAt_toNat {n : Nat} (lo : Nat) (v : BitVec n) (w : Word) (h : n + lo ≤ 32) (hw : w.toNat < 2 ^ lo) :
    (bitsAt lo v ||| w).toNat = v.toNat * 2 ^ lo + w.toNat := by
  rw [BitVec.toNat_or, bitsAt_toNat lo v h, Nat.mul_comm, Nat.two_pow_add_eq_or_of_lt hw]

theorem packWord_getLsbD (op : BitVec 4) (fg : Bool) (i : Nat) :
    (packWord op fg).getLsbD i = (op.getLsbD i || (decide (i = 8) && fg)) := by
  simp only [packWord, BitVec.getLsbD_or, bitsAt_getLsbD]
  rcases Nat.lt_or_ge i 4 with h | h
  · interval_cases i <;> simp
  · rcases Nat.lt_trichotomy i 8 with h8 | rfl | h8
    · interval_cases i <;> simp
    · simp
    · rw [BitVec.getLsbD_of_ge (BitVec.ofBool fg) (i - 8) (by omega), BitVec.getLsbD_of_ge op (i - 0) (by omega),
        BitVec.getLsbD_of_ge op i (by omega)]
      have : i ≠ 8 := by omega
      simp [this]

/-- The lanes of a word rebuilt (20_memory.md R63). -/
theorem wordOfBytes_byteLane (w : Word) :
    wordOfBytes (byteLane w 0) (byteLane w 1) (byteLane w 2) (byteLane w 3) = w := by
  apply BitVec.eq_of_getLsbD_eq
  intro i hi
  simp only [wordOfBytes, BitVec.getLsbD_or, bitsAt_getLsbD, byteLane, BitVec.getLsbD_extractLsb']
  interval_cases i <;> simp

/-- `wordOfBytes` is the spec's concatenation (20_memory.md R64). -/
theorem wordOfBytes_eq_append (b0 b1 b2 b3 : Byte) : wordOfBytes b0 b1 b2 b3 = b3 ++ b2 ++ b1 ++ b0 := by
  apply BitVec.eq_of_toNat_eq
  have h0 := b0.isLt
  have h1 := b1.isLt
  have h2 := b2.isLt
  have h3 := b3.isLt
  have e0 : (bitsAt 0 b0).toNat = b0.toNat := by simp [bitsAt_toNat]
  have e1 : (bitsAt 8 b1 ||| bitsAt 0 b0).toNat = b1.toNat * 2 ^ 8 + b0.toNat := by
    rw [or_bitsAt_toNat 8 b1 _ (by decide) (by omega), e0]
  have e2 : (bitsAt 16 b2 ||| (bitsAt 8 b1 ||| bitsAt 0 b0)).toNat =
      b2.toNat * 2 ^ 16 + (b1.toNat * 2 ^ 8 + b0.toNat) := by
    rw [or_bitsAt_toNat 16 b2 _ (by decide) (by omega), e1]
  unfold wordOfBytes
  rw [BitVec.or_assoc, BitVec.or_assoc, or_bitsAt_toNat 24 b3 _ (by decide) (by omega), e2]
  have lane : ∀ x y : Nat, y < 2 ^ 8 → x * 2 ^ 8 ||| y = x * 2 ^ 8 + y := fun x y h => by
    rw [Nat.mul_comm, Nat.two_pow_add_eq_or_of_lt h]
  simp only [BitVec.toNat_append, Nat.shiftLeft_eq, lane _ _ h0, lane _ _ h1, lane _ _ h2]
  omega

/-- Lane `n` as a number. -/
theorem byteLane_toNat (w : Word) (n : Nat) : byteLane w n = BitVec.ofNat 8 (w.toNat / 2 ^ (8 * n)) := by
  apply BitVec.eq_of_toNat_eq
  simp [byteLane, BitVec.extractLsb'_toNat, Nat.shiftRight_eq_div_pow]

/-- OP as a number. -/
theorem wordOp_toNat (w : Word) : (wordOp w).toNat = w.toNat % 16 := by
  simp [wordOp, BitVec.extractLsb'_toNat]

/-- Every word decodes to a well-formed command (30_encoding.md R96). -/
theorem decodeWord_command (w : Word) : (decodeWord w).wellFormed = true := by
  unfold decodeWord
  repeat' split
  all_goals rfl

end Sys2Proof
end

