-- ==== Sys2Proof/Laws/State.lean ====
section
/-! SUPPORT. One lemma per field per update of the state, so that no proof unfolds an update. -/

namespace Sys2Proof.Machine

variable (s : State)

/-! ### `setCmd` -/

@[simp] theorem setCmd_params (v : CmdReg) : (s.setCmd v).params = s.params := rfl
@[simp] theorem setCmd_cmd (v : CmdReg) : (s.setCmd v).cmd = v := rfl
@[simp] theorem setCmd_status (v : CmdReg) : (s.setCmd v).status = s.status := rfl
@[simp] theorem setCmd_intEn (v : CmdReg) : (s.setCmd v).intEn = s.intEn := rfl
@[simp] theorem setCmd_width (v : CmdReg) : (s.setCmd v).width = s.width := rfl
@[simp] theorem setCmd_len (v : CmdReg) : (s.setCmd v).len = s.len := rfl
@[simp] theorem setCmd_prevLen (v : CmdReg) : (s.setCmd v).prevLen = s.prevLen := rfl
@[simp] theorem setCmd_predIn (v : CmdReg) : (s.setCmd v).predIn = s.predIn := rfl
@[simp] theorem setCmd_predOut (v : CmdReg) : (s.setCmd v).predOut = s.predOut := rfl
@[simp] theorem setCmd_predDist (v : CmdReg) : (s.setCmd v).predDist = s.predDist := rfl
@[simp] theorem setCmd_engine (v : CmdReg) : (s.setCmd v).engine = s.engine := rfl
@[simp] theorem setCmd_cur (v : CmdReg) : (s.setCmd v).cur = s.cur := rfl
@[simp] theorem setCmd_prev (v : CmdReg) : (s.setCmd v).prev = s.prev := rfl
@[simp] theorem setCmd_host (v : CmdReg) : (s.setCmd v).host = s.host := rfl

/-! ### `setStatus` -/

@[simp] theorem setStatus_params (v : StatusReg) : (s.setStatus v).params = s.params := rfl
@[simp] theorem setStatus_cmd (v : StatusReg) : (s.setStatus v).cmd = s.cmd := rfl
@[simp] theorem setStatus_status (v : StatusReg) : (s.setStatus v).status = v := rfl
@[simp] theorem setStatus_intEn (v : StatusReg) : (s.setStatus v).intEn = s.intEn := rfl
@[simp] theorem setStatus_width (v : StatusReg) : (s.setStatus v).width = s.width := rfl
@[simp] theorem setStatus_len (v : StatusReg) : (s.setStatus v).len = s.len := rfl
@[simp] theorem setStatus_prevLen (v : StatusReg) : (s.setStatus v).prevLen = s.prevLen := rfl
@[simp] theorem setStatus_predIn (v : StatusReg) : (s.setStatus v).predIn = s.predIn := rfl
@[simp] theorem setStatus_predOut (v : StatusReg) : (s.setStatus v).predOut = s.predOut := rfl
@[simp] theorem setStatus_predDist (v : StatusReg) : (s.setStatus v).predDist = s.predDist := rfl
@[simp] theorem setStatus_engine (v : StatusReg) : (s.setStatus v).engine = s.engine := rfl
@[simp] theorem setStatus_cur (v : StatusReg) : (s.setStatus v).cur = s.cur := rfl
@[simp] theorem setStatus_prev (v : StatusReg) : (s.setStatus v).prev = s.prev := rfl
@[simp] theorem setStatus_host (v : StatusReg) : (s.setStatus v).host = s.host := rfl

/-! ### `setIntEn` -/

@[simp] theorem setIntEn_params (v : Bool) : (s.setIntEn v).params = s.params := rfl
@[simp] theorem setIntEn_cmd (v : Bool) : (s.setIntEn v).cmd = s.cmd := rfl
@[simp] theorem setIntEn_status (v : Bool) : (s.setIntEn v).status = s.status := rfl
@[simp] theorem setIntEn_intEn (v : Bool) : (s.setIntEn v).intEn = v := rfl
@[simp] theorem setIntEn_width (v : Bool) : (s.setIntEn v).width = s.width := rfl
@[simp] theorem setIntEn_len (v : Bool) : (s.setIntEn v).len = s.len := rfl
@[simp] theorem setIntEn_prevLen (v : Bool) : (s.setIntEn v).prevLen = s.prevLen := rfl
@[simp] theorem setIntEn_predIn (v : Bool) : (s.setIntEn v).predIn = s.predIn := rfl
@[simp] theorem setIntEn_predOut (v : Bool) : (s.setIntEn v).predOut = s.predOut := rfl
@[simp] theorem setIntEn_predDist (v : Bool) : (s.setIntEn v).predDist = s.predDist := rfl
@[simp] theorem setIntEn_engine (v : Bool) : (s.setIntEn v).engine = s.engine := rfl
@[simp] theorem setIntEn_cur (v : Bool) : (s.setIntEn v).cur = s.cur := rfl
@[simp] theorem setIntEn_prev (v : Bool) : (s.setIntEn v).prev = s.prev := rfl
@[simp] theorem setIntEn_host (v : Bool) : (s.setIntEn v).host = s.host := rfl

/-! ### `setWidth` -/

@[simp] theorem setWidth_params (v : BitVec 16) : (s.setWidth v).params = s.params := rfl
@[simp] theorem setWidth_cmd (v : BitVec 16) : (s.setWidth v).cmd = s.cmd := rfl
@[simp] theorem setWidth_status (v : BitVec 16) : (s.setWidth v).status = s.status := rfl
@[simp] theorem setWidth_intEn (v : BitVec 16) : (s.setWidth v).intEn = s.intEn := rfl
@[simp] theorem setWidth_width (v : BitVec 16) : (s.setWidth v).width = v := rfl
@[simp] theorem setWidth_len (v : BitVec 16) : (s.setWidth v).len = s.len := rfl
@[simp] theorem setWidth_prevLen (v : BitVec 16) : (s.setWidth v).prevLen = s.prevLen := rfl
@[simp] theorem setWidth_predIn (v : BitVec 16) : (s.setWidth v).predIn = s.predIn := rfl
@[simp] theorem setWidth_predOut (v : BitVec 16) : (s.setWidth v).predOut = s.predOut := rfl
@[simp] theorem setWidth_predDist (v : BitVec 16) : (s.setWidth v).predDist = s.predDist := rfl
@[simp] theorem setWidth_engine (v : BitVec 16) : (s.setWidth v).engine = s.engine := rfl
@[simp] theorem setWidth_cur (v : BitVec 16) : (s.setWidth v).cur = s.cur := rfl
@[simp] theorem setWidth_prev (v : BitVec 16) : (s.setWidth v).prev = s.prev := rfl
@[simp] theorem setWidth_host (v : BitVec 16) : (s.setWidth v).host = s.host := rfl

/-! ### `setLen` -/

@[simp] theorem setLen_params (v : BitVec 32) : (s.setLen v).params = s.params := rfl
@[simp] theorem setLen_cmd (v : BitVec 32) : (s.setLen v).cmd = s.cmd := rfl
@[simp] theorem setLen_status (v : BitVec 32) : (s.setLen v).status = s.status := rfl
@[simp] theorem setLen_intEn (v : BitVec 32) : (s.setLen v).intEn = s.intEn := rfl
@[simp] theorem setLen_width (v : BitVec 32) : (s.setLen v).width = s.width := rfl
@[simp] theorem setLen_len (v : BitVec 32) : (s.setLen v).len = v := rfl
@[simp] theorem setLen_prevLen (v : BitVec 32) : (s.setLen v).prevLen = s.prevLen := rfl
@[simp] theorem setLen_predIn (v : BitVec 32) : (s.setLen v).predIn = s.predIn := rfl
@[simp] theorem setLen_predOut (v : BitVec 32) : (s.setLen v).predOut = s.predOut := rfl
@[simp] theorem setLen_predDist (v : BitVec 32) : (s.setLen v).predDist = s.predDist := rfl
@[simp] theorem setLen_engine (v : BitVec 32) : (s.setLen v).engine = s.engine := rfl
@[simp] theorem setLen_cur (v : BitVec 32) : (s.setLen v).cur = s.cur := rfl
@[simp] theorem setLen_prev (v : BitVec 32) : (s.setLen v).prev = s.prev := rfl
@[simp] theorem setLen_host (v : BitVec 32) : (s.setLen v).host = s.host := rfl

/-! ### `setPrevLen` -/

@[simp] theorem setPrevLen_params (v : BitVec 32) : (s.setPrevLen v).params = s.params := rfl
@[simp] theorem setPrevLen_cmd (v : BitVec 32) : (s.setPrevLen v).cmd = s.cmd := rfl
@[simp] theorem setPrevLen_status (v : BitVec 32) : (s.setPrevLen v).status = s.status := rfl
@[simp] theorem setPrevLen_intEn (v : BitVec 32) : (s.setPrevLen v).intEn = s.intEn := rfl
@[simp] theorem setPrevLen_width (v : BitVec 32) : (s.setPrevLen v).width = s.width := rfl
@[simp] theorem setPrevLen_len (v : BitVec 32) : (s.setPrevLen v).len = s.len := rfl
@[simp] theorem setPrevLen_prevLen (v : BitVec 32) : (s.setPrevLen v).prevLen = v := rfl
@[simp] theorem setPrevLen_predIn (v : BitVec 32) : (s.setPrevLen v).predIn = s.predIn := rfl
@[simp] theorem setPrevLen_predOut (v : BitVec 32) : (s.setPrevLen v).predOut = s.predOut := rfl
@[simp] theorem setPrevLen_predDist (v : BitVec 32) : (s.setPrevLen v).predDist = s.predDist := rfl
@[simp] theorem setPrevLen_engine (v : BitVec 32) : (s.setPrevLen v).engine = s.engine := rfl
@[simp] theorem setPrevLen_cur (v : BitVec 32) : (s.setPrevLen v).cur = s.cur := rfl
@[simp] theorem setPrevLen_prev (v : BitVec 32) : (s.setPrevLen v).prev = s.prev := rfl
@[simp] theorem setPrevLen_host (v : BitVec 32) : (s.setPrevLen v).host = s.host := rfl

/-! ### `setPredIn` -/

@[simp] theorem setPredIn_params (v : PredIn) : (s.setPredIn v).params = s.params := rfl
@[simp] theorem setPredIn_cmd (v : PredIn) : (s.setPredIn v).cmd = s.cmd := rfl
@[simp] theorem setPredIn_status (v : PredIn) : (s.setPredIn v).status = s.status := rfl
@[simp] theorem setPredIn_intEn (v : PredIn) : (s.setPredIn v).intEn = s.intEn := rfl
@[simp] theorem setPredIn_width (v : PredIn) : (s.setPredIn v).width = s.width := rfl
@[simp] theorem setPredIn_len (v : PredIn) : (s.setPredIn v).len = s.len := rfl
@[simp] theorem setPredIn_prevLen (v : PredIn) : (s.setPredIn v).prevLen = s.prevLen := rfl
@[simp] theorem setPredIn_predIn (v : PredIn) : (s.setPredIn v).predIn = v := rfl
@[simp] theorem setPredIn_predOut (v : PredIn) : (s.setPredIn v).predOut = s.predOut := rfl
@[simp] theorem setPredIn_predDist (v : PredIn) : (s.setPredIn v).predDist = s.predDist := rfl
@[simp] theorem setPredIn_engine (v : PredIn) : (s.setPredIn v).engine = s.engine := rfl
@[simp] theorem setPredIn_cur (v : PredIn) : (s.setPredIn v).cur = s.cur := rfl
@[simp] theorem setPredIn_prev (v : PredIn) : (s.setPredIn v).prev = s.prev := rfl
@[simp] theorem setPredIn_host (v : PredIn) : (s.setPredIn v).host = s.host := rfl

/-! ### `setPredOut` -/

@[simp] theorem setPredOut_params (v : PredOut) : (s.setPredOut v).params = s.params := rfl
@[simp] theorem setPredOut_cmd (v : PredOut) : (s.setPredOut v).cmd = s.cmd := rfl
@[simp] theorem setPredOut_status (v : PredOut) : (s.setPredOut v).status = s.status := rfl
@[simp] theorem setPredOut_intEn (v : PredOut) : (s.setPredOut v).intEn = s.intEn := rfl
@[simp] theorem setPredOut_width (v : PredOut) : (s.setPredOut v).width = s.width := rfl
@[simp] theorem setPredOut_len (v : PredOut) : (s.setPredOut v).len = s.len := rfl
@[simp] theorem setPredOut_prevLen (v : PredOut) : (s.setPredOut v).prevLen = s.prevLen := rfl
@[simp] theorem setPredOut_predIn (v : PredOut) : (s.setPredOut v).predIn = s.predIn := rfl
@[simp] theorem setPredOut_predOut (v : PredOut) : (s.setPredOut v).predOut = v := rfl
@[simp] theorem setPredOut_predDist (v : PredOut) : (s.setPredOut v).predDist = s.predDist := rfl
@[simp] theorem setPredOut_engine (v : PredOut) : (s.setPredOut v).engine = s.engine := rfl
@[simp] theorem setPredOut_cur (v : PredOut) : (s.setPredOut v).cur = s.cur := rfl
@[simp] theorem setPredOut_prev (v : PredOut) : (s.setPredOut v).prev = s.prev := rfl
@[simp] theorem setPredOut_host (v : PredOut) : (s.setPredOut v).host = s.host := rfl

/-! ### `setPredDist` -/

@[simp] theorem setPredDist_params (v : PredDist) : (s.setPredDist v).params = s.params := rfl
@[simp] theorem setPredDist_cmd (v : PredDist) : (s.setPredDist v).cmd = s.cmd := rfl
@[simp] theorem setPredDist_status (v : PredDist) : (s.setPredDist v).status = s.status := rfl
@[simp] theorem setPredDist_intEn (v : PredDist) : (s.setPredDist v).intEn = s.intEn := rfl
@[simp] theorem setPredDist_width (v : PredDist) : (s.setPredDist v).width = s.width := rfl
@[simp] theorem setPredDist_len (v : PredDist) : (s.setPredDist v).len = s.len := rfl
@[simp] theorem setPredDist_prevLen (v : PredDist) : (s.setPredDist v).prevLen = s.prevLen := rfl
@[simp] theorem setPredDist_predIn (v : PredDist) : (s.setPredDist v).predIn = s.predIn := rfl
@[simp] theorem setPredDist_predOut (v : PredDist) : (s.setPredDist v).predOut = s.predOut := rfl
@[simp] theorem setPredDist_predDist (v : PredDist) : (s.setPredDist v).predDist = v := rfl
@[simp] theorem setPredDist_engine (v : PredDist) : (s.setPredDist v).engine = s.engine := rfl
@[simp] theorem setPredDist_cur (v : PredDist) : (s.setPredDist v).cur = s.cur := rfl
@[simp] theorem setPredDist_prev (v : PredDist) : (s.setPredDist v).prev = s.prev := rfl
@[simp] theorem setPredDist_host (v : PredDist) : (s.setPredDist v).host = s.host := rfl

/-! ### `setEngine` -/

@[simp] theorem setEngine_params (v : Engine) : (s.setEngine v).params = s.params := rfl
@[simp] theorem setEngine_cmd (v : Engine) : (s.setEngine v).cmd = s.cmd := rfl
@[simp] theorem setEngine_status (v : Engine) : (s.setEngine v).status = s.status := rfl
@[simp] theorem setEngine_intEn (v : Engine) : (s.setEngine v).intEn = s.intEn := rfl
@[simp] theorem setEngine_width (v : Engine) : (s.setEngine v).width = s.width := rfl
@[simp] theorem setEngine_len (v : Engine) : (s.setEngine v).len = s.len := rfl
@[simp] theorem setEngine_prevLen (v : Engine) : (s.setEngine v).prevLen = s.prevLen := rfl
@[simp] theorem setEngine_predIn (v : Engine) : (s.setEngine v).predIn = s.predIn := rfl
@[simp] theorem setEngine_predOut (v : Engine) : (s.setEngine v).predOut = s.predOut := rfl
@[simp] theorem setEngine_predDist (v : Engine) : (s.setEngine v).predDist = s.predDist := rfl
@[simp] theorem setEngine_engine (v : Engine) : (s.setEngine v).engine = v := rfl
@[simp] theorem setEngine_cur (v : Engine) : (s.setEngine v).cur = s.cur := rfl
@[simp] theorem setEngine_prev (v : Engine) : (s.setEngine v).prev = s.prev := rfl
@[simp] theorem setEngine_host (v : Engine) : (s.setEngine v).host = s.host := rfl

/-! ### `setCur` -/

@[simp] theorem setCur_params (v : Memory) : (s.setCur v).params = s.params := rfl
@[simp] theorem setCur_cmd (v : Memory) : (s.setCur v).cmd = s.cmd := rfl
@[simp] theorem setCur_status (v : Memory) : (s.setCur v).status = s.status := rfl
@[simp] theorem setCur_intEn (v : Memory) : (s.setCur v).intEn = s.intEn := rfl
@[simp] theorem setCur_width (v : Memory) : (s.setCur v).width = s.width := rfl
@[simp] theorem setCur_len (v : Memory) : (s.setCur v).len = s.len := rfl
@[simp] theorem setCur_prevLen (v : Memory) : (s.setCur v).prevLen = s.prevLen := rfl
@[simp] theorem setCur_predIn (v : Memory) : (s.setCur v).predIn = s.predIn := rfl
@[simp] theorem setCur_predOut (v : Memory) : (s.setCur v).predOut = s.predOut := rfl
@[simp] theorem setCur_predDist (v : Memory) : (s.setCur v).predDist = s.predDist := rfl
@[simp] theorem setCur_engine (v : Memory) : (s.setCur v).engine = s.engine := rfl
@[simp] theorem setCur_cur (v : Memory) : (s.setCur v).cur = v := rfl
@[simp] theorem setCur_prev (v : Memory) : (s.setCur v).prev = s.prev := rfl
@[simp] theorem setCur_host (v : Memory) : (s.setCur v).host = s.host := rfl

/-! ### `setPrev` -/

@[simp] theorem setPrev_params (v : Memory) : (s.setPrev v).params = s.params := rfl
@[simp] theorem setPrev_cmd (v : Memory) : (s.setPrev v).cmd = s.cmd := rfl
@[simp] theorem setPrev_status (v : Memory) : (s.setPrev v).status = s.status := rfl
@[simp] theorem setPrev_intEn (v : Memory) : (s.setPrev v).intEn = s.intEn := rfl
@[simp] theorem setPrev_width (v : Memory) : (s.setPrev v).width = s.width := rfl
@[simp] theorem setPrev_len (v : Memory) : (s.setPrev v).len = s.len := rfl
@[simp] theorem setPrev_prevLen (v : Memory) : (s.setPrev v).prevLen = s.prevLen := rfl
@[simp] theorem setPrev_predIn (v : Memory) : (s.setPrev v).predIn = s.predIn := rfl
@[simp] theorem setPrev_predOut (v : Memory) : (s.setPrev v).predOut = s.predOut := rfl
@[simp] theorem setPrev_predDist (v : Memory) : (s.setPrev v).predDist = s.predDist := rfl
@[simp] theorem setPrev_engine (v : Memory) : (s.setPrev v).engine = s.engine := rfl
@[simp] theorem setPrev_cur (v : Memory) : (s.setPrev v).cur = s.cur := rfl
@[simp] theorem setPrev_prev (v : Memory) : (s.setPrev v).prev = v := rfl
@[simp] theorem setPrev_host (v : Memory) : (s.setPrev v).host = s.host := rfl

/-! ### `setHost` -/

@[simp] theorem setHost_params (v : HostSide) : (s.setHost v).params = s.params := rfl
@[simp] theorem setHost_cmd (v : HostSide) : (s.setHost v).cmd = s.cmd := rfl
@[simp] theorem setHost_status (v : HostSide) : (s.setHost v).status = s.status := rfl
@[simp] theorem setHost_intEn (v : HostSide) : (s.setHost v).intEn = s.intEn := rfl
@[simp] theorem setHost_width (v : HostSide) : (s.setHost v).width = s.width := rfl
@[simp] theorem setHost_len (v : HostSide) : (s.setHost v).len = s.len := rfl
@[simp] theorem setHost_prevLen (v : HostSide) : (s.setHost v).prevLen = s.prevLen := rfl
@[simp] theorem setHost_predIn (v : HostSide) : (s.setHost v).predIn = s.predIn := rfl
@[simp] theorem setHost_predOut (v : HostSide) : (s.setHost v).predOut = s.predOut := rfl
@[simp] theorem setHost_predDist (v : HostSide) : (s.setHost v).predDist = s.predDist := rfl
@[simp] theorem setHost_engine (v : HostSide) : (s.setHost v).engine = s.engine := rfl
@[simp] theorem setHost_cur (v : HostSide) : (s.setHost v).cur = s.cur := rfl
@[simp] theorem setHost_prev (v : HostSide) : (s.setHost v).prev = s.prev := rfl
@[simp] theorem setHost_host (v : HostSide) : (s.setHost v).host = v := rfl

/-! ### `overrun` -/

@[simp] theorem overrun_params : s.overrun.params = s.params := rfl
@[simp] theorem overrun_cmd : s.overrun.cmd = s.cmd := rfl
@[simp] theorem overrun_status : s.overrun.status = { s.status with ovr := true } := rfl
@[simp] theorem overrun_intEn : s.overrun.intEn = s.intEn := rfl
@[simp] theorem overrun_width : s.overrun.width = s.width := rfl
@[simp] theorem overrun_len : s.overrun.len = s.len := rfl
@[simp] theorem overrun_prevLen : s.overrun.prevLen = s.prevLen := rfl
@[simp] theorem overrun_predIn : s.overrun.predIn = s.predIn := rfl
@[simp] theorem overrun_predOut : s.overrun.predOut = s.predOut := rfl
@[simp] theorem overrun_predDist : s.overrun.predDist = s.predDist := rfl
@[simp] theorem overrun_engine : s.overrun.engine = s.engine := rfl
@[simp] theorem overrun_cur : s.overrun.cur = s.cur := rfl
@[simp] theorem overrun_prev : s.overrun.prev = s.prev := rfl
@[simp] theorem overrun_host : s.overrun.host = s.host := rfl

/-! ### `latchCommand` -/

@[simp] theorem latchCommand_params (op : BitVec 4) (fg : Bool) : (s.latchCommand op fg).params = s.params := rfl
@[simp] theorem latchCommand_cmd (op : BitVec 4) (fg : Bool) : (s.latchCommand op fg).cmd = { op := op, fg := fg } := rfl
@[simp] theorem latchCommand_status (op : BitVec 4) (fg : Bool) :
    (s.latchCommand op fg).status = { s.status with done := false, err := none, path := none } := rfl
@[simp] theorem latchCommand_intEn (op : BitVec 4) (fg : Bool) : (s.latchCommand op fg).intEn = s.intEn := rfl
@[simp] theorem latchCommand_width (op : BitVec 4) (fg : Bool) : (s.latchCommand op fg).width = s.width := rfl
@[simp] theorem latchCommand_len (op : BitVec 4) (fg : Bool) : (s.latchCommand op fg).len = s.len := rfl
@[simp] theorem latchCommand_prevLen (op : BitVec 4) (fg : Bool) : (s.latchCommand op fg).prevLen = s.prevLen := rfl
@[simp] theorem latchCommand_predIn (op : BitVec 4) (fg : Bool) : (s.latchCommand op fg).predIn = s.predIn := rfl
@[simp] theorem latchCommand_predOut (op : BitVec 4) (fg : Bool) : (s.latchCommand op fg).predOut = s.predOut := rfl
@[simp] theorem latchCommand_predDist (op : BitVec 4) (fg : Bool) : (s.latchCommand op fg).predDist = s.predDist := rfl
@[simp] theorem latchCommand_engine (op : BitVec 4) (fg : Bool) : (s.latchCommand op fg).engine = s.engine := rfl
@[simp] theorem latchCommand_cur (op : BitVec 4) (fg : Bool) : (s.latchCommand op fg).cur = s.cur := rfl
@[simp] theorem latchCommand_prev (op : BitVec 4) (fg : Bool) : (s.latchCommand op fg).prev = s.prev := rfl
@[simp] theorem latchCommand_host (op : BitVec 4) (fg : Bool) : (s.latchCommand op fg).host = s.host := rfl

/-! ### `raiseError` -/

@[simp] theorem raiseError_params (e : ErrCode) : (s.raiseError e).params = s.params := rfl
@[simp] theorem raiseError_cmd (e : ErrCode) : (s.raiseError e).cmd = s.cmd := rfl
@[simp] theorem raiseError_status (e : ErrCode) :
    (s.raiseError e).status = { s.status with err := some e, path := none, done := true } := rfl
@[simp] theorem raiseError_intEn (e : ErrCode) : (s.raiseError e).intEn = s.intEn := rfl
@[simp] theorem raiseError_width (e : ErrCode) : (s.raiseError e).width = s.width := rfl
@[simp] theorem raiseError_len (e : ErrCode) : (s.raiseError e).len = s.len := rfl
@[simp] theorem raiseError_prevLen (e : ErrCode) : (s.raiseError e).prevLen = s.prevLen := rfl
@[simp] theorem raiseError_predIn (e : ErrCode) : (s.raiseError e).predIn = s.predIn := rfl
@[simp] theorem raiseError_predOut (e : ErrCode) : (s.raiseError e).predOut = s.predOut := rfl
@[simp] theorem raiseError_predDist (e : ErrCode) : (s.raiseError e).predDist = s.predDist := rfl
@[simp] theorem raiseError_engine (e : ErrCode) : (s.raiseError e).engine = s.engine := rfl
@[simp] theorem raiseError_cur (e : ErrCode) : (s.raiseError e).cur = s.cur := rfl
@[simp] theorem raiseError_prev (e : ErrCode) : (s.raiseError e).prev = s.prev := rfl
@[simp] theorem raiseError_host (e : ErrCode) : (s.raiseError e).host = s.host := rfl

/-! ### `clearStatus` -/

@[simp] theorem clearStatus_params (v : Word) : (s.clearStatus v).params = s.params := rfl
@[simp] theorem clearStatus_cmd (v : Word) : (s.clearStatus v).cmd = s.cmd := rfl
@[simp] theorem clearStatus_status (v : Word) :
    (s.clearStatus v).status = { s.status with done := s.status.done && !v.getLsbD 1, ovr := s.status.ovr && !v.getLsbD 2 } := rfl
@[simp] theorem clearStatus_intEn (v : Word) : (s.clearStatus v).intEn = s.intEn := rfl
@[simp] theorem clearStatus_width (v : Word) : (s.clearStatus v).width = s.width := rfl
@[simp] theorem clearStatus_len (v : Word) : (s.clearStatus v).len = s.len := rfl
@[simp] theorem clearStatus_prevLen (v : Word) : (s.clearStatus v).prevLen = s.prevLen := rfl
@[simp] theorem clearStatus_predIn (v : Word) : (s.clearStatus v).predIn = s.predIn := rfl
@[simp] theorem clearStatus_predOut (v : Word) : (s.clearStatus v).predOut = s.predOut := rfl
@[simp] theorem clearStatus_predDist (v : Word) : (s.clearStatus v).predDist = s.predDist := rfl
@[simp] theorem clearStatus_engine (v : Word) : (s.clearStatus v).engine = s.engine := rfl
@[simp] theorem clearStatus_cur (v : Word) : (s.clearStatus v).cur = s.cur := rfl
@[simp] theorem clearStatus_prev (v : Word) : (s.clearStatus v).prev = s.prev := rfl
@[simp] theorem clearStatus_host (v : Word) : (s.clearStatus v).host = s.host := rfl

/-! ### `finish` -/

@[simp] theorem finish_params : s.finish.params = s.params := rfl
@[simp] theorem finish_cmd : s.finish.cmd = s.cmd := rfl
@[simp] theorem finish_status : s.finish.status = { s.status with done := true } := rfl
@[simp] theorem finish_intEn : s.finish.intEn = s.intEn := rfl
@[simp] theorem finish_width : s.finish.width = s.width := rfl
@[simp] theorem finish_len : s.finish.len = s.len := rfl
@[simp] theorem finish_prevLen : s.finish.prevLen = s.prevLen := rfl
@[simp] theorem finish_predIn : s.finish.predIn = s.predIn := rfl
@[simp] theorem finish_predOut : s.finish.predOut = s.predOut := rfl
@[simp] theorem finish_predDist : s.finish.predDist = s.predDist := rfl
@[simp] theorem finish_engine : s.finish.engine = { s.engine with phase := .idle } := rfl
@[simp] theorem finish_cur : s.finish.cur = s.cur := rfl
@[simp] theorem finish_prev : s.finish.prev = s.prev := rfl
@[simp] theorem finish_host : s.finish.host = s.host := rfl

/-! ### `respond` -/

@[simp] theorem respond_params (r : BusResponse) : (s.respond r).params = s.params := rfl
@[simp] theorem respond_cmd (r : BusResponse) : (s.respond r).cmd = s.cmd := rfl
@[simp] theorem respond_status (r : BusResponse) : (s.respond r).status = s.status := rfl
@[simp] theorem respond_intEn (r : BusResponse) : (s.respond r).intEn = s.intEn := rfl
@[simp] theorem respond_width (r : BusResponse) : (s.respond r).width = s.width := rfl
@[simp] theorem respond_len (r : BusResponse) : (s.respond r).len = s.len := rfl
@[simp] theorem respond_prevLen (r : BusResponse) : (s.respond r).prevLen = s.prevLen := rfl
@[simp] theorem respond_predIn (r : BusResponse) : (s.respond r).predIn = s.predIn := rfl
@[simp] theorem respond_predOut (r : BusResponse) : (s.respond r).predOut = s.predOut := rfl
@[simp] theorem respond_predDist (r : BusResponse) : (s.respond r).predDist = s.predDist := rfl
@[simp] theorem respond_engine (r : BusResponse) : (s.respond r).engine = s.engine := rfl
@[simp] theorem respond_cur (r : BusResponse) : (s.respond r).cur = s.cur := rfl
@[simp] theorem respond_prev (r : BusResponse) : (s.respond r).prev = s.prev := rfl
@[simp] theorem respond_host (r : BusResponse) : (s.respond r).host = { s.host with responses := r :: s.host.responses } := rfl

/-! ### `setProgram` -/

@[simp] theorem setProgram_params (p : List HostOp) : (s.setProgram p).params = s.params := rfl
@[simp] theorem setProgram_cmd (p : List HostOp) : (s.setProgram p).cmd = s.cmd := rfl
@[simp] theorem setProgram_status (p : List HostOp) : (s.setProgram p).status = s.status := rfl
@[simp] theorem setProgram_intEn (p : List HostOp) : (s.setProgram p).intEn = s.intEn := rfl
@[simp] theorem setProgram_width (p : List HostOp) : (s.setProgram p).width = s.width := rfl
@[simp] theorem setProgram_len (p : List HostOp) : (s.setProgram p).len = s.len := rfl
@[simp] theorem setProgram_prevLen (p : List HostOp) : (s.setProgram p).prevLen = s.prevLen := rfl
@[simp] theorem setProgram_predIn (p : List HostOp) : (s.setProgram p).predIn = s.predIn := rfl
@[simp] theorem setProgram_predOut (p : List HostOp) : (s.setProgram p).predOut = s.predOut := rfl
@[simp] theorem setProgram_predDist (p : List HostOp) : (s.setProgram p).predDist = s.predDist := rfl
@[simp] theorem setProgram_engine (p : List HostOp) : (s.setProgram p).engine = s.engine := rfl
@[simp] theorem setProgram_cur (p : List HostOp) : (s.setProgram p).cur = s.cur := rfl
@[simp] theorem setProgram_prev (p : List HostOp) : (s.setProgram p).prev = s.prev := rfl
@[simp] theorem setProgram_host (p : List HostOp) : (s.setProgram p).host = { s.host with program := p } := rfl

/-! ### `setSchedule` -/

@[simp] theorem setSchedule_params (t : List Turn) : (s.setSchedule t).params = s.params := rfl
@[simp] theorem setSchedule_cmd (t : List Turn) : (s.setSchedule t).cmd = s.cmd := rfl
@[simp] theorem setSchedule_status (t : List Turn) : (s.setSchedule t).status = s.status := rfl
@[simp] theorem setSchedule_intEn (t : List Turn) : (s.setSchedule t).intEn = s.intEn := rfl
@[simp] theorem setSchedule_width (t : List Turn) : (s.setSchedule t).width = s.width := rfl
@[simp] theorem setSchedule_len (t : List Turn) : (s.setSchedule t).len = s.len := rfl
@[simp] theorem setSchedule_prevLen (t : List Turn) : (s.setSchedule t).prevLen = s.prevLen := rfl
@[simp] theorem setSchedule_predIn (t : List Turn) : (s.setSchedule t).predIn = s.predIn := rfl
@[simp] theorem setSchedule_predOut (t : List Turn) : (s.setSchedule t).predOut = s.predOut := rfl
@[simp] theorem setSchedule_predDist (t : List Turn) : (s.setSchedule t).predDist = s.predDist := rfl
@[simp] theorem setSchedule_engine (t : List Turn) : (s.setSchedule t).engine = s.engine := rfl
@[simp] theorem setSchedule_cur (t : List Turn) : (s.setSchedule t).cur = s.cur := rfl
@[simp] theorem setSchedule_prev (t : List Turn) : (s.setSchedule t).prev = s.prev := rfl
@[simp] theorem setSchedule_host (t : List Turn) : (s.setSchedule t).host = { s.host with schedule := t } := rfl

/-! ### `storePrediction` -/

@[simp] theorem storePrediction_params (r : PaethOut) : (s.storePrediction r).params = s.params := rfl
@[simp] theorem storePrediction_cmd (r : PaethOut) : (s.storePrediction r).cmd = s.cmd := rfl
@[simp] theorem storePrediction_status (r : PaethOut) : (s.storePrediction r).status = s.status := rfl
@[simp] theorem storePrediction_intEn (r : PaethOut) : (s.storePrediction r).intEn = s.intEn := rfl
@[simp] theorem storePrediction_width (r : PaethOut) : (s.storePrediction r).width = s.width := rfl
@[simp] theorem storePrediction_len (r : PaethOut) : (s.storePrediction r).len = s.len := rfl
@[simp] theorem storePrediction_prevLen (r : PaethOut) : (s.storePrediction r).prevLen = s.prevLen := rfl
@[simp] theorem storePrediction_predIn (r : PaethOut) : (s.storePrediction r).predIn = s.predIn := rfl
@[simp] theorem storePrediction_predOut (r : PaethOut) : (s.storePrediction r).predOut = { result := r.value, sel := r.sel } := rfl
@[simp] theorem storePrediction_predDist (r : PaethOut) :
    (s.storePrediction r).predDist = { pa := BitVec.ofNat 9 r.pa, pb := BitVec.ofNat 9 r.pb, pc := BitVec.ofNat 9 r.pc } := rfl
@[simp] theorem storePrediction_engine (r : PaethOut) : (s.storePrediction r).engine = s.engine := rfl
@[simp] theorem storePrediction_cur (r : PaethOut) : (s.storePrediction r).cur = s.cur := rfl
@[simp] theorem storePrediction_prev (r : PaethOut) : (s.storePrediction r).prev = s.prev := rfl
@[simp] theorem storePrediction_host (r : PaethOut) : (s.storePrediction r).host = s.host := rfl

/-! ### `startPredict` -/

@[simp] theorem startPredict_params : (startPredict s).params = s.params := rfl
@[simp] theorem startPredict_cmd : (startPredict s).cmd = s.cmd := rfl
@[simp] theorem startPredict_status : (startPredict s).status = s.status := rfl
@[simp] theorem startPredict_intEn : (startPredict s).intEn = s.intEn := rfl
@[simp] theorem startPredict_width : (startPredict s).width = s.width := rfl
@[simp] theorem startPredict_len : (startPredict s).len = s.len := rfl
@[simp] theorem startPredict_prevLen : (startPredict s).prevLen = s.prevLen := rfl
@[simp] theorem startPredict_predIn : (startPredict s).predIn = s.predIn := rfl
@[simp] theorem startPredict_predOut : (startPredict s).predOut = s.predOut := rfl
@[simp] theorem startPredict_predDist : (startPredict s).predDist = s.predDist := rfl
@[simp] theorem startPredict_engine : (startPredict s).engine = { s.engine with phase := .runPredict } := rfl
@[simp] theorem startPredict_cur : (startPredict s).cur = s.cur := rfl
@[simp] theorem startPredict_prev : (startPredict s).prev = s.prev := rfl
@[simp] theorem startPredict_host : (startPredict s).host = s.host := rfl

/-! ### `startUnfilter` -/

@[simp] theorem startUnfilter_params : (startUnfilter s).params = s.params := rfl
@[simp] theorem startUnfilter_cmd : (startUnfilter s).cmd = s.cmd := rfl
@[simp] theorem startUnfilter_status : (startUnfilter s).status = { s.status with path := some s.selected } := rfl
@[simp] theorem startUnfilter_intEn : (startUnfilter s).intEn = s.intEn := rfl
@[simp] theorem startUnfilter_width : (startUnfilter s).width = s.width := rfl
@[simp] theorem startUnfilter_len : (startUnfilter s).len = s.len := rfl
@[simp] theorem startUnfilter_prevLen : (startUnfilter s).prevLen = s.prevLen := rfl
@[simp] theorem startUnfilter_predIn : (startUnfilter s).predIn = s.predIn := rfl
@[simp] theorem startUnfilter_predOut : (startUnfilter s).predOut = s.predOut := rfl
@[simp] theorem startUnfilter_predDist : (startUnfilter s).predDist = s.predDist := rfl
@[simp] theorem startUnfilter_engine :
    (startUnfilter s).engine =
      { phase := .runUnfilter, path := s.selected, i := 0, j := 0, pairA := Vector.replicate 4 0x00#8, pairC := Vector.replicate 4 0x00#8 } := rfl
@[simp] theorem startUnfilter_cur : (startUnfilter s).cur = s.cur := rfl
@[simp] theorem startUnfilter_prev : (startUnfilter s).prev = s.prev := rfl
@[simp] theorem startUnfilter_host : (startUnfilter s).host = s.host := rfl

/-! ### `advanceSerial` -/

@[simp] theorem advanceSerial_params : (advanceSerial s).params = s.params := rfl
@[simp] theorem advanceSerial_cmd : (advanceSerial s).cmd = s.cmd := rfl
@[simp] theorem advanceSerial_status : (advanceSerial s).status = s.status := rfl
@[simp] theorem advanceSerial_intEn : (advanceSerial s).intEn = s.intEn := rfl
@[simp] theorem advanceSerial_width : (advanceSerial s).width = s.width := rfl
@[simp] theorem advanceSerial_len : (advanceSerial s).len = s.len := rfl
@[simp] theorem advanceSerial_prevLen : (advanceSerial s).prevLen = s.prevLen := rfl
@[simp] theorem advanceSerial_predIn : (advanceSerial s).predIn = s.predIn := rfl
@[simp] theorem advanceSerial_predOut : (advanceSerial s).predOut = s.predOut := rfl
@[simp] theorem advanceSerial_predDist : (advanceSerial s).predDist = s.predDist := rfl
@[simp] theorem advanceSerial_engine : (advanceSerial s).engine = { s.engine with j := s.engine.j + 1 } := rfl
@[simp] theorem advanceSerial_cur : (advanceSerial s).cur = s.cur := rfl
@[simp] theorem advanceSerial_prev : (advanceSerial s).prev = s.prev := rfl
@[simp] theorem advanceSerial_host : (advanceSerial s).host = s.host := rfl

/-! ### `takeTurn` -/

@[simp] theorem takeTurn_params : (takeTurn s).params = s.params := rfl
@[simp] theorem takeTurn_cmd : (takeTurn s).cmd = s.cmd := rfl
@[simp] theorem takeTurn_status : (takeTurn s).status = s.status := rfl
@[simp] theorem takeTurn_intEn : (takeTurn s).intEn = s.intEn := rfl
@[simp] theorem takeTurn_width : (takeTurn s).width = s.width := rfl
@[simp] theorem takeTurn_len : (takeTurn s).len = s.len := rfl
@[simp] theorem takeTurn_prevLen : (takeTurn s).prevLen = s.prevLen := rfl
@[simp] theorem takeTurn_predIn : (takeTurn s).predIn = s.predIn := rfl
@[simp] theorem takeTurn_predOut : (takeTurn s).predOut = s.predOut := rfl
@[simp] theorem takeTurn_predDist : (takeTurn s).predDist = s.predDist := rfl
@[simp] theorem takeTurn_engine : (takeTurn s).engine = s.engine := rfl
@[simp] theorem takeTurn_cur : (takeTurn s).cur = s.cur := rfl
@[simp] theorem takeTurn_prev : (takeTurn s).prev = s.prev := rfl
@[simp] theorem takeTurn_host : (takeTurn s).host = { s.host with schedule := s.host.schedule.tail } := rfl

/-! ### Buffers by name -/

@[simp] theorem buffer_cur : s.buffer .cur = s.cur := rfl
@[simp] theorem buffer_prev : s.buffer .prev = s.prev := rfl
@[simp] theorem setBuffer_cur (m : Memory) : s.setBuffer .cur m = s.setCur m := rfl
@[simp] theorem setBuffer_prev (m : Memory) : s.setBuffer .prev m = s.setPrev m := rfl

end Sys2Proof.Machine
end

