-- ==== Sys2Proof/Laws/Commands.lean ====
section
/-! SUPPORT. What acceptance can do: BUSY, the operands and the checks under every update, and each command as one
equation while idle and one while busy. -/

namespace Sys2Proof.Machine

theorem busy_eq_decide (s : State) : s.busy = decide (s.engine.phase ≠ .idle) := by
  unfold State.busy
  cases s.engine.phase <;> rfl

theorem busy_eq_true {s : State} : s.busy = true ↔ s.engine.phase ≠ .idle := by simp [busy_eq_decide]

theorem busy_eq_false {s : State} : s.busy = false ↔ s.engine.phase = .idle := by simp [busy_eq_decide]

/-- BUSY depends on the engine alone. -/
theorem busy_congr {s t : State} (h : t.engine.phase = s.engine.phase) : t.busy = s.busy := by
  simp [busy_eq_decide, h]

section
variable (s : State)

@[simp] theorem busy_setCmd (v : CmdReg) : (s.setCmd v).busy = s.busy := rfl
@[simp] theorem busy_setStatus (v : StatusReg) : (s.setStatus v).busy = s.busy := rfl
@[simp] theorem busy_setIntEn (v : Bool) : (s.setIntEn v).busy = s.busy := rfl
@[simp] theorem busy_setWidth (v : BitVec 16) : (s.setWidth v).busy = s.busy := rfl
@[simp] theorem busy_setLen (v : BitVec 32) : (s.setLen v).busy = s.busy := rfl
@[simp] theorem busy_setPrevLen (v : BitVec 32) : (s.setPrevLen v).busy = s.busy := rfl
@[simp] theorem busy_setPredIn (v : PredIn) : (s.setPredIn v).busy = s.busy := rfl
@[simp] theorem busy_setCur (v : Memory) : (s.setCur v).busy = s.busy := rfl
@[simp] theorem busy_setPrev (v : Memory) : (s.setPrev v).busy = s.busy := rfl
@[simp] theorem busy_setBuffer (b : Buffer) (v : Memory) : (s.setBuffer b v).busy = s.busy := by cases b <;> rfl
@[simp] theorem busy_setHost (v : HostSide) : (s.setHost v).busy = s.busy := rfl
@[simp] theorem busy_overrun : s.overrun.busy = s.busy := rfl
@[simp] theorem busy_latchCommand (op : BitVec 4) (fg : Bool) : (s.latchCommand op fg).busy = s.busy := rfl
@[simp] theorem busy_raiseError (e : ErrCode) : (s.raiseError e).busy = s.busy := rfl
@[simp] theorem busy_clearStatus (v : Word) : (s.clearStatus v).busy = s.busy := rfl
@[simp] theorem busy_respond (r : BusResponse) : (s.respond r).busy = s.busy := rfl
@[simp] theorem busy_setProgram (p : List HostOp) : (s.setProgram p).busy = s.busy := rfl
@[simp] theorem busy_setSchedule (t : List Turn) : (s.setSchedule t).busy = s.busy := rfl
@[simp] theorem busy_takeTurn : (takeTurn s).busy = s.busy := rfl
@[simp] theorem busy_finish : s.finish.busy = false := rfl
@[simp] theorem busy_startPredict : (startPredict s).busy = true := rfl
@[simp] theorem busy_startUnfilter : (startUnfilter s).busy = true := rfl
@[simp] theorem busy_predictFinish : (predictFinish s).busy = false := rfl
@[simp] theorem busy_advanceSerial : (advanceSerial s).busy = s.busy := rfl

/-! The operands, the checks and the selector do not see the acceptance head. -/

@[simp] theorem unfilterError_latchCommand (op : BitVec 4) (fg : Bool) :
    (s.latchCommand op fg).unfilterError = s.unfilterError := rfl
@[simp] theorem opWidth_latchCommand (op : BitVec 4) (fg : Bool) : (s.latchCommand op fg).opWidth = s.opWidth := rfl
@[simp] theorem opLen_latchCommand (op : BitVec 4) (fg : Bool) : (s.latchCommand op fg).opLen = s.opLen := rfl
@[simp] theorem selected_latchCommand (op : BitVec 4) (fg : Bool) :
    (s.latchCommand op fg).selected = selectPath s.params.hasFastpaths fg s.opWidth s.opLen := rfl

end

/-! A hazard or an effect (R207). -/

theorem whenIdle_busy {s : State} {e : State → State} (h : s.busy = true) : s.whenIdle e = s.overrun := by
  simp [State.whenIdle, h]

theorem whenIdle_idle {s : State} {e : State → State} (h : s.busy = false) : s.whenIdle e = e s := by
  simp [State.whenIdle, h]

/-- No check fails exactly when the width is positive and the lengths are equal and fit (R171). -/
theorem unfilterError_eq_none {s : State} :
    s.unfilterError = none ↔ s.opWidth ≠ 0 ∧ s.opLen ≤ s.params.lmax ∧ s.opLen = s.opPrevLen := by
  unfold State.unfilterError
  split
  · simp_all
  · split
    · simp only [reduceCtorEq, false_iff]; omega
    · split
      · simp only [reduceCtorEq, false_iff]; omega
      · simp only [true_iff]; omega

/-! Everything `checkAndStart` can do (R171). -/

theorem checkAndStart_error {s : State} {code : ErrCode} (h : s.unfilterError = some code) :
    checkAndStart s = s.raiseError code := by simp [checkAndStart, h]

theorem checkAndStart_start {s : State} (h : s.unfilterError = none) : checkAndStart s = startUnfilter s := by
  simp [checkAndStart, h]

theorem checkAndStart_cases (s : State) :
    (∃ code, s.unfilterError = some code ∧ checkAndStart s = s.raiseError code) ∨
    (s.unfilterError = none ∧ checkAndStart s = startUnfilter s) := by
  cases h : s.unfilterError with
  | none => exact .inr ⟨rfl, checkAndStart_start h⟩
  | some code => exact .inl ⟨code, rfl, checkAndStart_error h⟩

/-- The effect of a command word once it is not a hazard: what acceptance does to an idle state (R171). -/
def acceptance : Instr → State → State
  | .predict fg, s => startPredict (s.latchCommand 0x1#4 fg)
  | .unfilter, s => checkAndStart (s.latchCommand 0x2#4 false)
  | .unfilterG, s => checkAndStart (s.latchCommand 0x2#4 true)
  | .unfilterW1, s => s
  | .unfilterW3, s => s
  | .unfilterW4, s => s
  | .unfilterGen _, s => s
  | .reserved0 fg, s => (s.latchCommand 0x0#4 fg).raiseError .badOp
  | .reserved3 fg, s => (s.latchCommand 0x3#4 fg).raiseError .badOp
  | .reserved4to7 op fg, s => (s.latchCommand (0b01#2 ++ op) fg).raiseError .badOp
  | .reserved8toF op fg, s => (s.latchCommand (0b1#1 ++ op) fg).raiseError .badOp

/-- Acceptance neither reads nor changes the outside. -/
theorem acceptance_setHost (i : Instr) (s : State) (h : HostSide) :
    acceptance i (s.setHost h) = (acceptance i s).setHost h := by
  have start : ∀ fg, checkAndStart ((s.setHost h).latchCommand 0x2#4 fg) =
      (checkAndStart (s.latchCommand 0x2#4 fg)).setHost h := fun fg => by
    rcases checkAndStart_cases (s.latchCommand 0x2#4 fg) with ⟨code, hc, e⟩ | ⟨hc, e⟩
    · rw [e, checkAndStart_error (s := (s.setHost h).latchCommand 0x2#4 fg) hc]
      rfl
    · rw [e, checkAndStart_start (s := (s.setHost h).latchCommand 0x2#4 fg) hc]
      rfl
  cases i with
  | unfilter => exact start false
  | unfilterG => exact start true
  | _ => rfl

/-- The seven commands in one equation. -/
theorem exec_command {i : Instr} (h : i.wellFormed = true) (s : State) :
    exec i s = .next (s.whenIdle (acceptance i)) := by
  cases i <;> first | rfl | simp [Instr.wellFormed] at h

theorem exec_command_busy {i : Instr} (h : i.wellFormed = true) {s : State} (hb : s.busy = true) :
    exec i s = .next s.overrun := by rw [exec_command h, whenIdle_busy hb]

theorem exec_command_idle {i : Instr} (h : i.wellFormed = true) {s : State} (hb : s.busy = false) :
    exec i s = .next (acceptance i s) := by rw [exec_command h, whenIdle_idle hb]

/-- The three ends of an accepted command word: it starts, or it is rejected with a code (R171–R173). -/
theorem acceptance_cases {i : Instr} (h : i.wellFormed = true) (s : State) :
    (∃ code, acceptance i s = (s.latchCommand i.op i.fg).raiseError code ∧ (i.op = 0x2#4 ∨ code = .badOp)) ∨
    (i.op = 0x1#4 ∧ acceptance i s = startPredict (s.latchCommand i.op i.fg)) ∨
    (i.op = 0x2#4 ∧ s.unfilterError = none ∧ acceptance i s = startUnfilter (s.latchCommand i.op i.fg)) := by
  cases i with
  | predict fg => exact .inr (.inl ⟨rfl, rfl⟩)
  | unfilter =>
    rcases checkAndStart_cases (s.latchCommand 0x2#4 false) with ⟨code, _, h⟩ | ⟨h0, h⟩
    · exact .inl ⟨code, h, .inl rfl⟩
    · exact .inr (.inr ⟨rfl, h0, h⟩)
  | unfilterG =>
    rcases checkAndStart_cases (s.latchCommand 0x2#4 true) with ⟨code, _, h⟩ | ⟨h0, h⟩
    · exact .inl ⟨code, h, .inl rfl⟩
    · exact .inr (.inr ⟨rfl, h0, h⟩)
  | unfilterW1 => simp [Instr.wellFormed] at h
  | unfilterW3 => simp [Instr.wellFormed] at h
  | unfilterW4 => simp [Instr.wellFormed] at h
  | unfilterGen _ => simp [Instr.wellFormed] at h
  | reserved0 fg => exact .inl ⟨.badOp, rfl, .inr rfl⟩
  | reserved3 fg => exact .inl ⟨.badOp, rfl, .inr rfl⟩
  | reserved4to7 op fg => exact .inl ⟨.badOp, rfl, .inr rfl⟩
  | reserved8toF op fg => exact .inl ⟨.badOp, rfl, .inr rfl⟩

end Sys2Proof.Machine
end

