-- ==== Sys2Proof/Laws/Memory.lean ====
section
/-! SUPPORT. The laws of the row buffers: read after write, and the canonical form kept by every operation. -/

namespace Sys2Proof.Machine

@[simp] theorem Memory.read_nil (a : Nat) : Memory.read [] a = none := rfl

theorem Memory.read_cons (k : Nat) (x : Byte) (m : Memory) (a : Nat) :
    Memory.read ((k, x) :: m) a = if k = a then some x else Memory.read m a := rfl

@[simp] theorem Memory.read_write_same (m : Memory) (a : Nat) (v : Byte) : (m.write a v).read a = some v := by
  induction m with
  | nil => simp [Memory.write, Memory.read]
  | cons c rest ih =>
    obtain ⟨k, x⟩ := c
    unfold Memory.write
    split
    · simp [Memory.read]
    · split
      · simp [Memory.read]
      · rw [Memory.read_cons, if_neg (by omega), ih]

theorem Memory.read_write_other (m : Memory) {a b : Nat} (v : Byte) (h : b ≠ a) : (m.write a v).read b = m.read b := by
  induction m with
  | nil => simp [Memory.write, Memory.read, Ne.symm h, Memory.unlisted]
  | cons c rest ih =>
    obtain ⟨k, x⟩ := c
    unfold Memory.write
    split
    · rw [Memory.read_cons, if_neg (Ne.symm h)]
    · split
      next hk => subst hk; simp [Memory.read_cons, Ne.symm h]
      next => simp [Memory.read_cons, ih]

/-- Both laws in one. -/
theorem Memory.read_write (m : Memory) (a b : Nat) (v : Byte) :
    (m.write a v).read b = if b = a then some v else m.read b := by
  by_cases h : b = a
  · subst h; simp
  · simp [h, Memory.read_write_other]

/-- What a write leaves in the list: the new entry or an old one. -/
theorem Memory.mem_write {m : Memory} {a : Nat} {v : Byte} {c : Host.Cell} (h : c ∈ m.write a v) : c = (a, v) ∨ c ∈ m := by
  induction m with
  | nil => simpa [Memory.write] using h
  | cons d rest ih =>
    obtain ⟨k, x⟩ := d
    unfold Memory.write at h
    split at h
    · simpa using h
    · split at h
      · rcases List.mem_cons.1 h with h | h
        · exact .inl h
        · exact .inr (List.mem_cons_of_mem _ h)
      · rcases List.mem_cons.1 h with h | h
        · exact .inr (h ▸ List.mem_cons_self)
        · rcases ih h with h | h
          · exact .inl h
          · exact .inr (List.mem_cons_of_mem _ h)

theorem Memory.write_wf {m : Memory} (a : Nat) (v : Byte) (h : m.wf) : (m.write a v).wf := by
  induction m with
  | nil => simp [Memory.write, Memory.wf]
  | cons d rest ih =>
    obtain ⟨k, x⟩ := d
    obtain ⟨hk, hrest⟩ := List.pairwise_cons.1 h
    unfold Memory.write
    split
    next hlt =>
      refine List.pairwise_cons.2 ⟨?_, h⟩
      intro c hc
      rcases List.mem_cons.1 hc with rfl | hc
      · exact hlt
      · exact Nat.lt_trans hlt (hk c hc)
    · split
      next heq => exact List.pairwise_cons.2 ⟨fun c hc => heq ▸ hk c hc, hrest⟩
      next =>
        refine List.pairwise_cons.2 ⟨?_, ih hrest⟩
        intro c hc
        rcases Memory.mem_write hc with rfl | hc
        · show k < a
          omega
        · exact hk c hc

theorem Memory.write_below {m : Memory} {a n : Nat} (v : Byte) (h : m.below n) (ha : a < n) : (m.write a v).below n := by
  intro c hc
  rcases Memory.mem_write hc with rfl | hc
  · exact ha
  · exact h c hc

theorem Memory.write32_wf {m : Memory} (a : Nat) (w : Word) (h : m.wf) : (m.write32 a w).wf :=
  Memory.write_wf _ _ (Memory.write_wf _ _ (Memory.write_wf _ _ (Memory.write_wf _ _ h)))

theorem Memory.write32_below {m : Memory} {a n : Nat} (w : Word) (h : m.below n) (ha : a + 3 < n) :
    (m.write32 a w).below n :=
  Memory.write_below _ (Memory.write_below _ (Memory.write_below _ (Memory.write_below _ h (by omega)) (by omega))
    (by omega)) ha

theorem Memory.read_write32 (m : Memory) (a b : Nat) (w : Word) :
    (m.write32 a w).read b =
      if b = a + 3 then some (byteLane w 3)
      else if b = a + 2 then some (byteLane w 2)
      else if b = a + 1 then some (byteLane w 1)
      else if b = a then some (byteLane w 0)
      else m.read b := by
  simp only [Memory.write32, Memory.read_write]

theorem Memory.read32_ok {m : Memory} {a : Nat} {b0 b1 b2 b3 : Byte} (h0 : m.read a = some b0)
    (h1 : m.read (a + 1) = some b1) (h2 : m.read (a + 2) = some b2) (h3 : m.read (a + 3) = some b3) :
    m.read32 a = .ok (wordOfBytes b0 b1 b2 b3) := by
  simp only [Memory.read32, h0, h1, h2, h3]

/-- A 32-bit read that fails names one of its four positions, which is ⊥. -/
theorem Memory.read32_error {m : Memory} {a bad : Nat} (h : m.read32 a = .error bad) :
    (∃ n, n < 4 ∧ bad = a + n) ∧ m.read bad = none := by
  unfold Memory.read32 at h
  split at h
  next h0 => cases h; exact ⟨⟨0, by omega, rfl⟩, h0⟩
  · split at h
    next h1 => cases h; exact ⟨⟨1, by omega, rfl⟩, h1⟩
    · split at h
      next h2 => cases h; exact ⟨⟨2, by omega, rfl⟩, h2⟩
      · split at h
        next h3 => cases h; exact ⟨⟨3, by omega, rfl⟩, h3⟩
        · cases h

/-- A position below every listed one holds ⊥. -/
theorem Memory.read_none_of_lt {m : Memory} {a : Nat} (h : ∀ c ∈ m, a < c.1) : m.read a = none := by
  induction m with
  | nil => rfl
  | cons d rest ih =>
    obtain ⟨k, x⟩ := d
    have hk : a < k := h (k, x) List.mem_cons_self
    rw [Memory.read_cons, if_neg (by omega)]
    exact ih fun c hc => h c (List.mem_cons_of_mem _ hc)

/-- Canonical buffers that read alike are equal data. -/
theorem Memory.ext_of_wf {m n : Memory} (hm : m.wf) (hn : n.wf) (h : ∀ a, m.read a = n.read a) : m = n := by
  induction m generalizing n with
  | nil =>
    cases n with
    | nil => rfl
    | cons d rest =>
      obtain ⟨l, y⟩ := d
      simpa [Memory.read_cons] using h l
  | cons c ms ih =>
    obtain ⟨k, x⟩ := c
    cases n with
    | nil => simpa [Memory.read_cons] using h k
    | cons d ns =>
      obtain ⟨l, y⟩ := d
      obtain ⟨hk, hms⟩ := List.pairwise_cons.1 hm
      obtain ⟨hl, hns⟩ := List.pairwise_cons.1 hn
      have hkl : k = l := by
        rcases Nat.lt_trichotomy k l with hlt | heq | hgt
        · have h0 : Memory.read ((l, y) :: ns) k = none := Memory.read_none_of_lt fun c hc => by
            rcases List.mem_cons.1 hc with rfl | hc
            · exact hlt
            · exact Nat.lt_trans hlt (hl c hc)
          rw [← h k] at h0
          simp [Memory.read_cons] at h0
        · exact heq
        · have h0 : Memory.read ((k, x) :: ms) l = none := Memory.read_none_of_lt fun c hc => by
            rcases List.mem_cons.1 hc with rfl | hc
            · exact hgt
            · exact Nat.lt_trans hgt (hk c hc)
          rw [h l] at h0
          simp [Memory.read_cons] at h0
      subst hkl
      have hxy : x = y := by simpa [Memory.read_cons] using h k
      subst hxy
      congr 1
      refine ih hms hns fun a => ?_
      by_cases ha : k = a
      · subst ha
        rw [Memory.read_none_of_lt hk, Memory.read_none_of_lt hl]
      · simpa [Memory.read_cons, ha] using h a

end Sys2Proof.Machine
end

