-- ==== Sys2Proof/Laws/Engine.lean ====
section
/-! SUPPORT. Everything an engine step can do. -/

namespace Sys2Proof.Machine

/-- The state an element step leaves (41_unfilter.md R140), from the bytes it read. -/
def afterElement (j : Nat) (k : Fin 4) (b f : Byte) (s : State) : State :=
  (s.setCur (s.cur.write j ((paeth s.engine.pairA[k] b s.engine.pairC[k]).value + f))).setEngine
    { s.engine with
      pairA := s.engine.pairA.set k ((paeth s.engine.pairA[k] b s.engine.pairC[k]).value + f)
      pairC := s.engine.pairC.set k b }

theorem element_ok {j : Nat} {k : Fin 4} {s : State} {b f : Byte} (hb : s.prev.read j = some b)
    (hf : s.cur.read j = some f) : element j k s = .ok (afterElement j k b f s) := by
  unfold element
  rw [hb, hf]
  rfl

theorem element_prev_unwritten {j : Nat} {k : Fin 4} {s : State} (hb : s.prev.read j = none) :
    element j k s = .error (.uninit .prev j) := by
  unfold element
  rw [hb]

theorem element_cur_unwritten {j : Nat} {k : Fin 4} {s : State} {b : Byte} (hb : s.prev.read j = some b)
    (hf : s.cur.read j = none) : element j k s = .error (.uninit .cur j) := by
  unfold element
  rw [hb, hf]

/-- An element step is one of three things. -/
theorem element_cases (j : Nat) (k : Fin 4) (s : State) :
    (∃ b f, s.prev.read j = some b ∧ s.cur.read j = some f ∧ element j k s = .ok (afterElement j k b f s)) ∨
    (s.prev.read j = none ∧ element j k s = .error (.uninit .prev j)) ∨
    (s.cur.read j = none ∧ element j k s = .error (.uninit .cur j)) := by
  cases hb : s.prev.read j with
  | none => exact .inr (.inl ⟨rfl, element_prev_unwritten hb⟩)
  | some b =>
    cases hf : s.cur.read j with
    | none => exact .inr (.inr ⟨rfl, element_cur_unwritten hb hf⟩)
    | some f => exact .inl ⟨b, f, rfl, rfl, element_ok hb hf⟩

theorem running_iff {s : State} {p : FilterPath} :
    s.running p = true ↔ s.engine.phase = .runUnfilter ∧ s.engine.path = p := by
  simp [State.running]

/-- Where a path's next element step is, and what that says of the sequencer (R136–R139). -/
theorem nextPosition_eq_some {p : FilterPath} {s : State} {j : Nat} :
    nextPosition p s = some j ↔
      j = s.engine.j ∧ (if p = .gen then s.engine.i < min s.opWidth s.opLen else s.engine.j < s.opLen) := by
  cases p <;> simp only [nextPosition, reduceCtorEq, if_false, if_true] <;> split <;> simp_all [eq_comm]

/-- When a path's next step is Finish. -/
theorem nextPosition_eq_none {p : FilterPath} {s : State} :
    nextPosition p s = none ↔
      (if p = .gen then min s.opWidth s.opLen ≤ s.engine.i else s.opLen ≤ s.engine.j) := by
  cases p <;> simp only [nextPosition, reduceCtorEq, if_false, if_true] <;> split <;> simp_all <;> omega

/-! The four path forms are one operation. -/

theorem exec_instr (p : FilterPath) (fg : Bool) (s : State) : exec (p.instr fg) s = pathStep p s := by
  cases p <;> rfl

theorem pathStep_rest {p : FilterPath} {s : State} (h : s.running p = false) : pathStep p s = .next s := by
  simp [pathStep, h]

theorem pathStep_finish {p : FilterPath} {s : State} (h : s.running p = true) (hn : nextPosition p s = none) :
    pathStep p s = .next s.finish := by
  simp [pathStep, h, hn]

theorem pathStep_element {p : FilterPath} {s : State} {j : Nat} {b f : Byte} (h : s.running p = true)
    (hn : nextPosition p s = some j) (hb : s.prev.read j = some b) (hf : s.cur.read j = some f) :
    pathStep p s = .next (advance p (afterElement j (pairOf p j) b f s)) := by
  simp [pathStep, h, hn, element_ok hb hf]

/-- One step of a path is one of four things: no step, the finish step, an element step, or the UNINIT fault. -/
theorem pathStep_cases (p : FilterPath) (s : State) :
    (s.running p = false ∧ pathStep p s = .next s) ∨
    (s.running p = true ∧ nextPosition p s = none ∧ pathStep p s = .next s.finish) ∨
    (s.running p = true ∧ ∃ j b f, nextPosition p s = some j ∧ s.prev.read j = some b ∧ s.cur.read j = some f ∧
      pathStep p s = .next (advance p (afterElement j (pairOf p j) b f s))) ∨
    (s.running p = true ∧ ∃ j buf, nextPosition p s = some j ∧ (s.buffer buf).read j = none ∧
      pathStep p s = .fault (.uninit buf j)) := by
  cases h : s.running p with
  | false => exact .inl ⟨rfl, pathStep_rest h⟩
  | true =>
    refine .inr ?_
    cases hn : nextPosition p s with
    | none => exact .inl ⟨rfl, rfl, pathStep_finish h hn⟩
    | some j =>
      refine .inr ?_
      rcases element_cases j (pairOf p j) s with ⟨b, f, hb, hf, _⟩ | ⟨hb, he⟩ | ⟨hf, he⟩
      · exact .inl ⟨rfl, j, b, f, rfl, hb, hf, pathStep_element h hn hb hf⟩
      · exact .inr ⟨rfl, j, .prev, rfl, hb, by simp [pathStep, h, hn, he]⟩
      · exact .inr ⟨rfl, j, .cur, rfl, hf, by simp [pathStep, h, hn, he]⟩

/-! What an element step changes: CUR at `j`, the pair `k`, nothing else. -/

section
variable (j : Nat) (k : Fin 4) (b f : Byte) (s : State)

@[simp] theorem afterElement_params : (afterElement j k b f s).params = s.params := rfl
@[simp] theorem afterElement_cmd : (afterElement j k b f s).cmd = s.cmd := rfl
@[simp] theorem afterElement_status : (afterElement j k b f s).status = s.status := rfl
@[simp] theorem afterElement_intEn : (afterElement j k b f s).intEn = s.intEn := rfl
@[simp] theorem afterElement_width : (afterElement j k b f s).width = s.width := rfl
@[simp] theorem afterElement_len : (afterElement j k b f s).len = s.len := rfl
@[simp] theorem afterElement_prevLen : (afterElement j k b f s).prevLen = s.prevLen := rfl
@[simp] theorem afterElement_predIn : (afterElement j k b f s).predIn = s.predIn := rfl
@[simp] theorem afterElement_predOut : (afterElement j k b f s).predOut = s.predOut := rfl
@[simp] theorem afterElement_predDist : (afterElement j k b f s).predDist = s.predDist := rfl
@[simp] theorem afterElement_prev : (afterElement j k b f s).prev = s.prev := rfl
@[simp] theorem afterElement_host : (afterElement j k b f s).host = s.host := rfl
@[simp] theorem afterElement_phase : (afterElement j k b f s).engine.phase = s.engine.phase := rfl
@[simp] theorem afterElement_path : (afterElement j k b f s).engine.path = s.engine.path := rfl
@[simp] theorem afterElement_i : (afterElement j k b f s).engine.i = s.engine.i := rfl
@[simp] theorem afterElement_j : (afterElement j k b f s).engine.j = s.engine.j := rfl
@[simp] theorem afterElement_cur : (afterElement j k b f s).cur =
    s.cur.write j ((paeth s.engine.pairA[k] b s.engine.pairC[k]).value + f) := rfl
@[simp] theorem afterElement_opWidth : (afterElement j k b f s).opWidth = s.opWidth := rfl
@[simp] theorem afterElement_opLen : (afterElement j k b f s).opLen = s.opLen := rfl
end

/-! What moving on changes: the sequencer and, in GEN, pair 0. -/

/-- Moving on touches the engine only. -/
theorem advance_eq_setEngine (p : FilterPath) (s : State) : advance p s = s.setEngine (advance p s).engine := by
  cases p
  case gen =>
    simp only [advance, advanceGen]
    split <;> rfl
  all_goals rfl

@[simp] theorem advance_phase (p : FilterPath) (s : State) : (advance p s).engine.phase = s.engine.phase := by
  cases p
  case gen =>
    simp only [advance, advanceGen]
    split <;> rfl
  all_goals rfl

@[simp] theorem advance_path (p : FilterPath) (s : State) : (advance p s).engine.path = s.engine.path := by
  cases p
  case gen =>
    simp only [advance, advanceGen]
    split <;> rfl
  all_goals rfl

section
variable (p : FilterPath) (s : State)
@[simp] theorem advance_params : (advance p s).params = s.params := by rw [advance_eq_setEngine]; rfl
@[simp] theorem advance_cmd : (advance p s).cmd = s.cmd := by rw [advance_eq_setEngine]; rfl
@[simp] theorem advance_status : (advance p s).status = s.status := by rw [advance_eq_setEngine]; rfl
@[simp] theorem advance_intEn : (advance p s).intEn = s.intEn := by rw [advance_eq_setEngine]; rfl
@[simp] theorem advance_width : (advance p s).width = s.width := by rw [advance_eq_setEngine]; rfl
@[simp] theorem advance_len : (advance p s).len = s.len := by rw [advance_eq_setEngine]; rfl
@[simp] theorem advance_prevLen : (advance p s).prevLen = s.prevLen := by rw [advance_eq_setEngine]; rfl
@[simp] theorem advance_predIn : (advance p s).predIn = s.predIn := by rw [advance_eq_setEngine]; rfl
@[simp] theorem advance_predOut : (advance p s).predOut = s.predOut := by rw [advance_eq_setEngine]; rfl
@[simp] theorem advance_predDist : (advance p s).predDist = s.predDist := by rw [advance_eq_setEngine]; rfl
@[simp] theorem advance_cur : (advance p s).cur = s.cur := by rw [advance_eq_setEngine]; rfl
@[simp] theorem advance_prev : (advance p s).prev = s.prev := by rw [advance_eq_setEngine]; rfl
@[simp] theorem advance_host : (advance p s).host = s.host := by rw [advance_eq_setEngine]; rfl
@[simp] theorem advance_busy : (advance p s).busy = s.busy := busy_congr (advance_phase p s)
@[simp] theorem advance_opWidth : (advance p s).opWidth = s.opWidth := by simp [State.opWidth]
@[simp] theorem advance_opLen : (advance p s).opLen = s.opLen := by simp [State.opLen]
end

/-- The engine's turn is one of four things (10_state.md R20; R119; R136–R139). -/
theorem engineTurn_cases (s : State) :
    (s.engine.phase = .idle ∧ engineTurn s = .next s) ∨
    (s.engine.phase = .runPredict ∧ engineTurn s = .next (predictFinish s)) ∨
    (s.engine.phase = .runUnfilter ∧ engineTurn s = pathStep s.engine.path s) := by
  cases h : s.engine.phase with
  | idle => exact .inl ⟨rfl, by simp [engineTurn, h]⟩
  | runPredict => exact .inr (.inl ⟨rfl, by simp [engineTurn, h]⟩)
  | runUnfilter => exact .inr (.inr ⟨rfl, by simp [engineTurn, h, exec_instr]⟩)

/-- GEN along its channel (R136). -/
theorem advance_gen_along {s : State} (h : s.engine.j + s.opWidth < s.opLen) :
    advance .gen s = s.setEngine { s.engine with j := s.engine.j + s.opWidth } := by
  simp [advance, advanceGen, h]

/-- GEN at the end of a channel (R136). -/
theorem advance_gen_next {s : State} (h : s.opLen ≤ s.engine.j + s.opWidth) :
    advance .gen s = s.setEngine
      { s.engine with
        i := s.engine.i + 1
        j := s.engine.i + 1
        pairA := s.engine.pairA.set 0 0x00#8
        pairC := s.engine.pairC.set 0 0x00#8 } := by
  simp [advance, advanceGen, Nat.not_lt.2 h]

end Sys2Proof.Machine
end

