-- ==== Sys2Proof/Laws/Bus.lean ====
section
/-! SUPPORT. The device map and everything a host transaction can do. -/

namespace Sys2Proof.Machine

/-! ### LMAX -/

theorem lmax_pos (p : Params) : 0 < p.lmax := Nat.two_pow_pos p.k

/-- LMAX is a multiple of 256 for every K that R5 allows. -/
theorem lmax_eq_mul (p : Params) (h : p.valid) : p.lmax = 256 * 2 ^ (p.k - 8) := by
  have hk : p.k = 8 + (p.k - 8) := by have := h.1; omega
  unfold Params.lmax
  conv => lhs; rw [hk]
  rw [Nat.pow_add]

theorem lmax_ge (p : Params) (h : p.valid) : 256 ≤ p.lmax := by
  rw [lmax_eq_mul p h]
  have := Nat.two_pow_pos (p.k - 8)
  omega

theorem lmax_mod_four (p : Params) (h : p.valid) : p.lmax % 4 = 0 := by
  rw [lmax_eq_mul p h]
  omega

/-! ### The map (20_memory.md R61) -/

@[simp] theorem regAt_offset (r : Reg) : regAt r.offset = some r := by cases r <;> decide

theorem regAt_eq_some {off : Nat} {r : Reg} (h : regAt off = some r) : off = r.offset := by
  have := List.find?_some h
  exact (by simpa using this : r.offset = off).symm

theorem Reg.offset_lt (r : Reg) : r.offset < 0x28 := by cases r <;> decide

theorem Reg.offset_mod_four (r : Reg) : r.offset % 4 = 0 := by cases r <;> decide

theorem regAt_none_of_ge {off : Nat} (h : 0x28 ≤ off) : regAt off = none := by
  cases hr : regAt off with
  | none => rfl
  | some r => have := regAt_eq_some hr; have := r.offset_lt; omega

theorem regAt_none_of_unaligned {off : Nat} (h : off % 4 ≠ 0) : regAt off = none := by
  cases hr : regAt off with
  | none => rfl
  | some r => have := regAt_eq_some hr; have := r.offset_mod_four; omega

@[simp] theorem place_reg (p : Params) (r : Reg) : place p r.offset = .reg r := by
  have := r.offset_lt
  unfold place
  rw [if_pos (by omega), regAt_offset]

/-- A window byte's offset reaches that byte. -/
theorem place_window {p : Params} (hp : p.valid) (b : Buffer) {pos : Nat} (h : pos < p.lmax) :
    place p (windowOffset p b pos) = .window b pos := by
  have := lmax_ge p hp
  cases b
  · rw [show windowOffset p .cur pos = p.lmax + pos from rfl]
    unfold place
    rw [if_neg (by omega), if_neg (by omega), if_pos (by omega), Nat.add_sub_cancel_left]
  · rw [show windowOffset p .prev pos = 2 * p.lmax + pos from rfl]
    unfold place
    rw [if_neg (by omega), if_neg (by omega), if_neg (by omega), if_pos (by omega), Nat.add_sub_cancel_left]

theorem windowOffset_mod_four {p : Params} (hp : p.valid) (b : Buffer) (pos : Nat) :
    windowOffset p b pos % 4 = pos % 4 := by
  have := lmax_mod_four p hp
  cases b <;> simp only [windowOffset] <;> omega

/-- An offset that reaches a register is that register's. -/
theorem place_eq_reg {p : Params} {off : Nat} {r : Reg} (h : place p off = .reg r) : off = r.offset := by
  unfold place at h
  split at h
  · split at h
    next r' hr => cases h; exact regAt_eq_some hr
    next => cases h
  · repeat' split at h
    all_goals cases h

/-- A position reached through a window is one of the buffer's, and the offset is its own. -/
theorem place_eq_window {p : Params} {off pos : Nat} {b : Buffer} (h : place p off = .window b pos) :
    pos < p.lmax ∧ off = windowOffset p b pos := by
  unfold place at h
  split at h
  · split at h <;> cases h
  · split at h
    · cases h
    · split at h
      · cases h; simp only [windowOffset]; omega
      · split at h
        · cases h; simp only [windowOffset]; omega
        · cases h

/-! ### Transactions -/

/-- Everything a transaction can do to the block: nothing but answer (register reads, bus errors, idle window reads); OVR
(a hazard); one idle effect; a register that stays writable; or the UNINIT fault of an idle window read. -/
theorem transact_cases (t : Txn) (s : State) :
    (∃ r, transact t s = .next (s.respond r)) ∨
    (∃ r, s.busy = true ∧ transact t s = .next ((s.respond r).overrun)) ∨
    (∃ v, t = .wr32 0x04 v ∧ transact t s = exec (decodeWord v) (s.respond .written)) ∨
    (∃ v, t = .wr32 0x08 v ∧ transact t s = .next ((s.respond .written).clearStatus v)) ∨
    (∃ v, t = .wr32 0x0C v ∧ transact t s = .next ((s.respond .written).setIntEn (v.getLsbD 0))) ∨
    (s.busy = false ∧ ∃ v, t = .wr32 0x10 v ∧ transact t s = .next ((s.respond .written).setWidth (v.extractLsb' 0 16))) ∨
    (s.busy = false ∧ ∃ v, t = .wr32 0x14 v ∧ transact t s = .next ((s.respond .written).setLen v)) ∨
    (s.busy = false ∧ ∃ v, t = .wr32 0x18 v ∧ transact t s = .next ((s.respond .written).setPrevLen v)) ∨
    (s.busy = false ∧ ∃ v, t = .wr32 0x1C v ∧ transact t s = .next ((s.respond .written).setPredIn (predInOf v))) ∨
    (s.busy = false ∧ ∃ b pos v, pos < s.params.lmax ∧
      transact t s = .next ((s.respond .written).setBuffer b ((s.buffer b).write pos v))) ∨
    (s.busy = false ∧ ∃ b pos v, pos < s.params.lmax ∧ (s.params.valid → pos + 3 < s.params.lmax) ∧
      transact t s = .next ((s.respond .written).setBuffer b ((s.buffer b).write32 pos v))) ∨
    (s.busy = false ∧ ∃ b pos, (s.params.valid → pos < s.params.lmax) ∧ (s.buffer b).read pos = none ∧
      transact t s = .fault (.uninit b pos)) := by
  have fits : ∀ {off pos b}, place s.params off = .window b pos → off % 4 = 0 → s.params.valid →
      pos + 3 < s.params.lmax := by
    intro off pos b h h4 hv
    obtain ⟨hlt, hoff⟩ := place_eq_window h
    have h1 := windowOffset_mod_four hv b pos
    have h2 := lmax_mod_four s.params hv
    rw [← hoff] at h1
    omega
  cases t with
  | rd8 off =>
    cases hp : place s.params off with
    | reg r => exact .inl ⟨.readError, by simp [transact, hp, busError]⟩
    | nothing => exact .inl ⟨.readError, by simp [transact, hp, busError]⟩
    | window b pos =>
      cases hb : s.busy with
      | true => exact .inr (.inl ⟨.byte 0x00#8, rfl, by simp [transact, hp, windowRead8, hb]⟩)
      | false =>
        cases hr : (s.buffer b).read pos with
        | some v => exact .inl ⟨.byte v, by simp [transact, hp, windowRead8, hb, hr]⟩
        | none =>
          iterate 11 refine .inr ?_
          exact ⟨rfl, b, pos, fun _ => (place_eq_window hp).1, hr, by simp [transact, hp, windowRead8, hb, hr]⟩
  | wr8 off v =>
    cases hp : place s.params off with
    | reg r => exact .inl ⟨.writeError, by simp [transact, hp, busError]⟩
    | nothing => exact .inl ⟨.writeError, by simp [transact, hp, busError]⟩
    | window b pos =>
      cases hb : s.busy with
      | true =>
        exact .inr (.inl ⟨.written, rfl, by
          simp only [transact, hp, windowWrite8]; rw [whenIdle_busy (by simpa using hb)]⟩)
      | false =>
        iterate 9 refine .inr ?_
        refine .inl ⟨rfl, b, pos, v, (place_eq_window hp).1, ?_⟩
        simp only [transact, hp, windowWrite8]
        rw [whenIdle_idle (by simpa using hb)]
        cases b <;> rfl
  | rd32 off =>
    cases hp : place s.params off with
    | reg r => exact .inl ⟨.word (s.readReg r), by simp [transact, hp]⟩
    | nothing => exact .inl ⟨.readError, by simp [transact, hp, busError]⟩
    | window b pos =>
      by_cases h4 : off % 4 = 0
      · cases hb : s.busy with
        | true => exact .inr (.inl ⟨.word 0#32, rfl, by simp [transact, hp, h4, windowRead32, hb]⟩)
        | false =>
          cases hr : (s.buffer b).read32 pos with
          | ok v => exact .inl ⟨.word v, by simp [transact, hp, h4, windowRead32, hb, hr]⟩
          | error bad =>
            obtain ⟨⟨n, hn, rfl⟩, hbad⟩ := Memory.read32_error hr
            iterate 11 refine .inr ?_
            refine ⟨rfl, b, pos + n, fun hv => ?_, hbad, by simp [transact, hp, h4, windowRead32, hb, hr]⟩
            have := fits hp h4 hv
            omega
      · exact .inl ⟨.readError, by simp [transact, hp, h4, busError]⟩
  | wr32 off v =>
    cases hp : place s.params off with
    | nothing => exact .inl ⟨.writeError, by simp [transact, hp, busError]⟩
    | window b pos =>
      by_cases h4 : off % 4 = 0
      · cases hb : s.busy with
        | true =>
          exact .inr (.inl ⟨.written, rfl, by
            simp only [transact, hp, if_pos h4, windowWrite32]; rw [whenIdle_busy (by simpa using hb)]⟩)
        | false =>
          iterate 10 refine .inr ?_
          refine .inl ⟨rfl, b, pos, v, (place_eq_window hp).1, fits hp h4, ?_⟩
          simp only [transact, hp, if_pos h4, windowWrite32]
          rw [whenIdle_idle (by simpa using hb)]
          cases b <;> rfl
      · exact .inl ⟨.writeError, by simp [transact, hp, h4, busError]⟩
    | reg r =>
      obtain rfl := place_eq_reg hp
      have hb' : (s.respond .written).busy = s.busy := rfl
      cases r with
      | cap => exact .inl ⟨.written, by simp [transact, writeReg]⟩
      | predOut => exact .inl ⟨.written, by simp [transact, writeReg]⟩
      | predDist => exact .inl ⟨.written, by simp [transact, writeReg]⟩
      | cmd => exact .inr (.inr (.inl ⟨v, rfl, by simp [transact, writeReg]⟩))
      | status => exact .inr (.inr (.inr (.inl ⟨v, rfl, by simp [transact, writeReg]⟩)))
      | ctrl => exact .inr (.inr (.inr (.inr (.inl ⟨v, rfl, by simp [transact, writeReg]⟩))))
      | width =>
        cases hb : s.busy with
        | true => exact .inr (.inl ⟨.written, rfl, by simp [transact, writeReg, State.whenIdle, hb]⟩)
        | false =>
          iterate 5 refine .inr ?_
          exact .inl ⟨rfl, v, rfl, by simp [transact, writeReg, State.whenIdle, hb]⟩
      | len =>
        cases hb : s.busy with
        | true => exact .inr (.inl ⟨.written, rfl, by simp [transact, writeReg, State.whenIdle, hb]⟩)
        | false =>
          iterate 6 refine .inr ?_
          exact .inl ⟨rfl, v, rfl, by simp [transact, writeReg, State.whenIdle, hb]⟩
      | prevLen =>
        cases hb : s.busy with
        | true => exact .inr (.inl ⟨.written, rfl, by simp [transact, writeReg, State.whenIdle, hb]⟩)
        | false =>
          iterate 7 refine .inr ?_
          exact .inl ⟨rfl, v, rfl, by simp [transact, writeReg, State.whenIdle, hb]⟩
      | predIn =>
        cases hb : s.busy with
        | true => exact .inr (.inl ⟨.written, rfl, by simp [transact, writeReg, State.whenIdle, hb]⟩)
        | false =>
          iterate 8 refine .inr ?_
          exact .inl ⟨rfl, v, rfl, by simp [transact, writeReg, State.whenIdle, hb]⟩
  | otherSize off write => exact .inl ⟨_, rfl⟩

/-- While busy a transaction never stops the machine, and changes only the responses, STATUS's DONE and OVR, and INT_EN
(70_reset_and_hazards.md R207). -/
theorem transact_busy {t : Txn} {s : State} (h : s.busy = true) :
    ∃ st e resp, transact t s = .next (((s.setStatus st).setIntEn e).setHost resp) ∧ st.err = s.status.err ∧
      st.path = s.status.path ∧ resp.program = s.host.program ∧ resp.schedule = s.host.schedule ∧
      (s.status.done = false → st.done = false) := by
  rcases transact_cases t s with ⟨r, e⟩ | ⟨r, _, e⟩ | ⟨v, _, e⟩ | ⟨v, _, e⟩ | ⟨v, _, e⟩ | ⟨hb, _⟩ | ⟨hb, _⟩ | ⟨hb, _⟩ | ⟨hb, _⟩ |
    ⟨hb, _⟩ | ⟨hb, _⟩ | ⟨hb, _⟩
  · exact ⟨_, s.intEn, (s.respond r).host, e, rfl, rfl, rfl, rfl, id⟩
  · exact ⟨(s.respond r).overrun.status, s.intEn, (s.respond r).host, e, rfl, rfl, rfl, rfl, id⟩
  · rw [exec_command_busy (decodeWord_command v) (by simpa using h)] at e
    exact ⟨(s.respond .written).overrun.status, s.intEn, (s.respond .written).host, e, rfl, rfl, rfl, rfl, id⟩
  · exact ⟨((s.respond .written).clearStatus v).status, s.intEn, (s.respond .written).host, e, rfl, rfl, rfl, rfl,
      fun hd => by simp [hd]⟩
  · exact ⟨s.status, v.getLsbD 0, (s.respond .written).host, e, rfl, rfl, rfl, rfl, id⟩
  all_goals simp [h] at hb

end Sys2Proof.Machine
end

