-- ==== Sys2Proof/Laws/Predictor.lean ====
section
/-! SUPPORT. The predictor: its distances, their ranges (40_predictor.md R112), and its choice as one case split. -/

namespace Sys2Proof.Machine

theorem paeth_pa (a b c : Byte) : (paeth a b c).pa = (intOf b - intOf c).natAbs := by
  unfold paeth
  dsimp only
  split
  · rfl
  · split <;> rfl

theorem paeth_pb (a b c : Byte) : (paeth a b c).pb = (intOf a - intOf c).natAbs := by
  unfold paeth
  dsimp only
  split
  · rfl
  · split <;> rfl

theorem paeth_pc (a b c : Byte) : (paeth a b c).pc = ((intOf a - intOf c) + (intOf b - intOf c)).natAbs := by
  unfold paeth
  dsimp only
  split
  · rfl
  · split <;> rfl

/-- The choice, in terms of the distances the result carries (R113). -/
theorem paeth_choice (a b c : Byte) :
    ((paeth a b c).pa ≤ (paeth a b c).pb ∧ (paeth a b c).pa ≤ (paeth a b c).pc ∧
      (paeth a b c).value = a ∧ (paeth a b c).sel = .left) ∨
    (¬((paeth a b c).pa ≤ (paeth a b c).pb ∧ (paeth a b c).pa ≤ (paeth a b c).pc) ∧
      (paeth a b c).pb ≤ (paeth a b c).pc ∧ (paeth a b c).value = b ∧ (paeth a b c).sel = .above) ∨
    (¬((paeth a b c).pa ≤ (paeth a b c).pb ∧ (paeth a b c).pa ≤ (paeth a b c).pc) ∧
      ¬(paeth a b c).pb ≤ (paeth a b c).pc ∧ (paeth a b c).value = c ∧ (paeth a b c).sel = .aboveLeft) := by
  rw [paeth_pa, paeth_pb, paeth_pc]
  unfold paeth
  dsimp only
  split
  next h => exact .inl ⟨h.1, h.2, rfl, rfl⟩
  next h =>
    split
    next h2 => exact .inr (.inl ⟨h, h2, rfl, rfl⟩)
    next h2 => exact .inr (.inr ⟨h, h2, rfl, rfl⟩)

/-- The ranges of the distances: 0..255, 0..255, 0..510 (R112). -/
theorem paeth_ranges (a b c : Byte) :
    (paeth a b c).pa ≤ 255 ∧ (paeth a b c).pb ≤ 255 ∧ (paeth a b c).pc ≤ 510 := by
  rw [paeth_pa, paeth_pb, paeth_pc]
  have ha := a.isLt
  have hb := b.isLt
  have hc := c.isLt
  unfold intOf
  omega

/-- The distances survive PRED_DIST's 9-bit fields (10_state.md R31). -/
theorem predDist_fits (a b c : Byte) :
    (BitVec.ofNat 9 (paeth a b c).pa).toNat = (paeth a b c).pa ∧
    (BitVec.ofNat 9 (paeth a b c).pb).toNat = (paeth a b c).pb ∧
    (BitVec.ofNat 9 (paeth a b c).pc).toNat = (paeth a b c).pc := by
  obtain ⟨h1, h2, h3⟩ := paeth_ranges a b c
  simp only [BitVec.toNat_ofNat]
  omega

end Sys2Proof.Machine
end

