-- ==== Sys2Proof/Laws/Steps.lean ====
section
/-! SUPPORT. Everything a host turn and a step can do, and runs of steps. -/

namespace Sys2Proof.Machine

/-- The host's turn: nothing, one transaction with the program moved on, or one read with the program moved on or not. -/
theorem hostTurn_cases (s : State) :
    (s.host.program = [] ∧ hostTurn s = .next s) ∨
    (∃ t rest, s.host.program = .txn t :: rest ∧ hostTurn s = transact t (s.setProgram rest)) ∨
    (∃ off mask val rest, s.host.program = .poll off mask val :: rest ∧
      ((∃ t, transact (.rd32 off) s = .next t ∧
          (hostTurn s = .next (t.setProgram rest) ∨ hostTurn s = .next t)) ∨
        (∃ f, transact (.rd32 off) s = .fault f ∧ hostTurn s = .fault f) ∨
        (∃ r, transact (.rd32 off) s = .refused r ∧ hostTurn s = .refused r))) ∨
    (∃ off v rest, s.host.program = .wr8Last off :: rest ∧ hostTurn s = transact (.wr8 off v) (s.setProgram rest)) := by
  cases hp : s.host.program with
  | nil => exact .inl ⟨rfl, by simp [hostTurn, hp]⟩
  | cons op rest =>
    cases op with
    | txn t => exact .inr (.inl ⟨t, rest, rfl, by simp [hostTurn, hp]⟩)
    | wr8Last off => exact .inr (.inr (.inr ⟨off, _, rest, rfl, by simp only [hostTurn, hp]; rfl⟩))
    | poll off mask val =>
      refine .inr (.inr (.inl ⟨off, mask, val, rest, rfl, ?_⟩))
      cases ht : transact (.rd32 off) s with
      | next t =>
        refine .inl ⟨t, rfl, ?_⟩
        simp only [hostTurn, hp, ht, pollResult]
        split
        · exact .inl rfl
        · exact .inr rfl
      | fault f => exact .inr (.inl ⟨f, rfl, by simp [hostTurn, hp, ht]⟩)
      | refused r => exact .inr (.inr ⟨r, rfl, by simp [hostTurn, hp, ht]⟩)

/-- Everything a host turn can do to the block, apart from the outside's own bookkeeping. `op` is the line it performs. -/
inductive HostEffect (s : State) (op : Option HostOp) : State → Prop
  | none : HostEffect s op s
  | hazard (hb : s.busy = true) : HostEffect s op s.overrun
  | command (v : Word) (hb : s.busy = false) (hop : op = some (.txn (.wr32 0x04 v))) :
      HostEffect s op (acceptance (decodeWord v) s)
  | status (v : Word) (hop : op = some (.txn (.wr32 0x08 v))) : HostEffect s op (s.clearStatus v)
  | ctrl (e : Bool) : HostEffect s op (s.setIntEn e)
  | width (v : BitVec 16) (hb : s.busy = false) : HostEffect s op (s.setWidth v)
  | len (v : BitVec 32) (hb : s.busy = false) : HostEffect s op (s.setLen v)
  | prevLen (v : BitVec 32) (hb : s.busy = false) : HostEffect s op (s.setPrevLen v)
  | predIn (v : PredIn) (hb : s.busy = false) : HostEffect s op (s.setPredIn v)
  | byte (b : Buffer) (pos : Nat) (v : Byte) (hb : s.busy = false) (hpos : pos < s.params.lmax) :
      HostEffect s op (s.setBuffer b ((s.buffer b).write pos v))
  | word (b : Buffer) (pos : Nat) (v : Word) (hb : s.busy = false) (hpos : s.params.valid → pos + 3 < s.params.lmax) :
      HostEffect s op (s.setBuffer b ((s.buffer b).write32 pos v))

/-- A transaction that goes through has one of those effects; `s` is the state before the outside's bookkeeping `h`. -/
theorem transact_effect {t : Txn} {s u : State} {h : HostSide} {op : Option HostOp} (ht : transact t (s.setHost h) = .next u)
    (hop : op = some (.txn t) ∨ ∀ v, t ≠ .wr32 0x04 v ∧ t ≠ .wr32 0x08 v) :
    ∃ e h', HostEffect s op e ∧ u = e.setHost h' := by
  rcases transact_cases t (s.setHost h) with ⟨r, e⟩ | ⟨r, hb, e⟩ | ⟨v, hv, e⟩ | ⟨v, hv, e⟩ | ⟨v, hv, e⟩ |
    ⟨hb, v, hv, e⟩ | ⟨hb, v, hv, e⟩ | ⟨hb, v, hv, e⟩ | ⟨hb, v, hv, e⟩ | ⟨hb, b, pos, v, hp, e⟩ |
    ⟨hb, b, pos, v, _, hp, e⟩ | ⟨_, b, pos, _, _, e⟩ <;> rw [e] at ht
  · cases ht; exact ⟨s, _, .none, rfl⟩
  · cases ht; exact ⟨_, _, .hazard hb, rfl⟩
  · have hs : (s.setHost h).respond .written = s.setHost ((s.setHost h).respond .written).host := rfl
    cases hb : s.busy with
    | true =>
      rw [exec_command_busy (decodeWord_command v) (by simpa using hb)] at ht
      cases ht
      exact ⟨_, _, .hazard hb, rfl⟩
    | false =>
      rw [exec_command_idle (decodeWord_command v) (by simpa using hb), hs, acceptance_setHost] at ht
      cases ht
      refine ⟨_, _, .command v hb ?_, rfl⟩
      rcases hop with hop | hop
      · rw [hop, hv]
      · exact absurd hv (hop v).1
  · cases ht
    refine ⟨_, _, .status v ?_, rfl⟩
    rcases hop with hop | hop
    · rw [hop, hv]
    · exact absurd hv (hop v).2
  · cases ht; exact ⟨_, _, .ctrl _, rfl⟩
  · cases ht; exact ⟨_, _, .width _ hb, rfl⟩
  · cases ht; exact ⟨_, _, .len _ hb, rfl⟩
  · cases ht; exact ⟨_, _, .prevLen _ hb, rfl⟩
  · cases ht; exact ⟨_, _, .predIn _ hb, rfl⟩
  · cases ht
    cases b
    · exact ⟨_, _, .byte .cur pos v hb hp, rfl⟩
    · exact ⟨_, _, .byte .prev pos v hb hp, rfl⟩
  · cases ht
    cases b
    · exact ⟨_, _, .word .cur pos v hb hp, rfl⟩
    · exact ⟨_, _, .word .prev pos v hb hp, rfl⟩
  · cases ht

/-- A host turn that goes through has one of those effects, and then the outside's bookkeeping. -/
theorem hostTurn_effect {s u : State} {h : HostSide} (ht : hostTurn (s.setHost h) = .next u) :
    ∃ e h', HostEffect s h.program.head? e ∧ u = e.setHost h' := by
  rcases hostTurn_cases (s.setHost h) with ⟨_, e⟩ | ⟨t, rest, hp, e⟩ | ⟨off, mask, val, rest, hp, hh⟩ |
    ⟨off, v, rest, hp, e⟩
  · rw [e] at ht; cases ht; exact ⟨s, h, .none, rfl⟩
  · rw [e] at ht
    have hp' : h.program = .txn t :: rest := hp
    exact transact_effect (h := { h with program := rest }) ht (.inl (by rw [hp']; rfl))
  · rcases hh with ⟨t, e1, e2⟩ | ⟨f, _, e2⟩ | ⟨r, _, e2⟩
    · obtain ⟨e, h', he, rfl⟩ := transact_effect (op := h.program.head?) e1 (.inr (by simp))
      rcases e2 with e2 | e2 <;> rw [e2] at ht <;> cases ht
      · exact ⟨e, _, he, rfl⟩
      · exact ⟨e, h', he, rfl⟩
    · rw [e2] at ht; cases ht
    · rw [e2] at ht; cases ht
  · rw [e] at ht
    exact transact_effect (h := { h with program := rest }) ht (.inr (by simp))

theorem step_host {s : State} (h : nextTurn s = .host) : step s = hostTurn (takeTurn s) := by simp [step, h, runTurn]

theorem step_engine {s : State} (h : nextTurn s = .engine) : step s = engineTurn (takeTurn s) := by
  simp [step, h, runTurn]

theorem step_reset {s : State} (h : nextTurn s = .reset) : step s = .next (resetTurn (takeTurn s)) := by
  simp [step, h, runTurn]

/-- Everything a step that goes through can do: a host effect, an engine turn, or a reset. -/
theorem step_cases {s u : State} (h : step s = .next u) :
    (nextTurn s = .host ∧ ∃ e h', HostEffect s s.host.program.head? e ∧ u = e.setHost h') ∨
    (nextTurn s = .engine ∧ engineTurn (takeTurn s) = .next u) ∨
    (nextTurn s = .reset ∧ u = State.resetWith s.params (takeTurn s).host) := by
  cases ht : nextTurn s with
  | host => rw [step_host ht] at h; exact .inl ⟨rfl, hostTurn_effect (h := (takeTurn s).host) h⟩
  | engine => rw [step_engine ht] at h; exact .inr (.inl ⟨rfl, h⟩)
  | reset => rw [step_reset ht] at h; cases h; exact .inr (.inr ⟨rfl, rfl⟩)

/-- Past the end of the schedule a busy engine moves. -/
theorem nextTurn_busy {s : State} (h : s.host.schedule = []) (hb : s.busy = true) : nextTurn s = .engine := by
  simp [nextTurn, h, hb]

/-- Past the end of the schedule the host moves while the engine is idle. -/
theorem nextTurn_idle {s : State} (h : s.host.schedule = []) (hb : s.busy = false) : nextTurn s = .host := by
  simp [nextTurn, h, hb]

/-- While busy a host turn never stops the machine, and changes only the outside, STATUS's DONE and OVR, and INT_EN
(70_reset_and_hazards.md R207). -/
theorem hostTurn_busy {s : State} (hb : s.busy = true) :
    ∃ st e resp, hostTurn s = .next (((s.setStatus st).setIntEn e).setHost resp) ∧ st.err = s.status.err ∧
      st.path = s.status.path ∧ resp.schedule = s.host.schedule ∧ (s.status.done = false → st.done = false) := by
  rcases hostTurn_cases s with ⟨_, e⟩ | ⟨t, rest, hp, e⟩ | ⟨off, mask, val, rest, hp, hh⟩ | ⟨off, v, rest, hp, e⟩
  · exact ⟨s.status, s.intEn, s.host, e, rfl, rfl, rfl, id⟩
  · obtain ⟨st, e', resp, h1, h2, h3, h4, h5, h6⟩ := transact_busy (t := t) (s := s.setProgram rest) hb
    exact ⟨st, e', resp, e.trans h1, h2, h3, h5, h6⟩
  · obtain ⟨st, e', resp, h1, h2, h3, h4, h5, h6⟩ := transact_busy (t := .rd32 off) (s := s) hb
    rcases hh with ⟨t, e1, e2 | e2⟩ | ⟨f, e1, _⟩ | ⟨r, e1, _⟩
    · rw [h1] at e1; cases e1
      exact ⟨st, e', _, e2, h2, h3, h5, h6⟩
    · rw [h1] at e1; cases e1
      exact ⟨st, e', resp, e2, h2, h3, h5, h6⟩
    · rw [h1] at e1; cases e1
    · rw [h1] at e1; cases e1
  · obtain ⟨st, e', resp, h1, h2, h3, h4, h5, h6⟩ := transact_busy (t := .wr8 off v) (s := s.setProgram rest) hb
    exact ⟨st, e', resp, e.trans h1, h2, h3, h5, h6⟩

/-! ### Runs -/

@[simp] theorem runSteps_zero (s : State) : runSteps 0 s = .next s := rfl

theorem runSteps_succ {s t : State} (h : step s = .next t) (n : Nat) : runSteps (n + 1) s = runSteps n t := by
  have h' : Sys2Proof.core.step s = .next t := h
  simp only [runSteps, Host.Core.run, h']
  rfl

theorem runSteps_succ_fault {s : State} {f : Fault} (h : step s = .fault f) (n : Nat) :
    runSteps (n + 1) s = .fault f := by
  have h' : Sys2Proof.core.step s = .fault f := h
  simp only [runSteps, Host.Core.run, h']
  rfl

theorem runSteps_succ_refused {s : State} {r : Refusal} (h : step s = .refused r) (n : Nat) :
    runSteps (n + 1) s = .refused r := by
  have h' : Sys2Proof.core.step s = .refused r := h
  simp only [runSteps, Host.Core.run, h']
  rfl

/-- A run that goes through begins with a step that does. -/
theorem step_of_runSteps {s t : State} {n : Nat} (h : runSteps (n + 1) s = .next t) :
    ∃ u, step s = .next u ∧ runSteps n u = .next t := by
  cases hs : step s with
  | next u => exact ⟨u, rfl, by rwa [runSteps_succ hs] at h⟩
  | fault f => rw [runSteps_succ_fault hs] at h; cases h
  | refused r => rw [runSteps_succ_refused hs] at h; cases h

/-- A run is cut where one likes. -/
theorem runSteps_add {s t : State} {m : Nat} (h : runSteps m s = .next t) (n : Nat) :
    runSteps (m + n) s = runSteps n t := by
  induction m generalizing s with
  | zero => cases h; simp
  | succ m ih =>
    obtain ⟨u, hs, hu⟩ := step_of_runSteps h
    rw [Nat.succ_add, runSteps_succ hs]
    exact ih hu

/-- An invariant of steps is an invariant of runs. -/
theorem runSteps_invariant {P : State → Prop} (hstep : ∀ s t, P s → step s = .next t → P t) {n : Nat} {s t : State}
    (hs : P s) (h : runSteps n s = .next t) : P t := by
  induction n generalizing s with
  | zero => cases h; exact hs
  | succ n ih =>
    obtain ⟨u, hu, ht⟩ := step_of_runSteps h
    exact ih (hstep s u hs hu) ht

end Sys2Proof.Machine
end

