-- ==== Sys2Proof/Laws/Rows.lean ====
section
/-! SUPPORT. How far an UNFILTER has come: the loop invariant of its element steps and the count of positions left. -/

namespace Sys2Proof.Machine

/-- The width a path is selected for (R134). -/
def FilterPath.fits (p : FilterPath) (w : Nat) : Prop :=
  match p with
  | .w1 => w = 1
  | .w3 => w = 3
  | .w4 => w = 4
  | .gen => 0 < w

/-- Position `x` is still to be reconstructed when the sequencer of a path stands at (i, j) (R136–R139). -/
def undone (p : FilterPath) (w i j x : Nat) : Prop :=
  match p with
  | .gen => i < x % w ∨ (x % w = i ∧ j ≤ x)
  | .w1 => j ≤ x
  | .w3 => j ≤ x
  | .w4 => j ≤ x

/-- Position `x` is the next of its channel and its pair is running (R133). -/
def inFlight (p : FilterPath) (w j x : Nat) : Prop :=
  match p with
  | .gen => x = j
  | .w1 => j ≤ x ∧ x < j + w
  | .w3 => j ≤ x ∧ x < j + w
  | .w4 => j ≤ x ∧ x < j + w

/-- The byte one pixel to the left, 0 at the channel's first position (R131). -/
def leftOf (w : Nat) (R : Nat → Byte) (x : Nat) : Byte := if w ≤ x then R (x - w) else 0x00#8

/-- An UNFILTER under way (41_unfilter.md R132, R133): done positions hold `R`, the others still hold `F`, and a running
pair holds the values one pixel to the left. -/
structure RowProgress (F P R : Nat → Byte) (w l : Nat) (p : FilterPath) (u : State) : Prop where
  phase : u.engine.phase = .runUnfilter
  path : u.engine.path = p
  width : u.opWidth = w
  len : u.opLen = l
  prev : ∀ x, x < l → u.prev.read x = some (P x)
  todo : ∀ x, x < l → undone p w u.engine.i u.engine.j x → u.cur.read x = some (F x)
  done : ∀ x, x < l → ¬undone p w u.engine.i u.engine.j x → u.cur.read x = some (R x)
  pairs : (nextPosition p u).isSome = true → ∀ x, inFlight p w u.engine.j x →
    u.engine.pairA[pairOf p x] = leftOf w R x ∧ u.engine.pairC[pairOf p x] = leftOf w P x
  seq : u.sequencerInRow

theorem undone_serial {p : FilterPath} (h : p ≠ .gen) {w i j x : Nat} : undone p w i j x ↔ j ≤ x := by
  cases p <;> first | exact Iff.rfl | exact absurd rfl h

theorem inFlight_serial {p : FilterPath} (h : p ≠ .gen) {w j x : Nat} : inFlight p w j x ↔ j ≤ x ∧ x < j + w := by
  cases p <;> first | exact Iff.rfl | exact absurd rfl h

theorem pairOf_serial {p : FilterPath} (h : p ≠ .gen) {w : Nat} (hw : p.fits w) (x : Nat) : (pairOf p x).val = x % w := by
  cases p
  case w1 => cases hw; simp [pairOf, Nat.mod_one]
  case w3 => cases hw; rfl
  case w4 => cases hw; rfl
  case gen => exact absurd rfl h

theorem fits_pos {p : FilterPath} {w : Nat} (hw : p.fits w) : 0 < w := by
  cases p <;> simp only [FilterPath.fits] at hw <;> omega

theorem seq_serial {u : State} (h : u.engine.path ≠ .gen) : u.sequencerInRow ↔ u.engine.j ≤ u.opLen := by
  unfold State.sequencerInRow
  cases hp : u.engine.path <;> first | exact Iff.rfl | exact absurd hp h

theorem seq_gen {u : State} (h : u.engine.path = .gen) : u.sequencerInRow ↔ u.engine.i ≤ min u.opWidth u.opLen ∧
      (u.engine.i < min u.opWidth u.opLen → u.engine.j < u.opLen ∧ u.engine.j % u.opWidth = u.engine.i) := by
  unfold State.sequencerInRow
  rw [h]

variable {F P R : Nat → Byte} {w l : Nat} {p : FilterPath} {u : State}


theorem advance_serial (h : p ≠ .gen) (s : State) : advance p s = s.setEngine { s.engine with j := s.engine.j + 1 } := by
  cases p <;> first | rfl | exact absurd rfl h

theorem next_serial (h : p ≠ .gen) {j : Nat} : nextPosition p u = some j ↔ j = u.engine.j ∧ u.engine.j < u.opLen := by
  rw [nextPosition_eq_some, if_neg h]

theorem next_gen {j : Nat} : nextPosition .gen u = some j ↔ j = u.engine.j ∧ u.engine.i < min u.opWidth u.opLen := by
  rw [nextPosition_eq_some, if_pos rfl]

theorem RowProgress.step_serial (hp : p ≠ .gen) (hw : p.fits w) (hR : RowRecurrence w l F P R)
    (h : RowProgress F P R w l p u) {j : Nat} (hn : nextPosition p u = some j) :
    j < l ∧ RowProgress F P R w l p (advance p (afterElement j (pairOf p j) (P j) (F j) u)) ∧
    (∀ x, undone p w (advance p (afterElement j (pairOf p j) (P j) (F j) u)).engine.i
        (advance p (afterElement j (pairOf p j) (P j) (F j) u)).engine.j x ↔
      undone p w u.engine.i u.engine.j x ∧ x ≠ j) := by
  obtain ⟨rfl, hj⟩ := (next_serial hp).1 hn
  rw [h.len] at hj
  obtain ⟨hA, hC⟩ := h.pairs (by rw [hn]; rfl) u.engine.j
    ((inFlight_serial hp).2 ⟨Nat.le_refl _, by have := fits_pos hw; omega⟩)
  have hval : (paeth u.engine.pairA[pairOf p u.engine.j] (P u.engine.j) u.engine.pairC[pairOf p u.engine.j]).value +
      F u.engine.j = R u.engine.j := by
    rw [hA, hC]
    exact (hR _ hj).symm
  rw [advance_serial hp]
  have hund : ∀ x, undone p w u.engine.i (u.engine.j + 1) x ↔ undone p w u.engine.i u.engine.j x ∧ x ≠ u.engine.j := by
    intro x
    rw [undone_serial hp, undone_serial hp]
    omega
  refine ⟨hj, ⟨h.phase, h.path, h.width, h.len, h.prev, ?_, ?_, ?_, ?_⟩, hund⟩
  · intro x hx hu
    obtain ⟨hu, hne⟩ := (hund x).1 hu
    show ((u.cur.write _ _).read x) = _
    rw [Memory.read_write_other _ _ hne]
    exact h.todo x hx hu
  · intro x hx hu
    show ((u.cur.write _ _).read x) = _
    rw [Memory.read_write]
    split
    next he => subst he; rw [hval]
    next he => exact h.done x hx (fun hu' => hu ((hund x).2 ⟨hu', he⟩))
  · intro _ x hx
    obtain ⟨h1, h2⟩ := (inFlight_serial hp).1 hx
    have h1 : u.engine.j + 1 ≤ x := h1
    have h2 : x < u.engine.j + 1 + w := h2
    show (u.engine.pairA.set _ _)[pairOf p x] = _ ∧ (u.engine.pairC.set _ _)[pairOf p x] = _
    have e1 := pairOf_serial hp hw x
    have e2 := pairOf_serial hp hw u.engine.j
    by_cases hx : x = u.engine.j + w
    · have hk : (pairOf p x).val = (pairOf p u.engine.j).val := by rw [e1, e2, hx]; simp
      simp only [Fin.getElem_fin, hk] at hval ⊢
      subst hx
      simp only [Vector.getElem_set_self, leftOf, Nat.le_add_left, if_true, Nat.add_sub_cancel, hval, and_self]
    · have hk : (pairOf p u.engine.j).val ≠ (pairOf p x).val := by
        rw [e1, e2]
        intro he
        have hdvd : w ∣ x - u.engine.j := (Nat.modEq_iff_dvd' (by omega)).1 he
        have := Nat.le_of_dvd (by omega) hdvd
        omega
      obtain ⟨k1, k2⟩ := h.pairs (by rw [hn]; rfl) x ((inFlight_serial hp).2 ⟨by omega, by omega⟩)
      simp only [Fin.getElem_fin] at k1 k2 ⊢
      rw [Vector.getElem_set_ne _ _ hk, Vector.getElem_set_ne _ _ hk]
      exact ⟨k1, k2⟩
  · refine (seq_serial (by show u.engine.path ≠ _; rw [h.path]; exact hp)).2 ?_
    show u.engine.j + 1 ≤ u.opLen
    rw [h.len]
    exact hj

theorem RowProgress.step_gen (hR : RowRecurrence w l F P R) (hw : 0 < w)
    (h : RowProgress F P R w l .gen u) {j : Nat} (hn : nextPosition .gen u = some j) :
    j < l ∧ RowProgress F P R w l .gen (advance .gen (afterElement j (pairOf .gen j) (P j) (F j) u)) ∧
    (∀ x, x < l → (undone .gen w (advance .gen (afterElement j (pairOf .gen j) (P j) (F j) u)).engine.i
        (advance .gen (afterElement j (pairOf .gen j) (P j) (F j) u)).engine.j x ↔
      undone .gen w u.engine.i u.engine.j x ∧ x ≠ j)) := by
  obtain ⟨rfl, hi⟩ := next_gen.1 hn
  obtain ⟨hs1, hs2⟩ := (seq_gen h.path).1 h.seq
  rw [h.width, h.len] at hi hs1 hs2
  obtain ⟨hj, hm⟩ := hs2 hi
  obtain ⟨hA, hC⟩ := h.pairs (by rw [hn]; rfl) u.engine.j rfl
  have hval : (paeth u.engine.pairA[pairOf .gen u.engine.j] (P u.engine.j) u.engine.pairC[pairOf .gen u.engine.j]).value +
      F u.engine.j = R u.engine.j := by
    rw [hA, hC]
    exact (hR _ hj).symm
  -- what the move along a channel and the move to the next one have in common
  have common : ∀ v : State, v.engine.phase = .runUnfilter → v.engine.path = .gen → v.opWidth = w → v.opLen = l →
      v.prev = u.prev → v.cur = u.cur.write u.engine.j (R u.engine.j) →
      (∀ x, x < l → (undone .gen w v.engine.i v.engine.j x ↔ undone .gen w u.engine.i u.engine.j x ∧ x ≠ u.engine.j)) →
      (v.engine.i < min w l → v.engine.pairA[(0 : Fin 4)] = leftOf w R v.engine.j ∧
        v.engine.pairC[(0 : Fin 4)] = leftOf w P v.engine.j) →
      (v.engine.i ≤ min w l ∧ (v.engine.i < min w l → v.engine.j < l ∧ v.engine.j % w = v.engine.i)) →
      RowProgress F P R w l .gen v := by
    intro v v1 v2 v3 v4 v5 v6 v7 v8 v9
    refine ⟨v1, v2, v3, v4, ?_, ?_, ?_, ?_, ?_⟩
    · rw [v5]; exact h.prev
    · intro x hx hu
      obtain ⟨hu, hne⟩ := (v7 x hx).1 hu
      rw [v6, Memory.read_write_other _ _ hne]
      exact h.todo x hx hu
    · intro x hx hu
      rw [v6, Memory.read_write]
      split
      next he => subst he; rfl
      next he => exact h.done x hx (fun hu' => hu ((v7 x hx).2 ⟨hu', he⟩))
    · intro hs x hx
      obtain ⟨j', hj'⟩ := Option.isSome_iff_exists.1 hs
      obtain ⟨_, hi'⟩ := next_gen.1 hj'
      rw [v3, v4] at hi'
      cases (show x = v.engine.j from hx)
      exact v8 hi'
    · rw [seq_gen v2, v3, v4]; exact v9
  by_cases hl : u.engine.j + w < l
  · have hl' : u.engine.j + u.opWidth < u.opLen := by rw [h.width, h.len]; exact hl
    rw [advance_gen_along (by exact hl')]
    have e : u.engine.j + u.opWidth = u.engine.j + w := by rw [h.width]
    have hund : ∀ x, x < l → (undone .gen w u.engine.i (u.engine.j + u.opWidth) x ↔
        undone .gen w u.engine.i u.engine.j x ∧ x ≠ u.engine.j) := by
      intro x hx
      rw [e]
      show (u.engine.i < x % w ∨ (x % w = u.engine.i ∧ u.engine.j + w ≤ x)) ↔
        ((u.engine.i < x % w ∨ (x % w = u.engine.i ∧ u.engine.j ≤ x)) ∧ x ≠ u.engine.j)
      constructor
      · rintro (h1 | ⟨h1, h2⟩)
        · exact ⟨.inl h1, by rintro rfl; omega⟩
        · exact ⟨.inr ⟨h1, by omega⟩, by omega⟩
      · rintro ⟨h1 | ⟨h1, h2⟩, h3⟩
        · exact .inl h1
        · refine .inr ⟨h1, ?_⟩
          have hdvd : w ∣ x - u.engine.j := (Nat.modEq_iff_dvd' h2).1 (hm.trans h1.symm)
          have := Nat.le_of_dvd (by omega) hdvd
          omega
    refine ⟨hj, common _ h.phase h.path h.width h.len rfl (by show u.cur.write _ _ = _; rw [hval]) hund ?_ ?_, hund⟩
    · intro _
      show (u.engine.pairA.set _ _)[(0 : Fin 4)] = leftOf w R (u.engine.j + u.opWidth) ∧
        (u.engine.pairC.set _ _)[(0 : Fin 4)] = leftOf w P (u.engine.j + u.opWidth)
      rw [e, hval]
      simp [leftOf, pairOf]
    · refine ⟨hs1, fun _ => ?_⟩
      show u.engine.j + u.opWidth < l ∧ (u.engine.j + u.opWidth) % w = u.engine.i
      rw [e]
      exact ⟨hl, by simp [hm]⟩
  · have hl' : u.opLen ≤ u.engine.j + u.opWidth := by rw [h.width, h.len]; omega
    rw [advance_gen_next (by exact hl')]
    have hund : ∀ x, x < l → (undone .gen w (u.engine.i + 1) (u.engine.i + 1) x ↔
        undone .gen w u.engine.i u.engine.j x ∧ x ≠ u.engine.j) := by
      intro x hx
      show (u.engine.i + 1 < x % w ∨ (x % w = u.engine.i + 1 ∧ u.engine.i + 1 ≤ x)) ↔
        ((u.engine.i < x % w ∨ (x % w = u.engine.i ∧ u.engine.j ≤ x)) ∧ x ≠ u.engine.j)
      have hle := Nat.mod_le x w
      constructor
      · rintro (h1 | ⟨h1, h2⟩)
        · exact ⟨.inl (by omega), by rintro rfl; omega⟩
        · exact ⟨.inl (by omega), by rintro rfl; omega⟩
      · rintro ⟨h1 | ⟨h1, h2⟩, h3⟩
        · omega
        · exfalso
          have hdvd : w ∣ x - u.engine.j := (Nat.modEq_iff_dvd' h2).1 (hm.trans h1.symm)
          have := Nat.le_of_dvd (by omega) hdvd
          omega
    have hlt : u.engine.i + 1 < min w l → u.engine.i + 1 < w := by omega
    refine ⟨hj, common _ h.phase h.path h.width h.len rfl (by show u.cur.write _ _ = _; rw [hval]) hund ?_ ?_, hund⟩
    · intro hi'
      have hi' : u.engine.i + 1 < min w l := hi'
      show ((u.engine.pairA.set _ _).set 0 _)[(0 : Fin 4)] = leftOf w R (u.engine.i + 1) ∧
        ((u.engine.pairC.set _ _).set 0 _)[(0 : Fin 4)] = leftOf w P (u.engine.i + 1)
      have : ¬w ≤ u.engine.i + 1 := by omega
      simp [leftOf, this]
    · show u.engine.i + 1 ≤ min w l ∧ (u.engine.i + 1 < min w l → u.engine.i + 1 < l ∧ (u.engine.i + 1) % w = u.engine.i + 1)
      exact ⟨by omega, fun _ => ⟨by omega, Nat.mod_eq_of_lt (by omega)⟩⟩


/-- One element step, on any path. -/
theorem RowProgress.move (hw : p.fits w) (hR : RowRecurrence w l F P R)
    (h : RowProgress F P R w l p u) {j : Nat} (hn : nextPosition p u = some j) :
    j < l ∧ RowProgress F P R w l p (advance p (afterElement j (pairOf p j) (P j) (F j) u)) ∧
    (∀ x, x < l → (undone p w (advance p (afterElement j (pairOf p j) (P j) (F j) u)).engine.i
        (advance p (afterElement j (pairOf p j) (P j) (F j) u)).engine.j x ↔
      undone p w u.engine.i u.engine.j x ∧ x ≠ j)) := by
  by_cases hp : p = .gen
  · subst hp; exact h.step_gen hR hw hn
  · obtain ⟨h1, h2, h3⟩ := h.step_serial hp hw hR hn
    exact ⟨h1, h2, fun x _ => h3 x⟩

/-- A next position is itself still to be done. -/
theorem RowProgress.undone_next (h : RowProgress F P R w l p u) {j : Nat} (hn : nextPosition p u = some j) :
    undone p w u.engine.i u.engine.j j := by
  by_cases hp : p = .gen
  · subst hp
    obtain ⟨rfl, hi⟩ := next_gen.1 hn
    have := ((seq_gen h.path).1 h.seq).2 hi
    rw [h.width] at this
    exact .inr ⟨this.2, Nat.le_refl _⟩
  · obtain ⟨rfl, _⟩ := (next_serial hp).1 hn
    exact (undone_serial hp).2 (Nat.le_refl _)

/-- Where the next step is Finish, every position is done. -/
theorem RowProgress.all_done (hw : p.fits w) (h : RowProgress F P R w l p u) (hn : nextPosition p u = none) {x : Nat}
    (hx : x < l) : ¬undone p w u.engine.i u.engine.j x := by
  have hn := nextPosition_eq_none.1 hn
  rw [h.width, h.len] at hn
  by_cases hp : p = .gen
  · subst hp
    rw [if_pos rfl] at hn
    have h1 := Nat.mod_lt x (show w > 0 from hw)
    have h2 := Nat.mod_le x w
    rintro (h3 | ⟨h3, _⟩) <;> omega
  · rw [if_neg hp] at hn
    rw [undone_serial hp]
    omega

open Classical in
/-- How many positions are still to be done. -/
noncomputable def remaining (w l : Nat) (p : FilterPath) (u : State) : Nat :=
  ((Finset.range l).filter fun x => undone p w u.engine.i u.engine.j x).card

open Classical in
theorem RowProgress.remaining_step (hw : p.fits w) (hR : RowRecurrence w l F P R)
    (h : RowProgress F P R w l p u) {j : Nat} (hn : nextPosition p u = some j) :
    remaining w l p u = remaining w l p (advance p (afterElement j (pairOf p j) (P j) (F j) u)) + 1 := by
  obtain ⟨hj, _, h3⟩ := h.move hw hR hn
  unfold remaining
  rw [← Finset.card_erase_add_one (a := j) (by simp only [Finset.mem_filter, Finset.mem_range]; exact ⟨hj, h.undone_next hn⟩)]
  congr 2
  ext x
  simp only [Finset.mem_erase, Finset.mem_filter, Finset.mem_range]
  constructor
  · rintro ⟨a, b, c⟩; exact ⟨b, (h3 x b).2 ⟨c, a⟩⟩
  · rintro ⟨b, c⟩; exact ⟨((h3 x b).1 c).2, b, ((h3 x b).1 c).1⟩

open Classical in
theorem RowProgress.remaining_eq_zero (hw : p.fits w) (h : RowProgress F P R w l p u) :
    remaining w l p u = 0 ↔ nextPosition p u = none := by
  unfold remaining
  rw [Finset.card_eq_zero, Finset.filter_eq_empty_iff]
  constructor
  · intro h0
    cases hn : nextPosition p u with
    | none => rfl
    | some j =>
      have hj : j < l := by
        obtain ⟨rfl, hj⟩ := nextPosition_eq_some.1 hn
        rw [h.width, h.len] at hj
        by_cases hp : p = .gen
        · subst hp
          rw [if_pos rfl] at hj
          have := ((seq_gen h.path).1 h.seq).2 (by rw [h.width, h.len]; exact hj)
          rw [h.len] at this
          exact this.1
        · rwa [if_neg hp] at hj
      exact absurd (h.undone_next hn) (h0 (Finset.mem_range.2 hj))
  · intro hn x hx
    exact h.all_done hw hn (Finset.mem_range.1 hx)


/-- Progress sees the engine, the operands and the buffers only. -/
theorem RowProgress.congr {v : State} (h : RowProgress F P R w l p u) (he : v.engine = u.engine) (hw : v.width = u.width)
    (hl : v.len = u.len) (hp : v.prev = u.prev) (hc : v.cur = u.cur) : RowProgress F P R w l p v := by
  have hw' : v.opWidth = u.opWidth := by simp [State.opWidth, hw]
  have hl' : v.opLen = u.opLen := by simp [State.opLen, hl]
  refine ⟨by rw [he]; exact h.phase, by rw [he]; exact h.path, hw' ▸ h.width, hl' ▸ h.len, hp ▸ h.prev, ?_, ?_, ?_, ?_⟩
  · rw [he, hc]; exact h.todo
  · rw [he, hc]; exact h.done
  · have : nextPosition p v = nextPosition p u := by unfold nextPosition; rw [he, hw', hl']
    rw [he, this]; exact h.pairs
  · have := h.seq
    unfold State.sequencerInRow at *
    rw [he, hw', hl']; exact this

open Classical in
theorem remaining_congr {v : State} (he : v.engine = u.engine) : remaining w l p v = remaining w l p u := by
  unfold remaining; rw [he]

/-- The bytes an element step reads. -/
theorem RowProgress.reads (hw : p.fits w) (hR : RowRecurrence w l F P R) (h : RowProgress F P R w l p u) {j : Nat}
    (hn : nextPosition p u = some j) : u.prev.read j = some (P j) ∧ u.cur.read j = some (F j) := by
  obtain ⟨hj, _⟩ := h.move hw hR hn
  exact ⟨h.prev j hj, h.todo j hj (h.undone_next hn)⟩

/-- The engine's turn while positions remain. -/
theorem RowProgress.engineTurn_element (hw : p.fits w) (hR : RowRecurrence w l F P R) (h : RowProgress F P R w l p u)
    {j : Nat} (hn : nextPosition p u = some j) :
    engineTurn u = .next (advance p (afterElement j (pairOf p j) (P j) (F j) u)) := by
  obtain ⟨hb, hf⟩ := h.reads hw hR hn
  rcases engineTurn_cases u with ⟨e, _⟩ | ⟨e, _⟩ | ⟨_, e⟩
  · rw [h.phase] at e; cases e
  · rw [h.phase] at e; cases e
  · rw [e, h.path]
    exact pathStep_element (running_iff.2 ⟨h.phase, h.path⟩) hn hb hf

/-- The engine's turn when no position remains. -/
theorem RowProgress.engineTurn_finish (h : RowProgress F P R w l p u) (hn : nextPosition p u = none) :
    engineTurn u = .next u.finish := by
  rcases engineTurn_cases u with ⟨e, _⟩ | ⟨e, _⟩ | ⟨_, e⟩
  · rw [h.phase] at e; cases e
  · rw [h.phase] at e; cases e
  · rw [e, h.path]
    exact pathStep_finish (running_iff.2 ⟨h.phase, h.path⟩) hn

theorem RowProgress.busy (h : RowProgress F P R w l p u) : u.busy = true := by simp [busy_eq_true, h.phase]

theorem selectPath_fits (fast fg : Bool) {w : Nat} (hw : w ≠ 0) (l : Nat) : (selectPath fast fg w l).fits w := by
  unfold selectPath
  split
  · exact Nat.pos_of_ne_zero hw
  · split
    · assumption
    · split
      · exact (by assumption : w = 3 ∧ _).1
      · split
        · exact (by assumption : w = 4 ∧ _).1
        · exact Nat.pos_of_ne_zero hw

open Classical in
/-- Right after acceptance nothing is done and all positions remain (R142). -/
theorem rowProgress_start {s : State} {fg : Bool} (hr : s.unfilterReady) (hw : s.rowsWritten) :
    RowProgress (rowOf s.cur) (rowOf s.prev) R s.opWidth s.opLen
      (selectPath s.params.hasFastpaths fg s.opWidth s.opLen) (s.afterUnfilter fg) ∧
    remaining s.opWidth s.opLen (selectPath s.params.hasFastpaths fg s.opWidth s.opLen) (s.afterUnfilter fg) = s.opLen := by
  have hfit := selectPath_fits s.params.hasFastpaths fg hr.2.1 s.opLen
  generalize hp : selectPath s.params.hasFastpaths fg s.opWidth s.opLen = p at *
  have all : ∀ x, undone p s.opWidth 0 0 x := by
    intro x
    by_cases hg : p = .gen
    · subst hg
      by_cases h0 : x % s.opWidth = 0
      · exact .inr ⟨h0, Nat.zero_le _⟩
      · exact .inl (Nat.pos_of_ne_zero h0)
    · exact (undone_serial hg).2 (Nat.zero_le _)
  have read : ∀ (m : Memory) x, (m.read x).isSome = true → m.read x = some (rowOf m x) := by
    intro m x h
    obtain ⟨b, hb⟩ := Option.isSome_iff_exists.1 h
    simp [rowOf, hb]
  refine ⟨⟨rfl, hp, rfl, rfl, fun x hx => read _ _ (hw x hx).2, fun x hx _ => read _ _ (hw x hx).1,
    fun x _ hx => absurd (all x) hx, ?_, ?_⟩, ?_⟩
  · intro _ x hx
    have hx : inFlight p s.opWidth 0 x := hx
    have hx' : x < s.opWidth := by
      by_cases hg : p = .gen
      · subst hg; cases (show x = 0 from hx); exact hfit
      · have := ((inFlight_serial hg).1 hx).2; omega
    have : ¬s.opWidth ≤ x := by omega
    show (Vector.replicate 4 0x00#8)[pairOf p x] = _ ∧ (Vector.replicate 4 0x00#8)[pairOf p x] = _
    simp [leftOf, this]
  · by_cases hg : p = .gen
    · rw [seq_gen (by show selectPath _ _ _ _ = _; rw [hp, hg])]
      show 0 ≤ min s.opWidth s.opLen ∧ (0 < min s.opWidth s.opLen → 0 < s.opLen ∧ 0 % s.opWidth = 0)
      exact ⟨Nat.zero_le _, fun h => ⟨by omega, Nat.zero_mod _⟩⟩
    · rw [seq_serial (by show selectPath _ _ _ _ ≠ _; rw [hp]; exact hg)]
      exact Nat.zero_le _
  · unfold remaining
    exact (congrArg Finset.card (Finset.filter_true_of_mem (fun x _ => all x))).trans (Finset.card_range _)

/-- `n` engine turns with `n` positions left: progress, `n` positions fewer, and only CUR below L, the engine and the turns
change. -/
theorem RowProgress.run (hw : p.fits w) (hR : RowRecurrence w l F P R) (n : Nat) {u : State} {rest : List Turn}
    (h : RowProgress F P R w l p u) (hs : u.host.schedule = List.replicate n .engine ++ rest)
    (hn : n ≤ remaining w l p u) :
    ∃ v, runSteps n u = .next v ∧ RowProgress F P R w l p v ∧ remaining w l p v + n = remaining w l p u ∧
      v = ((u.setCur v.cur).setEngine v.engine).setSchedule rest ∧ (∀ x, l ≤ x → v.cur.read x = u.cur.read x) := by
  induction n generalizing u with
  | zero => exact ⟨u, rfl, h, rfl, by cases hs; rfl, fun _ _ => rfl⟩
  | succ n ih =>
    have h' : RowProgress F P R w l p (takeTurn u) := h.congr rfl rfl rfl rfl rfl
    have hrem' : remaining w l p (takeTurn u) = remaining w l p u := remaining_congr rfl
    cases hp : nextPosition p (takeTurn u) with
    | none => have := (h'.remaining_eq_zero hw).2 hp; omega
    | some j =>
      have hnt : nextTurn u = .engine := by simp [nextTurn, hs, List.replicate_succ]
      have hs' : (takeTurn u).host.schedule = List.replicate n .engine ++ rest := by
        show u.host.schedule.tail = _
        rw [hs]; rfl
      have hstep := h'.engineTurn_element hw hR hp
      rw [← step_engine hnt] at hstep
      obtain ⟨hj, hprog, _⟩ := h'.move hw hR hp
      have hrem := h'.remaining_step hw hR hp
      obtain ⟨v, h1, h2, h3, h4, h5⟩ := ih hprog (by simpa using hs') (by omega)
      refine ⟨v, by rw [runSteps_succ hstep]; exact h1, h2, by omega, ?_, ?_⟩
      · have keep : ∀ (x : State) e₀ c e, (((x.setEngine e₀).setCur c).setEngine e).setSchedule rest =
            ((x.setCur c).setEngine e).setSchedule rest := fun _ _ _ _ => rfl
        refine h4.trans ?_
        generalize v.engine = e
        generalize v.cur = c
        rw [advance_eq_setEngine, keep, afterElement, keep]
        rfl
      · intro x hx
        rw [h5 x hx, advance_cur, afterElement_cur, Memory.read_write_other _ _ (by omega)]
        rfl

end Sys2Proof.Machine
end

