-- ==== Sys2Proof/Tests/Slice0.lean ====
section
/-! SUPPORT. Tests with expected values from spec/95_test_vectors.md, and one witness for the hypotheses of each statement. -/

namespace Sys2Proof.Tests

open Sys2Proof Sys2Proof.Machine

/-! ### Small states -/

/-- The bytes of a list from a position on. -/
def row : Nat → List Byte → Memory
  | _, [] => []
  | a, b :: rest => (a, b) :: row (a + 1) rest

/-- The block idle with WIDTH = w, LEN = PREV_LEN = L, and the two rows written from position 0. -/
def idle (w l : Nat) (F P : List Byte) : State :=
  { State.reset with
    width := BitVec.ofNat 16 w
    len := BitVec.ofNat 32 l
    prevLen := BitVec.ofNat 32 l
    cur := row 0 F
    prev := row 0 P }

/-- The engine running a path at channel `i`, position `j`, its pair `k` holding (a, c). -/
def midRow (p : FilterPath) (i j : Nat) (k : Fin 4) (a c : Byte) (s : State) : State :=
  { s with
    cmd := { op := 0x2#4, fg := false }
    status := { s.status with path := some p }
    engine :=
      { phase := .runUnfilter, path := p, i := i, j := j
        pairA := (Vector.replicate 4 0x00#8).set k a
        pairC := (Vector.replicate 4 0x00#8).set k c } }

/-- PREDICT running on three operands. -/
def predicting (a b c : Byte) : State :=
  { State.reset with
    cmd := { op := 0x1#4, fg := false }
    predIn := { a := a, b := b, c := c }
    engine := { State.reset.engine with phase := .runPredict } }

/-- The state an outcome goes on to (the reset state where it stops). -/
def after : Host.Outcome State Fault Refusal → State
  | .next t => t
  | .fault _ => State.reset
  | .refused _ => State.reset

/-- The response to the last transaction. -/
def answer (o : Host.Outcome State Fault Refusal) : Option BusResponse := (after o).host.responses.head?

/-- A state with the given turns and host program. -/
def outside (turns : List Turn) (program : List HostOp) (s : State) : State :=
  s.setHost { schedule := turns, program := program, responses := [] }

/-- An UNFILTER (FG = 0) running on the row of U1, at its first position. -/
def runningW1 : State := (idle 1 3 [10, 10, 10] [0, 0, 0]).afterUnfilter false

/-! ### Well-formedness (30_encoding.md R97): a path form is no command -/

theorem test_w1_form_is_no_command : Instr.wellFormed .unfilterW1 = false := by decide
theorem test_w3_form_is_no_command : Instr.wellFormed .unfilterW3 = false := by decide
theorem test_w4_form_is_no_command : Instr.wellFormed .unfilterW4 = false := by decide
theorem test_gen_form_is_no_command : Instr.wellFormed (.unfilterGen true) = false := by decide

/-! ### Decoding: words written out from R90, `rrrr rrrr rrrr rrrr rrrr rrrF rrrr OOOO` -/

theorem test_decode_predict : decodeWord 0b0000_0000_0000_0000_0000_0000_0000_0001#32 = .predict false := by decide
theorem test_decode_predict_reserved_bits :
    decodeWord 0b1111_1111_1111_1111_1111_1111_1111_0001#32 = .predict true := by decide
theorem test_decode_unfilter : decodeWord 0b0000_0000_0000_0000_0000_0000_0000_0010#32 = .unfilter := by decide
theorem test_decode_unfilter_reserved_bits :
    decodeWord 0b1111_1111_1111_1111_1111_1110_1111_0010#32 = .unfilter := by decide
theorem test_decode_unfilterG : decodeWord 0b0000_0000_0000_0000_0000_0001_0000_0010#32 = .unfilterG := by decide
theorem test_decode_reserved0 : decodeWord 0b0000_0000_0000_0000_0000_0001_0000_0000#32 = .reserved0 true := by decide
theorem test_decode_reserved3 : decodeWord 0b0000_0000_0000_0000_0000_0001_0000_0011#32 = .reserved3 true := by decide
theorem test_decode_reserved4 :
    decodeWord 0b0000_0000_0000_0000_0000_0000_0000_0100#32 = .reserved4to7 0b00#2 false := by decide
theorem test_decode_reserved7 :
    decodeWord 0b0000_0000_0000_0000_0000_0000_0000_0111#32 = .reserved4to7 0b11#2 false := by decide
theorem test_decode_reserved8 :
    decodeWord 0b0000_0000_0000_0000_0000_0000_0000_1000#32 = .reserved8toF 0b000#3 false := by decide
theorem test_decode_reservedF :
    decodeWord 0b0000_0000_0000_0000_0000_0001_0000_1111#32 = .reserved8toF 0b111#3 true := by decide

/-- The word of the path forms is UNFILTER's (R97; log entry 2). -/
theorem test_decode_path_forms :
    decodeTableWord 32 0x00000002 = some .unfilter ∧ decodeTableWord 32 0x00000102 = some .unfilterG ∧
      encode .unfilterW1 = 0x00000002#32 ∧ encode .unfilterW3 = 0x00000002#32 ∧ encode .unfilterW4 = 0x00000002#32 ∧
      encode (.unfilterGen true) = 0x00000102#32 := by decide

/-- The four byte lanes of 0x00000102, lowest first (R63), and a byte that follows. -/
theorem test_decode_bytes : decode [0x02#8, 0x01#8, 0x00#8, 0x00#8, 0x55#8] = .ok (.unfilterG, [0x55#8]) := by rfl
theorem test_decode_truncated : decode [0x02#8, 0x01#8, 0x00#8] = .error (.truncated 3) := by rfl

/-! ### Reset (Z1, Z2, Z3, Z5) -/

theorem test_reset_cap :
    State.reset.readReg .cap = 0x01001001#32 ∧
    (State.resetWith { k := 16, hasFastpaths := false } State.reset.host).readReg .cap = 0x01001000#32 ∧
    (State.resetWith { k := 8, hasFastpaths := true } State.reset.host).readReg .cap = 0x01000801#32 := by decide

theorem test_reset_while_busy :
    (after (step (outside [.reset] [] runningW1))).readReg .status = 0x00000000#32 ∧
    (after (step (outside [.reset] [] runningW1))).cur = [] := by decide

/-! ### PREDICT (section 2.1) -/

/-- (60, 30, 50): above beats aboveLeft. -/
theorem test_predict_finish :
    (after (engineTurn (predicting 60 30 50))).readReg .predOut = 0x0000011E#32 ∧
    (after (engineTurn (predicting 60 30 50))).readReg .predDist = 0x00A02814#32 ∧
    (after (engineTurn (predicting 60 30 50))).readReg .status = 0x00000002#32 := by decide

/-- A15's acceptance: the earlier error is cleared; FG is stored (A4). -/
theorem test_predict_accepted :
    (after (exec (.predict true) ((idle 1 4 [] []).raiseError .lenMismatch))).readReg .status = 0x00000001#32 ∧
    (after (exec (.predict true) ((idle 1 4 [] []).raiseError .lenMismatch))).readReg .cmd = 0x00000101#32 := by decide

/-- (40, 60, 50) → aboveLeft; (30, 60, 50) → left; (255, 255, 0) → pc = 510; (0, 0, 255) → left; (100, 100, 50) → left. -/
theorem test_predictor_vectors :
    paeth 40 60 50 = { value := 50, sel := .aboveLeft, pa := 10, pb := 10, pc := 0 } ∧
    paeth 30 60 50 = { value := 30, sel := .left, pa := 10, pb := 20, pc := 10 } ∧
    paeth 255 255 0 = { value := 255, sel := .left, pa := 255, pb := 255, pc := 510 } ∧
    paeth 0 0 255 = { value := 0, sel := .left, pa := 255, pb := 255, pc := 510 } ∧
    paeth 128 64 192 = { value := 64, sel := .above, pa := 128, pb := 64, pc := 192 } ∧
    paeth 100 100 50 = { value := 100, sel := .left, pa := 50, pb := 50, pc := 100 } := by decide

/-! ### UNFILTER and UNFILTER.G: acceptance and rejection (section 2.3) -/

/-- A7: BAD_WIDTH wins over LEN_MISMATCH. -/
theorem test_unfilter_bad_width :
    (after (exec .unfilter { idle 0 4 [] [] with prevLen := 5#32 })).readReg .status = 0x00000022#32 := by decide

/-- A8 and A9 (65537 is one more than LMAX), A10. -/
theorem test_unfilter_lengths :
    (after (exec .unfilter (idle 1 65537 [] []))).readReg .status = 0x00000032#32 ∧
    (after (exec .unfilter { idle 1 5 [] [] with prevLen := 65537#32 })).readReg .status = 0x00000032#32 ∧
    (after (exec .unfilter { idle 1 5 [] [] with prevLen := 4#32 })).readReg .status = 0x00000042#32 := by decide

/-- A12. -/
theorem test_unfilterG_bad_width :
    (after (exec .unfilterG (idle 0 4 [] []))).readReg .status = 0x00000022#32 ∧
    (after (exec .unfilterG (idle 0 4 [] []))).readReg .cmd = 0x00000102#32 := by decide

/-- The PATH code of U9 (GEN), with BUSY (R142). -/
theorem test_unfilterG_accepted :
    (after (exec .unfilterG (idle 3 6 [] []))).readReg .status = 0x00000401#32 := by decide

/-- The paths of U1, U8, U12, U13, U15, U23 (section 2.2). -/
theorem test_paths :
    selectPath true false 1 3 = .w1 ∧ selectPath true false 3 6 = .w3 ∧ selectPath true false 3 7 = .gen ∧
    selectPath true false 4 8 = .w4 ∧ selectPath true false 4 6 = .gen ∧ selectPath false false 3 6 = .gen := by decide

/-! ### Reserved OP values (A1, A3, P1 line 11, A2) -/

theorem test_reserved0 : (after (exec (.reserved0 false) (idle 1 4 [] []))).readReg .status = 0x00000012#32 := by decide
theorem test_reserved3 :
    (after (exec (.reserved3 true) (idle 1 4 [] []))).readReg .status = 0x00000012#32 ∧
    (after (exec (.reserved3 true) (idle 1 4 [] []))).readReg .cmd = 0x00000103#32 := by decide
theorem test_reserved7 :
    (after (exec (.reserved4to7 0b11#2 false) (idle 1 4 [] []))).readReg .status = 0x00000012#32 ∧
    (after (exec (.reserved4to7 0b11#2 false) (idle 1 4 [] []))).readReg .cmd = 0x00000007#32 := by decide
theorem test_reservedF :
    (after (exec (.reserved8toF 0b111#3 false) (idle 1 4 [] []))).readReg .status = 0x00000012#32 ∧
    (after (exec (.reserved8toF 0b111#3 false) (idle 1 4 [] []))).readReg .cmd = 0x0000000F#32 := by decide

/-! ### Element steps (section 2.2) -/

/-- U7 at j = 1: (30, 60, 50), left wins the tie pa = pc. -/
theorem test_w1_left_wins :
    (after (exec .unfilterW1 (midRow .w1 0 1 0 30 50 (idle 1 2 [30, 0] [50, 60])))).cur = [(0, 30), (1, 30)] := by decide

/-- U2 at j = 1: 255 + 2 wraps to 1. -/
theorem test_w1_wraps :
    (after (exec .unfilterW1 (midRow .w1 0 1 0 255 0 (idle 1 2 [255, 2] [0, 0])))).cur = [(0, 255), (1, 1)] := by decide

/-- P2, second row, at j = 3: (12, 40, 10) predicts 40, and 40 + 5 = 45. -/
theorem test_w3_element :
    (after (exec .unfilterW3 (midRow .w3 0 3 0 12 10 (idle 3 6 [12, 22, 32, 5, 2, 6] [10, 20, 30, 40, 50, 60])))).cur.read 3 =
      some 45 := by decide

/-- U8 at j = 4: pair 1 holds (22, 2). -/
theorem test_w3_second_channel :
    (after (exec .unfilterW3 (midRow .w3 0 4 1 22 2 (idle 3 6 [11, 22, 33, 16, 5, 5] [1, 2, 3, 4, 5, 6])))).cur.read 4 =
      some 27 := by decide

/-- U16 at j = 4: (40, 60, 50) predicts aboveLeft. -/
theorem test_w4_above_left :
    (after (exec .unfilterW4 (midRow .w4 0 4 0 40 50 (idle 4 8 [40, 0, 0, 0, 0, 0, 0, 0] [50, 0, 0, 0, 60, 0, 0, 0])))).cur.read 4 =
      some 50 := by decide

/-- U18 at j = 2: (60, 30, 50), above wins the tie pb = pc; the channel ends, so pair 0 is zeroed and j = i = 1. -/
theorem test_gen_element :
    (after (exec (.unfilterGen false) (midRow .gen 0 2 0 60 50 (idle 2 4 [60, 0, 0, 0] [50, 0, 30, 0])))).cur.read 2 =
      some 30 ∧
    (after (exec (.unfilterGen false) (midRow .gen 0 2 0 60 50 (idle 2 4 [60, 0, 0, 0] [50, 0, 30, 0])))).engine =
      { phase := .runUnfilter, path := .gen, i := 1, j := 1
        pairA := Vector.replicate 4 0, pairC := Vector.replicate 4 0 } := by decide

/-- Z4: the first element step of a row whose PREV nothing has written. -/
theorem test_w1_uninit : exec .unfilterW1 ((idle 1 4 [1, 1, 1, 1] []).afterUnfilter false) = .fault (.uninit .prev 0) := by
  rfl

/-- The finish step: STATUS of U6 (L = 0) and of U22. -/
theorem test_finish_status :
    (after (exec .unfilterW1 ((idle 1 0 [] []).afterUnfilter false))).readReg .status = 0x00000102#32 ∧
    (after (exec (.unfilterGen false) ((idle 2 0 [] []).afterUnfilter false))).readReg .status = 0x00000402#32 := by decide

/-- The recurrence on the rows of U12, U15 and U17. -/
theorem test_row_results :
    (List.range 7).map (rowResult 3 (rowOf (row 0 [10, 20, 30, 1, 2, 3, 4])) (fun _ => 0)) =
      [10, 20, 30, 11, 22, 33, 15] ∧
    (List.range 6).map (rowResult 4 (rowOf (row 0 [1, 2, 3, 4, 5, 6])) (fun _ => 9)) = [10, 11, 12, 13, 15, 17] ∧
    (List.range 4).map (rowResult 2 (rowOf (row 0 [7, 8, 9, 10])) (rowOf (row 0 [100, 101, 102, 103]))) =
      [107, 109, 116, 119] := by decide

/-- P3's filtered row, by the forward filter of R147. -/
theorem test_forward_filter :
    (List.range 8).map (forwardFilter 4 (rowOf (row 0 [200, 100, 50, 25, 210, 90, 60, 20]))
      (rowOf (row 0 [190, 110, 40, 30, 205, 95, 55, 25]))) = [10, 246, 10, 251, 5, 251, 5, 251] := by decide

/-! ### Bus errors, hazards and the interrupt (section 2.4) -/

/-- H1–H5. -/
theorem test_bus_errors :
    answer (transact (.rd8 0x00008) runningW1) = some .readError ∧
    answer (transact (.rd32 0x10002) runningW1) = some .readError ∧
    answer (transact (.rd32 0x00028) runningW1) = some .readError ∧
    answer (transact (.wr32 0x00100 0) runningW1) = some .writeError ∧
    answer (transact (.wr32 0x30000 0) runningW1) = some .writeError := by decide

/-- H6 and H7. -/
theorem test_window_reads :
    answer (transact (.rd8 0x10005) { State.reset with cur := [(5, 0x5A)] }) = some (.byte 0x5A) ∧
    answer (transact (.rd32 0x10004) { State.reset with cur := row 4 [1, 2, 3, 4] }) = some (.word 0x04030201) := by decide

/-- H8. -/
theorem test_window_write :
    (after (transact (.wr32 0x20008 0xDDCCBBAA) State.reset)).prev = row 8 [0xAA, 0xBB, 0xCC, 0xDD] := by decide

/-- H9, H10 and H11. -/
theorem test_hazards :
    answer (transact (.rd8 0x10000) runningW1) = some (.byte 0) ∧
    (after (transact (.rd8 0x10000) runningW1)).status.ovr = true ∧
    (after (transact (.wr32 0x10 7) runningW1)).width = 1 ∧
    (after (transact (.wr32 0x10 7) runningW1)).status.ovr = true ∧
    (after (transact (.wr32 0x04 1) runningW1)).cmd = runningW1.cmd ∧
    (after (transact (.wr32 0x04 1) runningW1)).engine = runningW1.engine ∧
    (after (transact (.wr32 0x04 1) runningW1)).status.ovr = true := by decide

/-- H12, H13, H14. -/
theorem test_allowed_while_busy :
    (after (transact (.wr32 0x08 4) runningW1.overrun)).status.ovr = false ∧
    (after (transact (.wr32 0x0C 1) runningW1)).intEn = true ∧
    answer (transact (.rd32 0x08) runningW1) = some (.word 0x00000101) := by decide

/-- H15, H16 and H17. -/
theorem test_interrupt :
    (after (engineTurn ((predicting 0 0 0).setIntEn true))).irq = true ∧
    (after (transact (.wr32 0x08 2) (((idle 0 4 [] []).setIntEn true).raiseError .badWidth))).irq = false ∧
    (after (transact (.wr32 0x0C 0) (((idle 0 4 [] []).setIntEn true).raiseError .badWidth))).irq = false ∧
    (after (transact (.wr32 0x0C 0) (((idle 0 4 [] []).setIntEn true).raiseError .badWidth))).status.done = true := by decide

/-- R25: an idle CTRL write changes INT_EN and nothing else. -/
theorem test_ctrl_write :
    after (transact (.wr32 0x0C 3) (idle 3 6 [1] [2])) = ((idle 3 6 [1] [2]).setIntEn true).respond .written := by decide

/-- H18 and H19. -/
theorem test_unwritten_read : transact (.rd8 0x10000) State.reset = .fault (.uninit .cur 0) := by rfl
theorem test_cap_is_read_only :
    after (transact (.wr32 0x00 0xFFFFFFFF) runningW1) = runningW1.respond .written := by decide

/-- The very next step runs the placed word, from reset: P1's line 11. -/
theorem test_placed_word : (after (step (State.reset.withFetchWord 32 7))).readReg .status = 0x00000012#32 := by decide

/-! ### Witnesses: the hypotheses of each statement are met together, each clause at a value of its range -/

/-- The states the witnesses use. -/
def runningPredict : State := outside [.engine] [] (predicting 60 30 50)
def runningGen : State := (idle 2 4 [7, 8, 9, 10] [100, 101, 102, 103]).afterUnfilter true
def endedW1 : State := midRow .w1 0 3 0 30 0 (idle 1 3 [10, 20, 30] [0, 0, 0])
def ready : State := idle 3 6 [10, 20, 30, 5, 5, 5] [1, 2, 3, 4, 5, 6]
def small : Params := { k := 8, hasFastpaths := true }
/-- Every byte of both buffers of the smallest build written. -/
def full : State :=
  { State.resetWith small State.reset.host with cur := row 0 (List.replicate 256 1), prev := row 0 (List.replicate 256 2) }

/-- U8's result, as a function. -/
def resultU8 (j : Nat) : Byte := [11, 22, 33, 16, 27, 38].getD j 0

theorem witness_ResetGivesTheTabledRegisters :
    Params.valid small ∧ Params.valid { k := 24, hasFastpaths := false } ∧ runningW1.params.valid ∧
    nextTurn (outside [.reset] [] runningW1) = .reset := by decide

theorem witness_ResetAbortsAndLeavesBuffersUnwritten :
    nextTurn (outside [.reset] [] runningW1) = .reset ∧ (outside [.reset] [] runningW1).busy = true := by decide

theorem witness_ResetMeetsInvariant : Params.valid small ∧ Params.valid { k := 24, hasFastpaths := false } := by decide

theorem inv_runningW1 : runningW1.Inv :=
  { params_valid := by decide, cur_wf := by decide, prev_wf := by decide, cur_below := by decide, prev_below := by decide
    i_range := by decide, j_range := by decide, pa_range := by decide, pb_range := by decide, pc_range := by decide
    busy_done := by decide, busy_err := by decide, err_path := by decide, path_built := by decide
    predict_running := by decide, unfilter_running := by decide
    unfilter_sequencer := fun _ => (Nat.zero_le 3 : runningW1.engine.j ≤ runningW1.opLen) }

theorem witness_StepKeepsInvariant : runningW1.Inv ∧ ∃ t, step runningW1 = .next t := ⟨inv_runningW1, _, rfl⟩

theorem inv_full : full.Inv :=
  { params_valid := by decide, cur_wf := by decide +kernel, prev_wf := by decide +kernel
    cur_below := by decide +kernel, prev_below := by decide +kernel
    i_range := by decide, j_range := by decide, pa_range := by decide, pb_range := by decide, pc_range := by decide
    busy_done := by decide, busy_err := by decide, err_path := by decide, path_built := by decide
    predict_running := by decide, unfilter_running := by decide
    unfilter_sequencer := fun h => absurd (show Phase.idle = .runUnfilter from h) (by decide) }

theorem full_written : ∀ a, a < full.params.lmax → (full.cur.read a).isSome = true ∧ (full.prev.read a).isSome = true := by
  decide +kernel

theorem witness_WrittenBuffersNeverFault :
    full.Inv ∧ (∀ a, a < full.params.lmax → (full.cur.read a).isSome = true ∧ (full.prev.read a).isSome = true) ∧
    Turn.reset ∉ full.host.schedule := ⟨inv_full, full_written, by decide⟩

/-- Both cases arise: a step that goes on, and H18's and Z4's stops. -/
theorem witness_OnlyUnwrittenBytesStopTheMachine :
    (∃ t, step runningW1 = .next t) ∧
    step (outside [] [.txn (.rd8 0x10000)] State.reset) = .fault (.uninit .cur 0) ∧
    step ((idle 1 4 [1, 1, 1, 1] []).afterUnfilter false) = .fault (.uninit .prev 0) := ⟨⟨_, rfl⟩, rfl, rfl⟩

theorem witness_CapabilitiesAreConstant : ∃ t, step (outside [] [.txn (.wr32 0x00 0)] State.reset) = .next t := ⟨_, rfl⟩

theorem witness_BusyEndsOnlyByFinishOrReset :
    (∃ t, step endedW1 = .next t ∧ endedW1.busy = true ∧ t.busy = false) ∧
    (∃ t, step (outside [.reset] [] runningW1) = .next t ∧ runningW1.busy = true ∧ t.busy = false) :=
  ⟨⟨_, rfl, by decide, by decide⟩, ⟨_, rfl, by decide, by decide⟩⟩

theorem witness_DoneChangesOnlyAtCommandEndOrAck :
    (∃ t, step endedW1 = .next t ∧ endedW1.status.done = false ∧ t.status.done = true) ∧
    (∃ t, step (outside [] [.txn (.wr32 0x04 0)] State.reset) = .next t ∧ State.reset.status.done = false ∧
      t.status.done = true) ∧
    (∃ t, step (outside [] [.txn (.wr32 0x08 2)] (State.reset.raiseError .badOp)) = .next t ∧ t.status.done = false) ∧
    (∃ t, step (outside [] [.txn (.wr32 0x04 1)] (State.reset.raiseError .badOp)) = .next t ∧ t.status.done = false) ∧
    (State.reset.raiseError .badOp).status.done = true :=
  ⟨⟨_, rfl, by decide, by decide⟩, ⟨_, rfl, by decide, by decide⟩, ⟨_, rfl, by decide⟩, ⟨_, rfl, by decide⟩, by decide⟩

theorem witness_OverrunChangesOnlyByHazardOrAck :
    (∃ t, step (outside [.host] [.txn (.wr32 0x04 1)] runningW1) = .next t ∧ runningW1.status.ovr = false ∧
      t.status.ovr = true) ∧
    (∃ t, step (outside [.host] [.txn (.wr32 0x08 4)] runningW1.overrun) = .next t ∧ runningW1.overrun.status.ovr = true ∧
      t.status.ovr = false) :=
  ⟨⟨_, rfl, by decide, by decide⟩, ⟨_, rfl, by decide, by decide⟩⟩

theorem witness_PredictionWrittenOnlyByPredictFinish :
    (∃ t, step runningPredict = .next t ∧ t.predOut ≠ runningPredict.predOut ∧ t.predDist ≠ runningPredict.predDist) ∧
    (∃ t, step (outside [.reset] [] (after (step runningPredict))) = .next t ∧
      t.predOut ≠ (after (step runningPredict)).predOut) :=
  ⟨⟨_, rfl, by decide, by decide⟩, ⟨_, rfl, by decide⟩⟩

theorem inv_outside {s : State} (h : s.Inv) (turns : List Turn) (program : List HostOp) : (outside turns program s).Inv :=
  { params_valid := h.params_valid, cur_wf := h.cur_wf, prev_wf := h.prev_wf, cur_below := h.cur_below
    prev_below := h.prev_below, i_range := h.i_range, j_range := h.j_range, pa_range := h.pa_range
    pb_range := h.pb_range, pc_range := h.pc_range, busy_done := h.busy_done, busy_err := h.busy_err
    err_path := h.err_path, path_built := h.path_built, predict_running := h.predict_running
    unfilter_running := h.unfilter_running, unfilter_sequencer := h.unfilter_sequencer }

theorem witness_BuffersChangeOnlyByTheirOwners :
    (runningW1.Inv ∧ ∃ t, step runningW1 = .next t ∧ nextTurn runningW1 = .engine) ∧
    ((idle 1 3 [7] [9]).opLen = 3 ∧ ∃ t, step ((idle 1 3 [7] [9]).afterUnfilter false) = .next t ∧
      t.cur.read 0 ≠ (idle 1 3 [7] [9]).cur.read 0) ∧
    ((outside [.host] [.txn (.wr8 0x10000 1)] runningW1).Inv ∧
      ∃ t, step (outside [.host] [.txn (.wr8 0x10000 1)] runningW1) = .next t ∧
        nextTurn (outside [.host] [.txn (.wr8 0x10000 1)] runningW1) = .host ∧ runningW1.busy = true) :=
  ⟨⟨inv_runningW1, _, rfl, by decide⟩, ⟨by decide, _, rfl, by decide⟩,
    ⟨inv_outside inv_runningW1 _ _, _, rfl, by decide, by decide⟩⟩

theorem witness_RunningCommandKeepsItsOperands :
    ∃ t, (outside [.host] [.txn (.wr32 0x10 9)] runningW1).busy = true ∧
      step (outside [.host] [.txn (.wr32 0x10 9)] runningW1) = .next t ∧
      nextTurn (outside [.host] [.txn (.wr32 0x10 9)] runningW1) ≠ .reset ∧ t.busy = true :=
  ⟨_, by decide, rfl, by decide, by decide⟩

theorem witness_DecodeOfEncodeIsTheInstruction :
    (Instr.reserved4to7 0b11#2 true).wellFormed = true ∧ (Instr.reserved8toF 0b111#3 false).wellFormed = true ∧
    Instr.unfilterG.wellFormed = true := by decide

theorem witness_DecodingIsTotalByOpField :
    (0xFFFFFFF1#32).toNat % 16 = 1 ∧
    ((0xFFFFFEF2#32).toNat % 16 = 2 ∧ (0xFFFFFEF2#32).getLsbD 8 = false) ∧
    ((0x00000102#32).toNat % 16 = 2 ∧ (0x00000102#32).getLsbD 8 = true) ∧
    ((0x00000000#32).toNat % 16 ≠ 1 ∧ (0x00000000#32).toNat % 16 ≠ 2) ∧
    ((0x00000003#32).toNat % 16 ≠ 1 ∧ (0x00000003#32).toNat % 16 ≠ 2) ∧ State.reset.busy = false := by decide

theorem witness_DecodingMatchesOneTableRow :
    (Instr.reserved4to7 0b00#2 true).wellFormed = true ∧
    0x00000107#32 &&& (Instr.reserved4to7 0b00#2 true).rowMask = (Instr.reserved4to7 0b00#2 true).rowMatch := by decide

theorem witness_StepRunsTheWrittenCommand :
    nextTurn (outside [.host] [.txn (.wr32 0x04 2)] ready) = .host ∧
    (outside [.host] [.txn (.wr32 0x04 2)] ready).host.program = .txn (.wr32 0x04 2) :: [] ∧
    Instr.unfilterG.wellFormed = true := by decide

theorem witness_EngineTurnRunsTheLatchedForm :
    (nextTurn (outside [.engine] [] ready) = .engine ∧ ready.engine.phase = .idle) ∧
    (nextTurn runningGen = .engine ∧ runningGen.engine.phase = .runUnfilter) ∧
    (nextTurn runningPredict = .engine ∧ runningPredict.engine.phase = .runPredict) := by decide

theorem witness_HostTurnPerformsOneLine :
    (nextTurn (outside [.host] [] runningW1) = .host ∧ (outside [.host] [] runningW1).host.program = []) ∧
    nextTurn (outside [.host] [.txn (.rd32 0x28)] ready) = .host ∧
    (nextTurn (outside [.host] [waitOp] ready) = .host ∧ ready.readReg .status &&& 1#32 = 0#32) ∧
    (nextTurn (outside [.host] [waitOp] runningW1) = .host ∧ runningW1.readReg .status &&& 1#32 ≠ 0#32) ∧
    (nextTurn ((outside [.host] [.wr8Last 0x20000] ready).respond (.byte 5)) = .host ∧
      ((outside [.host] [.wr8Last 0x20000] ready).respond (.byte 5)).host.responses = .byte 5 :: []) := by decide

/-- POLL of a window: a written word, the hazard read while busy, an unwritten byte; `t` older than a write's response, from
an RD32, and not read at all. -/
theorem witness_HostTurnPerformsOneLine_windows :
    (∃ u, transact (.rd32 0x10000) (takeTurn (outside [.host] [.poll 0x10000 0xFF#32 0x0A#32] ready)) = .next u ∧
      u.host.responses = .word 0x051E140A#32 :: [] ∧ 0x051E140A#32 &&& 0xFF#32 = 0x0A#32 ∧
      0x051E140A#32 &&& 0xFF#32 ≠ 0x0B#32) ∧
    (∃ u, transact (.rd32 0x10000) (takeTurn (outside [.host] [.poll 0x10000 0xFF#32 0x0A#32] runningW1)) = .next u) ∧
    transact (.rd32 0x10000) (takeTurn (outside [.host] [.poll 0x10000 0xFF#32 0x0A#32] State.reset)) =
      .fault (.uninit .cur 0) ∧
    ((((outside [.host] [.wr8Last 0x20000] ready).respond (.word 0x01020304#32)).respond .written).host.responses =
        [.written] ++ .word 0x01020304#32 :: [] ∧
      (∀ x ∈ [BusResponse.written], x.readData = none) ∧
      (BusResponse.word 0x01020304#32).readData = some 0x01020304#32) ∧
    (∀ x ∈ ((outside [.host] [.wr8Last 0x20000] ready).respond .written).host.responses, x.readData = none) :=
  ⟨⟨_, rfl, by decide, by decide, by decide⟩, ⟨_, rfl⟩, rfl, by decide, by decide⟩

/-- Each branch of R113, and the ties of R115. -/
theorem witness_PredictorSelectsByTieBreak :
    ((paeth 30 60 50).pa ≤ (paeth 30 60 50).pb ∧ (paeth 30 60 50).pa ≤ (paeth 30 60 50).pc) ∧
    (¬((paeth 60 30 50).pa ≤ (paeth 60 30 50).pb ∧ (paeth 60 30 50).pa ≤ (paeth 60 30 50).pc) ∧
      (paeth 60 30 50).pb ≤ (paeth 60 30 50).pc) ∧
    (¬((paeth 40 60 50).pa ≤ (paeth 40 60 50).pb ∧ (paeth 40 60 50).pa ≤ (paeth 40 60 50).pc) ∧
      ¬(paeth 40 60 50).pb ≤ (paeth 40 60 50).pc) := by decide

theorem witness_PredictorReturnsANeighbour :
    ((paeth 100 100 50).pa = (paeth 100 100 50).pb ∧ (paeth 100 100 50).pb ≤ (paeth 100 100 50).pc) ∧
    ((paeth 60 30 50).pb = (paeth 60 30 50).pc ∧ (paeth 60 30 50).pc < (paeth 60 30 50).pa) ∧
    ((paeth 30 60 50).pa = (paeth 30 60 50).pc ∧ (paeth 30 60 50).pc < (paeth 30 60 50).pb) ∧
    (paeth 40 60 50).sel = .aboveLeft := by decide

theorem witness_DatapathWidthIsUnobservable : Config.minArithBits ≤ 10 ∧ Config.minArithBits ≤ 16 := by decide

theorem witness_PredictIsAcceptedAndCompletes : (State.reset.raiseError .lenMismatch).busy = false := by decide

theorem witness_PredictFinishStoresThePrediction :
    runningPredict.engine.phase = .runPredict ∧ nextTurn runningPredict ≠ .reset ∧ ∃ u, step runningPredict = .next u :=
  ⟨by decide, by decide, _, rfl⟩

/-- The selector's clauses at widths 1, 3, 4, at a multiple and at its neighbour, and a width past the fast paths. -/
theorem witness_SelectorDispatchesByWidthAndLength :
    (6 % 3 = 0 ∧ 8 % 4 = 0) ∧ ((3 : Nat) ≠ 1 ∧ ¬((3 : Nat) = 3 ∧ 7 % 3 = 0) ∧ ¬((3 : Nat) = 4 ∧ 7 % 4 = 0)) ∧
    ((5 : Nat) ≠ 1 ∧ ¬((5 : Nat) = 3 ∧ 0 % 3 = 0) ∧ ¬((5 : Nat) = 4 ∧ 0 % 4 = 0)) := by decide

/-- Ready states: a row, the empty row, the longest row. -/
theorem witness_UnfilterIsAcceptedAndStarts :
    ready.unfilterReady ∧ (idle 65535 0 [] []).unfilterReady ∧ (idle 1 65536 [] []).unfilterReady := by decide

theorem witness_UnfilterIsRejectedByPriority :
    (idle 0 65537 [] []).busy = false ∧ (idle 0 65537 [] []).opWidth = 0 ∧
    ((idle 1 65537 [] []).opWidth ≠ 0 ∧ (idle 1 65537 [] []).opLen > (idle 1 65537 [] []).params.lmax) ∧
    (({ idle 1 5 [] [] with prevLen := 65537#32 } : State).opPrevLen > State.reset.params.lmax) ∧
    (({ idle 1 65536 [] [] with prevLen := 4#32 } : State).opLen ≤ State.reset.params.lmax ∧
      ({ idle 1 65536 [] [] with prevLen := 4#32 } : State).opLen ≠
        ({ idle 1 65536 [] [] with prevLen := 4#32 } : State).opPrevLen) := by decide

theorem witness_ReservedOpsAreRejected : State.reset.busy = false := by decide

theorem witness_CommandWhileBusyIsDropped : Instr.wellFormed .unfilter = true ∧ runningW1.busy = true := by decide

theorem witness_CommandsFrame :
    (∃ t, Instr.wellFormed .unfilter = true ∧ exec .unfilter ready = .next t ∧ ready.busy = false ∧ t.busy = true) ∧
    (∃ t, exec .unfilter runningW1 = .next t ∧ runningW1.busy = true) ∧
    (∃ t, exec (.reserved0 true) ready = .next t ∧ t.busy = false) :=
  ⟨⟨_, by decide, rfl, by decide, by decide⟩, ⟨_, rfl, by decide⟩, ⟨_, rfl, by decide⟩⟩

theorem witness_ElementReconstructsOneByte :
    (idle 1 1 [1] []).prev.read 0 = none ∧
    ((idle 1 1 [] [2]).prev.read 0 = some 2 ∧ (idle 1 1 [] [2]).cur.read 0 = none) ∧
    (runningW1.prev.read 0 = some 0 ∧ runningW1.cur.read 0 = some 10) := by decide

theorem witness_SerialPathsStepThroughTheRow :
    (runningW1.engine.phase = .runUnfilter ∧ runningW1.engine.j < runningW1.opLen ∧ runningW1.engine.path = .w1 ∧
      runningW1.prev.read runningW1.engine.j = some 0 ∧ runningW1.cur.read runningW1.engine.j = some 10) ∧
    ((midRow .w3 0 5 2 33 3 ready).engine.j < ready.opLen ∧ (midRow .w3 0 5 2 33 3 ready).engine.path = .w3 ∧
      ready.prev.read 5 = some 6 ∧ ready.cur.read 5 = some 5 ∧ (2 : Fin 4).val = 5 % 3) ∧
    ((midRow .w4 0 3 3 0 0 (idle 4 4 [1, 2, 3, 4] [1, 2, 3, 4])).engine.j < 4 ∧
      (midRow .w4 0 3 3 0 0 (idle 4 4 [1, 2, 3, 4] [1, 2, 3, 4])).engine.path = .w4 ∧ (3 : Fin 4).val = 3 % 4) := by decide

theorem witness_GenericPathStepsThroughChannels :
    (runningGen.engine.phase = .runUnfilter ∧ runningGen.engine.path = .gen ∧
      runningGen.engine.i < min runningGen.opWidth runningGen.opLen ∧ runningGen.prev.read runningGen.engine.j = some 100 ∧
      runningGen.cur.read runningGen.engine.j = some 7 ∧ runningGen.engine.j + runningGen.opWidth < runningGen.opLen) ∧
    ((midRow .gen 1 3 0 9 9 runningGen).engine.i < min runningGen.opWidth runningGen.opLen ∧
      runningGen.prev.read 3 = some 103 ∧ runningGen.cur.read 3 = some 10 ∧
      runningGen.opLen ≤ (midRow .gen 1 3 0 9 9 runningGen).engine.j + runningGen.opWidth) := by decide

theorem witness_PathsFinishAtTheEndOfTheRow :
    (endedW1.engine.phase = .runUnfilter ∧ endedW1.engine.path = .w1 ∧ endedW1.opLen ≤ endedW1.engine.j) ∧
    ((midRow .w3 0 6 0 0 0 ready).engine.path = .w3 ∧ ready.opLen ≤ (midRow .w3 0 6 0 0 0 ready).engine.j) ∧
    ((midRow .w4 0 0 0 0 0 (idle 4 0 [] [])).engine.path = .w4 ∧ (idle 4 0 [] []).opLen ≤ 0) ∧
    ((midRow .gen 2 2 0 0 0 runningGen).engine.path = .gen ∧
      min runningGen.opWidth runningGen.opLen ≤ (midRow .gen 2 2 0 0 0 runningGen).engine.i) := by decide

theorem witness_PathsFaultOnUnwrittenBytes :
    (((idle 1 4 [1] []).afterUnfilter false).running .w1 = true ∧
      nextPosition .w1 ((idle 1 4 [1] []).afterUnfilter false) = some 0 ∧ (idle 1 4 [1] []).prev.read 0 = none) ∧
    (((idle 1 4 [] [1]).afterUnfilter true).running .gen = true ∧
      nextPosition .gen ((idle 1 4 [] [1]).afterUnfilter true) = some 0 ∧
      ((idle 1 4 [] [1]).prev.read 0).isSome = true ∧ (idle 1 4 [] [1]).cur.read 0 = none) := by decide

theorem witness_PathFormsFrame :
    (∃ t, exec (FilterPath.w1.instr false) runningW1 = .next t ∧ nextPosition .w1 runningW1 = some 0) ∧
    (∃ t, exec (FilterPath.w1.instr false) endedW1 = .next t ∧ nextPosition .w1 endedW1 = none ∧
      t.status.done ≠ endedW1.status.done) ∧
    (∃ t, exec (FilterPath.w3.instr false) ready = .next t ∧ ready.running .w3 = false) ∧
    (∀ j, pairOf .gen j ≠ 1) :=
  ⟨⟨_, rfl, by decide⟩, ⟨_, rfl, by decide, by decide⟩, ⟨_, rfl, by decide⟩, fun _ => (by decide : (0 : Fin 4) ≠ 1)⟩

theorem ready_written : ready.rowsWritten := by decide

theorem ready_recurrence : RowRecurrence ready.opWidth ready.opLen (rowOf ready.cur) (rowOf ready.prev) resultU8 := by
  unfold RowRecurrence
  decide

theorem witness_UnfilterComputesTheRecurrence :
    ready.unfilterReady ∧ ready.rowsWritten ∧
    RowRecurrence ready.opWidth ready.opLen (rowOf ready.cur) (rowOf ready.prev) resultU8 :=
  ⟨by decide, ready_written, ready_recurrence⟩

theorem witness_EachPositionIsVisitedOnce :
    ready.unfilterReady ∧ ready.rowsWritten ∧ (ready.afterUnfilter false).engine.path ≠ .gen ∧
    (ready.afterUnfilter true).engine.path = .gen := by decide

theorem witness_AllPathsLeaveTheSameRow : ready.unfilterReady ∧ ready.rowsWritten := by decide

theorem witness_ResultIsTheSameUnderEveryInterleaving :
    ready.unfilterReady ∧ ready.rowsWritten ∧
    RowRecurrence ready.opWidth ready.opLen (rowOf ready.cur) (rowOf ready.prev) resultU8 ∧
    Turn.reset ∉ [Turn.host, .engine, .engine, .host, .engine, .engine, .engine, .host, .engine] ∧
    [Turn.host, .engine, .engine, .host, .engine, .engine, .engine, .host, .engine].count .engine = ready.opLen :=
  ⟨by decide, ready_written, ready_recurrence, by decide, by decide⟩

theorem witness_RowResultIsTheRecurrence : 0 < (65535 : Nat) ∧ 0 < (1 : Nat) := by decide

/-- Two rows that differ in channel 1 only, at a position of channel 0. -/
theorem witness_ChannelsAreIndependent :
    0 < (2 : Nat) ∧ ∀ m, m ≤ 2 → m % 2 = 2 % 2 →
      rowOf (row 0 [1, 2, 3]) m = rowOf (row 0 [1, 9, 3]) m ∧ rowOf (row 0 [4, 5, 6]) m = rowOf (row 0 [4, 8, 6]) m := by decide

theorem witness_UnfilterInvertsTheForwardFilter :
    ready.unfilterReady ∧ ∀ j, j < ready.opLen →
      ready.cur.read j = some (forwardFilter ready.opWidth resultU8 (rowOf ready.prev) j) ∧
      ready.prev.read j = some (rowOf ready.prev j) := by decide

theorem witness_FirstRowIsARunningSum : 0 < (3 : Nat) := by decide

/-- The gap below CUR, the gap above PREV's window, the hole at 0x28, unaligned offsets, and the smallest build. -/
theorem witness_BusErrorsChangeNothing :
    State.reset.params.valid ∧ unmapped State.reset.params 0x28 ∧ unmapped State.reset.params 0xFFFF ∧
    unmapped State.reset.params 0x30000 ∧ unmapped small 0x3FF ∧ 0x3FF < 4 * small.lmax ∧ 0x30000 < 4 * State.reset.params.lmax ∧ 0xFF < 0x100 ∧ 0x10001 % 4 ≠ 0 := by
  unfold unmapped
  decide

theorem witness_WindowBytesReadAndWrite :
    ready.params.valid ∧ ready.busy = false ∧ 5 < ready.params.lmax ∧ (ready.buffer .prev).read 5 = some 6 ∧
    65535 < ready.params.lmax := by decide

theorem witness_WindowWordsAreLittleEndian :
    ready.params.valid ∧ ready.busy = false ∧ 0 < ready.params.lmax ∧ 0 % 4 = 0 ∧ 65532 < ready.params.lmax ∧
    65532 % 4 = 0 ∧ (ready.buffer .cur).read 0 = some 10 ∧ (ready.buffer .cur).read (0 + 1) = some 20 ∧
    (ready.buffer .cur).read (0 + 2) = some 30 ∧ (ready.buffer .cur).read (0 + 3) = some 5 := by decide

theorem witness_UnwrittenWindowReadsFault :
    ready.params.valid ∧ ready.busy = false ∧ 65532 < ready.params.lmax ∧ (ready.buffer .cur).read 65532 = none ∧
    (4 % 4 = 0 ∧ ∃ n, n < 4 ∧ (ready.buffer .cur).read (4 + n) = none) :=
  ⟨by decide, by decide, by decide, by decide, by decide, 3, by decide, by decide⟩

theorem witness_HazardAccessesAreDropped :
    runningW1.params.valid ∧ runningW1.busy = true ∧ 0 < runningW1.params.lmax ∧ 65535 < runningW1.params.lmax ∧
    65532 % 4 = 0 ∧ (Txn.rd8 0x24).allowed runningW1.params = false ∧
    (Txn.wr32 0x10002 0#32).offset < 4 * runningW1.params.lmax ∧
    (Txn.wr32 0x10002 0#32).allowed runningW1.params = false := by decide

theorem witness_ConfigurationWritesReadBack :
    ready.busy = false ∧ ∃ t, transact (.wr32 Reg.width.offset 0xFFFFFFFF#32) ready = .next t := ⟨by decide, _, rfl⟩

theorem witness_InterruptFollowsDoneAndEnable :
    (∃ t, step (endedW1.setIntEn true) = .next t ∧ endedW1.busy = true ∧ t.busy = false ∧
      nextTurn (endedW1.setIntEn true) = .engine) ∧
    (0x00000000#32).getLsbD 0 = false ∧ (0x00000002#32).getLsbD 1 = true :=
  ⟨⟨_, rfl, by decide, by decide, by decide⟩, by decide, by decide⟩

theorem witness_RegisterFieldsStandInTheirBits : State.reset.params.valid ∧ small.valid := by decide

theorem witness_PredictPseudoReturnsThePrediction :
    State.reset.busy = false ∧
    (outside [] ((Pseudo.predict 60 30 50).expand Params.default) State.reset).host.schedule = [] ∧
    (outside [] ((Pseudo.predict 60 30 50).expand Params.default) State.reset).host.program =
      (Pseudo.predict 60 30 50).expand Params.default ++ [] := by decide

theorem witness_UnfilterPseudoReturnsTheRow :
    ready.unfilterReady ∧ ready.rowsWritten ∧
    RowRecurrence ready.opWidth ready.opLen (rowOf ready.cur) (rowOf ready.prev) resultU8 ∧
    (outside [] [wrReg .cmd 2#32, waitOp] ready).host.schedule = [] ∧
    (outside [] [wrReg .cmd 2#32, waitOp] ready).host.program =
      (if false then Pseudo.unfilterG else Pseudo.unfilter).expand Params.default ++ [] ∧
    (outside [] [wrReg .cmd 0x102#32, waitOp] ready).host.program =
      (if true then Pseudo.unfilterG else Pseudo.unfilter).expand Params.default ++ [] :=
  ⟨by decide, ready_written, ready_recurrence, by decide, by decide, by decide⟩

theorem witness_RowPseudosPrepareThePreviousRow :
    ready.params.valid ∧ ready.busy = false ∧ 6 ≤ ready.params.lmax ∧ ready.host.schedule = [] ∧
    (∀ j, j < 6 → (ready.cur.read j).isSome = true) ∧
    (outside [] ((Pseudo.copyRow 6).expand Params.default) ready).host.program =
      (Pseudo.copyRow 6).expand Params.default ++ [] := by decide

theorem witness_ResetKeepsTheBuildAndTheOutside :
    nextTurn (outside [.reset, .host] [waitOp] runningW1) = .reset ∧
    (outside [.reset, .host] [waitOp] runningW1).host.program = [waitOp] := by decide

end Sys2Proof.Tests
end

section
namespace Sys2Proof.Machine

/-! ### Reset turns -/

/-- A reset turn in terms of the state before it: the build stays, and the outside loses only the turn taken
(70_reset_and_hazards.md R200-R203). -/
theorem step_eq_resetWith {s : State} (h : nextTurn s = .reset) :
    step s = .next (State.resetWith s.params { s.host with schedule := s.host.schedule.tail }) :=
  step_reset h

/-- CAP of the default build: VERSION 1, K = 16, HAS_FASTPATHS (00_scope.md R5, 10_state.md R22). -/
theorem readReg_cap_reset : State.reset.readReg .cap = 0x01001001#32 := by decide

/-- Settles O60: a reset turn is `State.resetWith` by the step rule above, whose fields, like those of `State.reset`,
are the literals of their definitions; CAP is evaluated once. -/
theorem resetKeepsTheBuildAndTheOutside : Obligations.ResetKeepsTheBuildAndTheOutside := by
  unfold Obligations.ResetKeepsTheBuildAndTheOutside
  refine ⟨fun s h => ?resetTurn, rfl, readReg_cap_reset, rfl⟩
  case resetTurn =>
    have hstep := step_eq_resetWith h
    exact ⟨hstep, _, hstep, rfl, rfl, rfl, rfl, rfl⟩

end Sys2Proof.Machine
end

section
namespace Sys2Proof.Machine

/-! ### Buffers by name: what a write of one leaves unchanged -/

section
variable (s : State) (b : Buffer) (m : Memory)

@[simp] theorem setBuffer_params : (s.setBuffer b m).params = s.params := by cases b <;> rfl
@[simp] theorem setBuffer_status : (s.setBuffer b m).status = s.status := by cases b <;> rfl
@[simp] theorem setBuffer_predOut : (s.setBuffer b m).predOut = s.predOut := by cases b <;> rfl
@[simp] theorem setBuffer_predDist : (s.setBuffer b m).predDist = s.predDist := by cases b <;> rfl

end

/-! ### What an engine turn can do -/

/-- Everything an engine turn can do to a state (10_state.md R20; 40_predictor.md R119; 41_unfilter.md R136–R140). -/
inductive EngineEffect (s : State) : State → Prop
  | rest (hphase : s.engine.phase = .idle) : EngineEffect s s
  | predict (hphase : s.engine.phase = .runPredict) : EngineEffect s (predictFinish s)
  | finish (hphase : s.engine.phase = .runUnfilter) (hnext : nextPosition s.engine.path s = none) :
      EngineEffect s s.finish
  | element (hphase : s.engine.phase = .runUnfilter) {j : Nat} (hnext : nextPosition s.engine.path s = some j)
      {b f : Byte} (hprev : s.prev.read j = some b) (hcur : s.cur.read j = some f) :
      EngineEffect s (advance s.engine.path (afterElement j (pairOf s.engine.path j) b f s))

/-- An engine turn that goes through has one of those effects. -/
theorem engineTurn_effect {s t : State} (h : engineTurn s = .next t) : EngineEffect s t := by
  rcases engineTurn_cases s with ⟨hphase, e⟩ | ⟨hphase, e⟩ | ⟨hphase, e⟩ <;> rw [e] at h
  · cases h; exact .rest hphase
  · cases h; exact .predict hphase
  · rcases pathStep_cases s.engine.path s with
      ⟨hrest, _⟩ | ⟨_, hn, e⟩ | ⟨_, j, b, f, hn, hb, hf, e⟩ | ⟨_, _, _, _, _, e⟩
    · rw [running_iff.2 ⟨hphase, rfl⟩] at hrest; cases hrest
    · rw [e] at h; cases h; exact .finish hphase hn
    · rw [e] at h; cases h; exact .element hphase hn hb hf
    · rw [e] at h; cases h

/-- What no engine turn writes: the build, CMD, INT_EN, the operands, PREV and the outside (10_state.md R22–R29;
20_memory.md R68). -/
theorem EngineEffect.frame {s t : State} (h : EngineEffect s t) :
    t.params = s.params ∧ t.cmd = s.cmd ∧ t.intEn = s.intEn ∧ t.width = s.width ∧ t.len = s.len ∧
      t.prevLen = s.prevLen ∧ t.predIn = s.predIn ∧ t.prev = s.prev ∧ t.host = s.host := by
  cases h with
  | element => simp
  | _ => exact ⟨rfl, rfl, rfl, rfl, rfl, rfl, rfl, rfl, rfl⟩

/-- Of STATUS the engine writes DONE alone, and only as it ends BUSY (60_exceptions.md R174). -/
theorem EngineEffect.status_cases {s t : State} (h : EngineEffect s t) :
    (t.busy = s.busy ∧ t.status = s.status) ∨
    (s.busy = true ∧ t.busy = false ∧ t.status = { s.status with done := true }) := by
  cases h with
  | rest => exact .inl ⟨rfl, rfl⟩
  | predict hphase => exact .inr ⟨by simp [busy_eq_true, hphase], rfl, rfl⟩
  | finish hphase => exact .inr ⟨by simp [busy_eq_true, hphase], rfl, rfl⟩
  | element => exact .inl ⟨by rw [advance_busy]; exact busy_congr rfl, by simp⟩

/-- PRED_OUT and PRED_DIST are written by PREDICT's finish step alone (40_predictor.md R119). -/
theorem EngineEffect.prediction_cases {s t : State} (h : EngineEffect s t) :
    (t.predOut = s.predOut ∧ t.predDist = s.predDist) ∨
    (s.engine.phase = .runPredict ∧ t.predOut.result = (paeth s.predIn.a s.predIn.b s.predIn.c).value) := by
  cases h with
  | rest => exact .inl ⟨rfl, rfl⟩
  | predict hphase => exact .inr ⟨hphase, rfl⟩
  | finish => exact .inl ⟨rfl, rfl⟩
  | element => exact .inl ⟨by simp, by simp⟩

/-! ### What a host turn leaves unchanged -/

/-- No command word touches the build or the predictor's results (60_exceptions.md R171–R173). -/
theorem acceptance_frame {i : Instr} (hi : i.wellFormed = true) (s : State) :
    (acceptance i s).params = s.params ∧ (acceptance i s).predOut = s.predOut ∧
      (acceptance i s).predDist = s.predDist := by
  rcases acceptance_cases hi s with ⟨code, e, _⟩ | ⟨_, e⟩ | ⟨_, _, e⟩ <;> rw [e] <;> exact ⟨rfl, rfl, rfl⟩

/-- The host writes neither the build nor the predictor's results (10_state.md R22, R30, R31). -/
theorem HostEffect.frame {s e : State} {op : Option HostOp} (h : HostEffect s op e) :
    e.params = s.params ∧ e.predOut = s.predOut ∧ e.predDist = s.predDist := by
  cases h with
  | command v => exact acceptance_frame (decodeWord_command v) s
  | byte => simp
  | word => simp
  | _ => exact ⟨rfl, rfl, rfl⟩

/-! ### DONE and OVR -/

/-- An accepted command word clears DONE or leaves an error code with it, and leaves OVR (60_exceptions.md R171, R173). -/
theorem acceptance_status {i : Instr} (hi : i.wellFormed = true) (s : State) :
    (acceptance i s).status.ovr = s.status.ovr ∧
      ((acceptance i s).status.done = true →
        (acceptance i s).busy = s.busy ∧ (acceptance i s).status.err ≠ none) := by
  rcases acceptance_cases hi s with ⟨code, e, _⟩ | ⟨_, e⟩ | ⟨_, _, e⟩ <;> rw [e]
  · simp
  · simp
  · simp

/-- The host raises DONE only by a rejected command word. -/
theorem HostEffect.done_rises {s e : State} {op : Option HostOp} (h : HostEffect s op e)
    (hs : s.status.done = false) (he : e.status.done = true) :
    s.busy = false ∧ e.busy = false ∧ e.status.err ≠ Option.none := by
  cases h with
  | command v hb =>
    obtain ⟨_, hreject⟩ := acceptance_status (decodeWord_command v) s
    obtain ⟨hbusy, herr⟩ := hreject he
    exact ⟨hb, hbusy.trans hb, herr⟩
  | _ => simp [hs] at he

/-- The host clears DONE only by its two acknowledgements (60_exceptions.md R176). -/
theorem HostEffect.done_falls {s e : State} {op : Option HostOp} (h : HostEffect s op e)
    (hs : s.status.done = true) (he : e.status.done = false) :
    (∃ v, op = some (.txn (.wr32 0x08 v)) ∧ v.getLsbD 1 = true) ∨
    (s.busy = false ∧ ∃ v, op = some (.txn (.wr32 0x04 v))) := by
  cases h with
  | command v hb hop => exact .inr ⟨hb, v, hop⟩
  | status v hop => exact .inl ⟨v, hop, by simpa [hs] using he⟩
  | _ => simp [hs] at he

/-- The host raises OVR only by a hazard access (70_reset_and_hazards.md R207). -/
theorem HostEffect.ovr_rises {s e : State} {op : Option HostOp} (h : HostEffect s op e)
    (hs : s.status.ovr = false) (he : e.status.ovr = true) : s.busy = true := by
  cases h with
  | hazard hb => exact hb
  | command v =>
    obtain ⟨hovr, _⟩ := acceptance_status (decodeWord_command v) s
    simp [hovr, hs] at he
  | _ => simp [hs] at he

/-- The host clears OVR only by a write to STATUS (10_state.md R24). -/
theorem HostEffect.ovr_falls {s e : State} {op : Option HostOp} (h : HostEffect s op e)
    (hs : s.status.ovr = true) (he : e.status.ovr = false) :
    ∃ v, op = some (.txn (.wr32 0x08 v)) ∧ v.getLsbD 2 = true := by
  cases h with
  | command v =>
    obtain ⟨hovr, _⟩ := acceptance_status (decodeWord_command v) s
    simp [hovr, hs] at he
  | status v hop => exact ⟨v, hop, by simpa [hs] using he⟩
  | _ => simp [hs] at he

/-! ### The invariant (60_exceptions.md R171–R177) -/

/-- A reset block meets the invariant, whatever the outside holds. -/
theorem resetWith_inv {p : Params} (hp : p.valid) (h : HostSide) : (State.resetWith p h).Inv where
  params_valid := hp
  cur_wf := .nil
  prev_wf := .nil
  cur_below := by simp [State.resetWith]
  prev_below := by simp [State.resetWith]
  i_range := Nat.zero_le _
  j_range := Nat.zero_le _
  pa_range := Nat.zero_le _
  pb_range := Nat.zero_le _
  pc_range := Nat.zero_le _
  busy_done := nofun
  busy_err := nofun
  err_path := fun _ => rfl
  path_built := fun _ => .inl rfl
  predict_running := nofun
  unfilter_running := nofun
  unfilter_sequencer := nofun

section
variable {s : State}

/-- The outside is no part of the invariant. -/
theorem State.Inv.setHost (h : s.Inv) (o : HostSide) : (s.setHost o).Inv := { h with }

theorem State.Inv.setIntEn (h : s.Inv) (v : Bool) : (s.setIntEn v).Inv := { h with }

/-- OVR may change at any time, DONE may be cleared at any time. -/
theorem State.Inv.setFlags (h : s.Inv) {d o : Bool} (hd : s.status.done = false → d = false) :
    (s.setStatus { s.status with done := d, ovr := o }).Inv :=
  { h with busy_done := fun hb => hd (h.busy_done hb) }

/-- While idle the operand registers are free (30_encoding.md R95). -/
theorem State.Inv.setOperands (h : s.Inv) (hb : s.busy = false) (w : BitVec 16) (l pl : BitVec 32) (p : PredIn) :
    ((((s.setWidth w).setLen l).setPrevLen pl).setPredIn p).Inv :=
  have hidle : s.engine.phase ≠ .runUnfilter := by simp [busy_eq_false.1 hb]
  { h with
    unfilter_running := fun hr => absurd hr hidle
    unfilter_sequencer := fun hr => absurd hr hidle }

/-- A row buffer may be replaced by any other that fits LMAX. -/
theorem State.Inv.setBuffer (h : s.Inv) (b : Buffer) {m : Memory} (hwf : m.wf) (hbelow : m.below s.params.lmax) :
    (s.setBuffer b m).Inv :=
  match b with
  | .cur => { h with cur_wf := hwf, cur_below := hbelow }
  | .prev => { h with prev_wf := hwf, prev_below := hbelow }

theorem State.Inv.buffer_wf (h : s.Inv) (b : Buffer) : (s.buffer b).wf :=
  match b with
  | .cur => h.cur_wf
  | .prev => h.prev_wf

theorem State.Inv.buffer_below (h : s.Inv) (b : Buffer) : (s.buffer b).below s.params.lmax :=
  match b with
  | .cur => h.cur_below
  | .prev => h.prev_below

end


/-! ### Acceptance keeps the invariant -/

section
variable {s : State}

/-- Latching a command word while idle clears what an error or a path would constrain (60_exceptions.md R171). -/
theorem State.Inv.latchCommand (h : s.Inv) (hb : s.busy = false) (op : BitVec 4) (fg : Bool) :
    (s.latchCommand op fg).Inv :=
  have hidle := busy_eq_false.1 hb
  { h with
    busy_done := fun _ => rfl
    busy_err := fun _ => rfl
    err_path := fun _ => rfl
    path_built := fun _ => .inl rfl
    predict_running := fun hr => nomatch hidle.symm.trans hr
    unfilter_running := fun hr => nomatch hidle.symm.trans hr
    unfilter_sequencer := fun hr => nomatch hidle.symm.trans hr }

/-- A rejection reports no path (R173). -/
theorem State.Inv.raiseError (h : s.Inv) (hb : s.busy = false) (code : ErrCode) : (s.raiseError code).Inv :=
  have hidle := busy_eq_false.1 hb
  { h with
    busy_done := fun hbusy => by simp [hb] at hbusy
    busy_err := fun hbusy => by simp [hb] at hbusy
    err_path := fun _ => rfl
    path_built := fun _ => .inl rfl
    predict_running := fun hr => nomatch hidle.symm.trans hr
    unfilter_running := fun hr => nomatch hidle.symm.trans hr }

/-- PREDICT starts from its own latched word (40_predictor.md R118). -/
theorem State.Inv.startPredict (h : s.Inv) (hop : s.cmd.op = 0x1#4) (hdone : s.status.done = false)
    (herr : s.status.err = none) (hpath : s.status.path = none) : (startPredict s).Inv :=
  { h with
    busy_done := fun _ => hdone
    busy_err := fun _ => herr
    predict_running := fun _ => ⟨hop, hpath⟩
    unfilter_running := nofun
    unfilter_sequencer := nofun }

/-- Without the fast paths the selector answers GEN (41_unfilter.md R134, R135). -/
theorem selected_of_no_fastpaths (hp : s.params.hasFastpaths = false) : s.selected = .gen := by
  simp [State.selected, selectPath, hp]

/-- The sequencer that R142 zeroes stands in the row. -/
theorem sequencerInRow_startUnfilter (s : State) : (startUnfilter s).sequencerInRow := by
  by_cases hp : (startUnfilter s).engine.path = .gen
  · rw [seq_gen hp]
    exact ⟨Nat.zero_le _, fun hi => ⟨(Nat.lt_min.1 hi).2, Nat.zero_mod _⟩⟩
  · exact (seq_serial hp).2 (Nat.zero_le _)

/-- UNFILTER starts from its own latched word when no check fails (41_unfilter.md R142). -/
theorem State.Inv.startUnfilter (h : s.Inv) (hop : s.cmd.op = 0x2#4) (hcheck : s.unfilterError = none)
    (hdone : s.status.done = false) (herr : s.status.err = none) : (startUnfilter s).Inv :=
  { h with
    i_range := Nat.zero_le _
    j_range := Nat.zero_le _
    busy_done := fun _ => hdone
    busy_err := fun _ => herr
    err_path := fun he => absurd herr he
    path_built := fun hp => .inr (congrArg some (selected_of_no_fastpaths hp))
    predict_running := nofun
    unfilter_running := fun _ => ⟨hop, hcheck, rfl, rfl⟩
    unfilter_sequencer := fun _ => sequencerInRow_startUnfilter s }

/-- Each of the three ends of a command word (`acceptance_cases`) keeps the invariant. -/
theorem acceptance_inv {i : Instr} (hi : i.wellFormed = true) (h : s.Inv) (hb : s.busy = false) :
    (acceptance i s).Inv := by
  have hl := h.latchCommand hb i.op i.fg
  rcases acceptance_cases hi s with ⟨code, e, _⟩ | ⟨hop, e⟩ | ⟨hop, hcheck, e⟩ <;> rw [e]
  · exact hl.raiseError hb code
  · exact hl.startPredict hop rfl rfl rfl
  · exact hl.startUnfilter hop hcheck rfl rfl

/-- Every host effect keeps the invariant. -/
theorem HostEffect.inv {e : State} {op : Option HostOp} (he : HostEffect s op e) (h : s.Inv) : e.Inv := by
  cases he with
  | none => exact h
  | hazard => exact h.setFlags id
  | command v hb => exact acceptance_inv (decodeWord_command v) h hb
  | status v => exact h.setFlags fun hd => by simp [hd]
  | ctrl e => exact h.setIntEn e
  | width v hb => exact h.setOperands hb v s.len s.prevLen s.predIn
  | len v hb => exact h.setOperands hb s.width v s.prevLen s.predIn
  | prevLen v hb => exact h.setOperands hb s.width s.len v s.predIn
  | predIn v hb => exact h.setOperands hb s.width s.len s.prevLen v
  | byte b pos v _ hpos =>
    exact h.setBuffer b (Memory.write_wf pos v (h.buffer_wf b)) (Memory.write_below v (h.buffer_below b) hpos)
  | word b pos v _ hpos =>
    exact h.setBuffer b (Memory.write32_wf pos v (h.buffer_wf b))
      (Memory.write32_below v (h.buffer_below b) (hpos h.params_valid))

/-! ### Engine turns keep the invariant -/

/-- The finish step leaves an idle block (60_exceptions.md R174). -/
theorem State.Inv.finish (h : s.Inv) : s.finish.Inv :=
  { h with
    busy_done := nofun
    busy_err := nofun
    predict_running := nofun
    unfilter_running := nofun
    unfilter_sequencer := nofun }

/-- The predictor's distances keep their ranges in PRED_DIST (40_predictor.md R112). -/
theorem State.Inv.storePrediction (h : s.Inv) (a b c : Byte) : (s.storePrediction (paeth a b c)).Inv := by
  obtain ⟨hpa, hpb, hpc⟩ := paeth_ranges a b c
  obtain ⟨epa, epb, epc⟩ := predDist_fits a b c
  exact { h with
    pa_range := epa.trans_le hpa
    pb_range := epb.trans_le hpb
    pc_range := epc.trans_le hpc }

/-- The next position lies in the row (41_unfilter.md R136–R139). -/
theorem nextPosition_lt {j : Nat} (hseq : s.sequencerInRow) (hn : nextPosition s.engine.path s = some j) :
    j < s.opLen := by
  by_cases hp : s.engine.path = .gen
  · rw [hp] at hn
    obtain ⟨rfl, hi⟩ := next_gen.1 hn
    obtain ⟨_, hj⟩ := (seq_gen hp).1 hseq
    exact (hj hi).1
  · obtain ⟨rfl, hj⟩ := (next_serial hp).1 hn
    exact hj

/-- An element step leaves the sequencer where it is; moving on is `advance`. -/
theorem nextPosition_afterElement (p : FilterPath) (j : Nat) (k : Fin 4) (b f : Byte) :
    nextPosition p (afterElement j k b f s) = nextPosition p s := by cases p <;> rfl

/-- Moving on keeps the sequencer in the row, GEN's `i` at most the width and `j` at most the length
(10_state.md R34; 41_unfilter.md R136–R139). -/
theorem advance_in_row {j : Nat} (hseq : s.sequencerInRow) (hn : nextPosition s.engine.path s = some j) :
    (advance s.engine.path s).sequencerInRow ∧
      (advance s.engine.path s).engine.i ≤ max s.engine.i s.opWidth ∧
      (advance s.engine.path s).engine.j ≤ s.opLen := by
  by_cases hp : s.engine.path = .gen
  case neg =>
    have hp' : (advance s.engine.path s).engine.path ≠ .gen := by rwa [advance_path]
    obtain ⟨-, hj⟩ := (next_serial hp).1 hn
    rw [seq_serial hp', advance_serial hp]
    exact ⟨hj, Nat.le_max_left _ _, hj⟩
  case pos =>
    have hp' : (advance s.engine.path s).engine.path = .gen := by rwa [advance_path]
    rw [seq_gen hp']
    rw [hp] at hn ⊢
    obtain ⟨-, hi⟩ := next_gen.1 hn
    obtain ⟨-, hj⟩ := (seq_gen hp).1 hseq
    obtain ⟨-, hmod⟩ := hj hi
    obtain ⟨hiw, hil⟩ := Nat.lt_min.1 hi
    by_cases halong : s.engine.j + s.opWidth < s.opLen
    · rw [advance_gen_along halong]
      exact ⟨⟨hi.le, fun _ => ⟨halong, (Nat.add_mod_right _ _).trans hmod⟩⟩, Nat.le_max_left _ _, halong.le⟩
    · rw [advance_gen_next (Nat.not_lt.1 halong)]
      refine ⟨⟨hi, fun hnext => ?_⟩, le_max_of_le_right hiw, hil⟩
      obtain ⟨hnw, hnl⟩ := Nat.lt_min.1 hnext
      exact ⟨hnl, Nat.mod_eq_of_lt hnw⟩

/-- CUR and the sequencer may move within the row while the phase and the path stay. -/
theorem State.Inv.setSequencer (h : s.Inv) {c : Memory} {e : Engine} (hphase : e.phase = s.engine.phase)
    (hpath : e.path = s.engine.path) (hi : e.i ≤ 65535) (hj : e.j ≤ s.params.lmax) (hwf : c.wf)
    (hbelow : c.below s.params.lmax) (hseq : (s.setEngine e).sequencerInRow) : ((s.setCur c).setEngine e).Inv :=
  have hbusy : ((s.setCur c).setEngine e).busy = s.busy := busy_congr hphase
  { h with
    cur_wf := hwf
    cur_below := hbelow
    i_range := hi
    j_range := hj
    busy_done := fun hb => h.busy_done (hbusy.symm.trans hb)
    busy_err := fun hb => h.busy_err (hbusy.symm.trans hb)
    predict_running := fun hr => h.predict_running (hphase.symm.trans hr)
    unfilter_running := fun hr => by
      obtain ⟨hop, hcheck, hsel, hrep⟩ := h.unfilter_running (hphase.symm.trans hr)
      exact ⟨hop, hcheck, hpath.trans hsel, hrep⟩
    unfilter_sequencer := fun _ => hseq }

/-- An element step keeps the invariant. -/
theorem State.Inv.element (h : s.Inv) (hphase : s.engine.phase = .runUnfilter) {j : Nat}
    (hn : nextPosition s.engine.path s = some j) (b f : Byte) :
    (advance s.engine.path (afterElement j (pairOf s.engine.path j) b f s)).Inv := by
  have hseq := h.unfilter_sequencer hphase
  obtain ⟨-, hcheck, -, -⟩ := h.unfilter_running hphase
  obtain ⟨-, hlen, -⟩ := unfilterError_eq_none.1 hcheck
  have hpos := nextPosition_lt hseq hn
  obtain ⟨hseq', hi, hj⟩ := advance_in_row (s := afterElement j (pairOf s.engine.path j) b f s) hseq
    ((nextPosition_afterElement _ _ _ _ _).trans hn)
  rw [afterElement_path, advance_eq_setEngine] at hseq'
  rw [advance_eq_setEngine]
  refine h.setSequencer (by simp) (by simp) (hi.trans (max_le h.i_range ?width)) (hj.trans hlen)
    (Memory.write_wf _ _ h.cur_wf) (Memory.write_below _ h.cur_below (hpos.trans_le hlen)) hseq'
  exact Nat.le_of_lt_succ s.width.isLt

/-- Every engine effect keeps the invariant. -/
theorem EngineEffect.inv {t : State} (ht : EngineEffect s t) (h : s.Inv) : t.Inv := by
  cases ht with
  | rest => exact h
  | predict => exact (h.storePrediction _ _ _).finish
  | finish => exact h.finish
  | element hphase hn => exact h.element hphase hn _ _

end

/-- Settles O4: a step is a host effect, an engine effect or a reset, and each keeps the invariant. -/
theorem stepKeepsInvariant : Obligations.StepKeepsInvariant := by
  unfold Obligations.StepKeepsInvariant
  intro s t h hstep
  rcases step_cases hstep with ⟨_, e, o, he, rfl⟩ | ⟨_, he⟩ | ⟨_, rfl⟩
  · exact (he.inv h).setHost o
  · exact (engineTurn_effect he).inv (h.setHost _)
  · exact resetWith_inv h.params_valid _

/-! ### Where the machine stops -/

/-- A transaction refuses nothing, and stops only at an unwritten byte that it reads while idle
(60_exceptions.md R179; 70_reset_and_hazards.md R207). -/
theorem transact_outcome (t : Txn) (s : State) :
    (∃ u, transact t s = .next u) ∨
    (s.busy = false ∧ ∃ b pos, transact t s = .fault (.uninit b pos) ∧ (s.buffer b).read pos = none) := by
  rcases transact_cases t s with ⟨r, e⟩ | ⟨r, _, e⟩ | ⟨v, _, e⟩ | ⟨v, _, e⟩ | ⟨v, _, e⟩ | ⟨_, v, _, e⟩ | ⟨_, v, _, e⟩ |
    ⟨_, v, _, e⟩ | ⟨_, v, _, e⟩ | ⟨_, b, pos, v, _, e⟩ | ⟨_, b, pos, v, _, _, e⟩ | ⟨hb, b, pos, _, hread, e⟩
  any_goals exact .inl ⟨_, e⟩
  · exact .inl ⟨_, e.trans (exec_command (decodeWord_command v) _)⟩
  · exact .inr ⟨hb, b, pos, e, hread⟩

/-- A host turn stops as the one transaction of its line does. -/
theorem hostTurn_outcome (s : State) :
    (∃ u, hostTurn s = .next u) ∨
    (s.busy = false ∧ ∃ b pos, hostTurn s = .fault (.uninit b pos) ∧ (s.buffer b).read pos = none) := by
  rcases hostTurn_cases s with ⟨_, e⟩ | ⟨t, rest, _, e⟩ | ⟨off, mask, val, rest, _, h⟩ | ⟨off, v, rest, _, e⟩
  · exact .inl ⟨s, e⟩
  · rw [e]
    exact transact_outcome t (s.setProgram rest)
  · rcases h with ⟨t, _, e | e⟩ | ⟨f, ef, e⟩ | ⟨r, er, _⟩
    · exact .inl ⟨_, e⟩
    · exact .inl ⟨_, e⟩
    · rw [e, ← ef]
      exact transact_outcome (.rd32 off) s
    · rcases transact_outcome (.rd32 off) s with ⟨u, eu⟩ | ⟨_, b, pos, eu, _⟩ <;> rw [er] at eu <;> cases eu
  · rw [e]
    exact transact_outcome (.wr8 off v) (s.setProgram rest)

/-- An engine turn stops only at an unwritten byte of its element step (60_exceptions.md R179). -/
theorem engineTurn_outcome (s : State) :
    (∃ u, engineTurn s = .next u) ∨
    ∃ b pos, engineTurn s = .fault (.uninit b pos) ∧ (s.buffer b).read pos = none := by
  rcases engineTurn_cases s with ⟨_, e⟩ | ⟨_, e⟩ | ⟨_, e⟩
  · exact .inl ⟨_, e⟩
  · exact .inl ⟨_, e⟩
  · rw [e]
    rcases pathStep_cases s.engine.path s with ⟨_, e⟩ | ⟨_, _, e⟩ | ⟨_, j, b, f, _, _, _, e⟩ | ⟨_, j, b, _, hread, e⟩
    · exact .inl ⟨_, e⟩
    · exact .inl ⟨_, e⟩
    · exact .inl ⟨_, e⟩
    · exact .inr ⟨b, j, e, hread⟩

/-- Settles O6: by whose turn it is. -/
theorem onlyUnwrittenBytesStopTheMachine : Obligations.OnlyUnwrittenBytesStopTheMachine := by
  unfold Obligations.OnlyUnwrittenBytesStopTheMachine
  intro s
  cases hturn : nextTurn s with
  | host =>
    rw [step_host hturn]
    rcases hostTurn_outcome (takeTurn s) with hnext | ⟨hb, b, pos, e, hread⟩
    · exact .inl hnext
    · exact .inr ⟨b, pos, e, hread, nofun, fun _ => hb⟩
  | engine =>
    rw [step_engine hturn]
    rcases engineTurn_outcome (takeTurn s) with hnext | ⟨b, pos, e, hread⟩
    · exact .inl hnext
    · exact .inr ⟨b, pos, e, hread, nofun, nofun⟩
  | reset => exact .inl ⟨_, step_reset hturn⟩

/-! ### What single registers do over a step -/

/-- Settles O7: CAP is computed from the parameters, which no turn writes. -/
theorem capabilitiesAreConstant : Obligations.CapabilitiesAreConstant := by
  unfold Obligations.CapabilitiesAreConstant
  intro s t hstep
  have hparams : t.params = s.params := by
    rcases step_cases hstep with ⟨_, e, o, he, rfl⟩ | ⟨_, he⟩ | ⟨_, rfl⟩
    · obtain ⟨hparams, _⟩ := he.frame
      exact hparams
    · obtain ⟨hparams, _⟩ := (engineTurn_effect he).frame
      exact hparams
    · rfl
  exact ⟨hparams, congrArg capWord hparams⟩

/-- Settles O9: the engine raises DONE only as it ends BUSY and never clears it; the host's part is `HostEffect.done_rises`
and `HostEffect.done_falls`. -/
theorem doneChangesOnlyAtCommandEndOrAck : Obligations.DoneChangesOnlyAtCommandEndOrAck := by
  unfold Obligations.DoneChangesOnlyAtCommandEndOrAck
  intro s t hstep
  rcases step_cases hstep with ⟨hturn, e, o, he, rfl⟩ | ⟨hturn, he⟩ | ⟨hturn, rfl⟩
  case inl =>
    refine ⟨fun hs ht => .inr ⟨hturn, he.done_rises hs ht⟩, fun hs ht => .inr ?_⟩
    rcases he.done_falls hs ht with ⟨v, hop, hv⟩ | ⟨hb, v, hop⟩
    · obtain ⟨rest, hprogram⟩ := List.head?_eq_some_iff.1 hop
      exact .inl ⟨hturn, v, rest, hprogram, hv⟩
    · obtain ⟨rest, hprogram⟩ := List.head?_eq_some_iff.1 hop
      exact .inr ⟨hturn, hb, v, rest, hprogram⟩
  case inr.inl =>
    rcases (engineTurn_effect he).status_cases with ⟨_, hstatus⟩ | ⟨hb, hidle, hstatus⟩
    · simp +contextual [hstatus]
    · exact ⟨fun _ _ => .inl ⟨hturn, hb, hidle⟩, by simp [hstatus]⟩
  case inr.inr => exact ⟨nofun, fun _ _ => .inl hturn⟩

/-- Settles O10: the engine leaves OVR; the host's part is `HostEffect.ovr_rises` and `HostEffect.ovr_falls`. -/
theorem overrunChangesOnlyByHazardOrAck : Obligations.OverrunChangesOnlyByHazardOrAck := by
  unfold Obligations.OverrunChangesOnlyByHazardOrAck
  intro s t hstep
  rcases step_cases hstep with ⟨hturn, e, o, he, rfl⟩ | ⟨_, he⟩ | ⟨hturn, rfl⟩
  case inl =>
    refine ⟨fun hs ht => ⟨hturn, he.ovr_rises hs ht⟩, fun hs ht => .inr ?_⟩
    obtain ⟨v, hop, hv⟩ := he.ovr_falls hs ht
    obtain ⟨rest, hprogram⟩ := List.head?_eq_some_iff.1 hop
    exact ⟨hturn, v, rest, hprogram, hv⟩
  case inr.inl =>
    have hovr : t.status.ovr = s.status.ovr := by
      rcases (engineTurn_effect he).status_cases with ⟨_, hstatus⟩ | ⟨_, _, hstatus⟩ <;> rw [hstatus] <;> rfl
    simp +contextual [hovr]
  case inr.inr => exact ⟨nofun, fun _ _ => .inl hturn⟩

/-- Settles O11: no host effect writes the results, and of the engine's only PREDICT's finish step does. -/
theorem predictionWrittenOnlyByPredictFinish : Obligations.PredictionWrittenOnlyByPredictFinish := by
  unfold Obligations.PredictionWrittenOnlyByPredictFinish
  intro s t hstep hchange
  rcases step_cases hstep with ⟨_, e, o, he, rfl⟩ | ⟨hturn, he⟩ | ⟨hturn, _⟩
  case inl =>
    obtain ⟨_, hout, hdist⟩ := he.frame
    simp [hout, hdist] at hchange
  case inr.inl =>
    rcases (engineTurn_effect he).prediction_cases with ⟨hout, hdist⟩ | hfinish
    · simp [hout, hdist] at hchange
    · exact .inr ⟨hturn, hfinish⟩
  case inr.inr => exact .inl hturn

/-- Settles O21: the three phases of `engineTurn`. -/
theorem engineTurnRunsTheLatchedForm : Obligations.EngineTurnRunsTheLatchedForm := by
  unfold Obligations.EngineTurnRunsTheLatchedForm
  intro s hturn
  rw [step_engine hturn]
  refine ⟨fun hidle => ?_, fun hrun => ?_, fun hpredict => ?_⟩
  · simp [engineTurn, hidle]
  · simp [engineTurn, hrun]
  · simp [engineTurn, hpredict, predictFinish]

/-- Settles O32: a command word is a hazard access while BUSY. -/
theorem commandWhileBusyIsDropped : Obligations.CommandWhileBusyIsDropped := by
  unfold Obligations.CommandWhileBusyIsDropped
  intro i s hi hb
  exact exec_command_busy hi hb

/-! ### The frame of the path forms -/

section
variable {p : FilterPath} {s : State} {k : Fin 4}

/-- An element step writes its own pair alone (10_state.md R35). -/
theorem afterElement_other_pair {k' : Fin 4} (h : k' ≠ k) (j : Nat) (b f : Byte) :
    (afterElement j k' b f s).engine.pairA[k] = s.engine.pairA[k] ∧
      (afterElement j k' b f s).engine.pairC[k] = s.engine.pairC[k] := by
  have hval : k'.val ≠ k.val := fun e => h (Fin.ext e)
  exact ⟨Vector.getElem_set_ne k'.isLt k.isLt hval, Vector.getElem_set_ne k'.isLt k.isLt hval⟩

/-- Moving on writes no pair but GEN's pair 0, at the end of a channel (41_unfilter.md R136). -/
theorem advance_other_pair (h : ∀ j, pairOf p j ≠ k) :
    (advance p s).engine.pairA[k] = s.engine.pairA[k] ∧ (advance p s).engine.pairC[k] = s.engine.pairC[k] := by
  by_cases hp : p = .gen
  · subst hp
    have hval : 0 ≠ k.val := fun e => h 0 (Fin.ext e)
    by_cases halong : s.engine.j + s.opWidth < s.opLen
    · rw [advance_gen_along halong]; exact ⟨rfl, rfl⟩
    · rw [advance_gen_next (Nat.not_lt.1 halong)]
      exact ⟨Vector.getElem_set_ne (by decide) k.isLt hval, Vector.getElem_set_ne (by decide) k.isLt hval⟩
  · rw [advance_serial hp]; exact ⟨rfl, rfl⟩

/-- A path's element step keeps the pairs the path does not use (R35). -/
theorem elementStep_other_pair (h : ∀ j, pairOf p j ≠ k) (j : Nat) (b f : Byte) :
    (advance p (afterElement j (pairOf p j) b f s)).engine.pairA[k] = s.engine.pairA[k] ∧
      (advance p (afterElement j (pairOf p j) b f s)).engine.pairC[k] = s.engine.pairC[k] := by
  obtain ⟨ha, hc⟩ := advance_other_pair (s := afterElement j (pairOf p j) b f s) h
  obtain ⟨ha', hc'⟩ := afterElement_other_pair (s := s) (h j) j b f
  exact ⟨ha.trans ha', hc.trans hc'⟩

end

/-- Settles O39: by the three ways a path step goes through: no step, the finish step, an element step. -/
theorem pathFormsFrame : Obligations.PathFormsFrame := by
  unfold Obligations.PathFormsFrame
  intro s t p fg h
  rw [exec_instr] at h
  rcases pathStep_cases p s with ⟨_, e⟩ | ⟨hrun, _, e⟩ | ⟨hrun, j, b, f, hn, _, _, e⟩ | ⟨_, _, _, _, _, e⟩ <;>
    rw [e] at h <;> cases h
  case inl => simp
  case inr.inl => simp [hrun]
  case inr.inr.inl =>
    have hcur := fun a (ha : a ≠ j) v => Memory.read_write_other s.cur v ha
    have hpairs := fun k (hk : ∀ j, pairOf p j ≠ k) => elementStep_other_pair (s := s) hk j b f
    simpa +contextual [hn, hrun, hcur] using hpairs

/-! ### Register writes and the interrupt -/

/-- A 32-bit write at a register's offset is that register's write (20_memory.md R64). -/
theorem transact_wr32_reg (r : Reg) (v : Word) (s : State) : transact (.wr32 r.offset v) s = writeReg r v s := by
  simp [transact]

/-- A register that is written only while idle takes its write then (70_reset_and_hazards.md R207). -/
theorem transact_wr32_idle {s : State} {r : Reg} {v : Word} {effect : State → State} (hb : s.busy = false)
    (h : writeReg r v s = .next ((s.respond .written).whenIdle effect)) :
    transact (.wr32 r.offset v) s = .next (effect (s.respond .written)) := by
  rw [transact_wr32_reg, h, whenIdle_idle (by simpa using hb)]

/-- A field's bits as a number: `n` bits of a word from bit `lo` on (00_scope.md R6). -/
theorem extractLsb'_eq_ofNat (v : Word) (lo n : Nat) : v.extractLsb' lo n = BitVec.ofNat n (v.toNat / 2 ^ lo) := by
  apply BitVec.eq_of_toNat_eq
  simp [BitVec.extractLsb'_toNat, Nat.shiftRight_eq_div_pow]

/-- WIDTH reads a written word's field with the reserved bits 0 (10_state.md R26). -/
theorem widthWord_extract (v : Word) : widthWord (v.extractLsb' 0 16) = v &&& Reg.width.fieldMask := by
  unfold widthWord Reg.fieldMask bitsAt
  ext i hi
  interval_cases i <;> simp

/-- PRED_IN reads a written word's fields with the reserved bits 0 (10_state.md R29). -/
theorem predInWord_predInOf (v : Word) : predInWord (predInOf v) = v &&& Reg.predIn.fieldMask := by
  unfold predInWord predInOf Reg.fieldMask bitsAt
  ext i hi
  interval_cases i <;> simp

/-- Settles O53: each write is `writeReg` while idle, and each register reads the fields it stored. -/
theorem configurationWritesReadBack : Obligations.ConfigurationWritesReadBack := by
  unfold Obligations.ConfigurationWritesReadBack
  intro s v hb
  have hwidth : transact (.wr32 Reg.width.offset v) s =
      .next ((s.setWidth (v.extractLsb' 0 16)).respond .written) :=
    (transact_wr32_idle (r := .width) hb rfl :)
  have hlen : transact (.wr32 Reg.len.offset v) s = .next ((s.setLen v).respond .written) :=
    (transact_wr32_idle (r := .len) hb rfl :)
  have hprevLen : transact (.wr32 Reg.prevLen.offset v) s = .next ((s.setPrevLen v).respond .written) :=
    (transact_wr32_idle (r := .prevLen) hb rfl :)
  have hpredIn : transact (.wr32 Reg.predIn.offset v) s = .next ((s.setPredIn (predInOf v)).respond .written) :=
    (transact_wr32_idle (r := .predIn) hb rfl :)
  refine ⟨?_, hlen, hprevLen, ?_, ?_⟩
  · rw [extractLsb'_eq_ofNat, Nat.pow_zero, Nat.div_one] at hwidth
    exact hwidth
  · simp only [predInOf, extractLsb'_eq_ofNat, Nat.pow_zero, Nat.div_one] at hpredIn
    exact hpredIn
  · intro r hr t ht
    simp only [List.mem_cons, List.not_mem_nil, or_false] at hr
    rcases hr with rfl | rfl | rfl | rfl
    · cases hwidth.symm.trans ht
      exact widthWord_extract v
    · cases hlen.symm.trans ht
      exact (BitVec.and_allOnes (x := v)).symm
    · cases hprevLen.symm.trans ht
      exact (BitVec.and_allOnes (x := v)).symm
    · cases hpredIn.symm.trans ht
      exact predInWord_predInOf v

/-- A flag that a write clears where bit `i` of its word is 1, as arithmetic. -/
theorem and_not_getLsbD (d : Bool) (v : Word) (i : Nat) :
    (d && !v.getLsbD i) = if v.toNat / 2 ^ i % 2 = 1 then false else d := by
  rw [BitVec.getLsbD, Nat.testBit_eq_decide_div_mod_eq]
  by_cases h : v.toNat / 2 ^ i % 2 = 1 <;> simp [h]

/-- A write to STATUS takes effect at any time (10_state.md R24). -/
theorem transact_wr32_status (v : Word) (s : State) :
    transact (.wr32 0x08 v) s = .next ((s.respond .written).clearStatus v) :=
  transact_wr32_reg .status v s

/-- A write to CTRL takes effect at any time (10_state.md R25). -/
theorem transact_wr32_ctrl (v : Word) (s : State) :
    transact (.wr32 0x0C v) s = .next ((s.respond .written).setIntEn (v.getLsbD 0)) :=
  transact_wr32_reg .ctrl v s

/-- Settles O54: a STATUS write is `State.clearStatus`, whose two flags are read as arithmetic. -/
theorem statusWritesClearDoneAndOverrun : Obligations.StatusWritesClearDoneAndOverrun := by
  unfold Obligations.StatusWritesClearDoneAndOverrun
  intro s v
  rw [transact_wr32_status, State.clearStatus, and_not_getLsbD, and_not_getLsbD]
  rfl

/-- Settles O55: the engine turn that ends BUSY sets DONE and keeps INT_EN; the writes are those of CTRL and STATUS. -/
theorem interruptFollowsDoneAndEnable : Obligations.InterruptFollowsDoneAndEnable := by
  unfold Obligations.InterruptFollowsDoneAndEnable
  refine ⟨fun s => by simp [State.irq], fun _ _ => rfl, fun s t hstep hbusy hidle hturn => ?ends,
    fun s code => by simp [State.irq], fun s v hv => ⟨_, transact_wr32_ctrl v s, ?_, rfl⟩,
    fun s v hv => ⟨_, transact_wr32_status v s, ?_, rfl⟩⟩
  case ends =>
    rw [step_engine hturn] at hstep
    have heffect := engineTurn_effect hstep
    obtain ⟨-, -, hintEn, -⟩ := heffect.frame
    rcases heffect.status_cases with ⟨hsame, _⟩ | ⟨_, _, hstatus⟩
    · simp [hsame, hbusy] at hidle
    · simp [State.irq, hstatus, hintEn]
  · simp only [State.irq, setIntEn_intEn, hv, Bool.false_and]
  · simp [State.irq, hv]

/-! ### The registers' fields as numbers (10_state.md R22–R31) -/

/-- A field at bit `i` over a number that ends below it. -/
theorem mul_two_pow_or {x y i : Nat} (h : y < 2 ^ i) : x * 2 ^ i ||| y = x * 2 ^ i + y := by
  rw [Nat.mul_comm, Nat.two_pow_add_eq_or_of_lt h]

theorem capWord_toNat {p : Params} (hp : p.valid) :
    (capWord p).toNat = 2 ^ 24 + p.k * 2 ^ 8 + p.hasFastpaths.toNat := by
  have hk : (BitVec.ofNat 5 p.k).toNat = p.k := by
    rw [BitVec.toNat_ofNat, Nat.mod_eq_of_lt (hp.2.trans_lt (by decide))]
  have hfast := (BitVec.ofBool p.hasFastpaths).isLt
  have hk8 := hp.2
  simp (disch := omega) only [capWord, BitVec.or_assoc, BitVec.toNat_or, bitsAt_toNat, hk, mul_two_pow_or]
  simp [Nat.add_assoc]

theorem cmdWord_toNat (c : CmdReg) : (cmdWord c).toNat = c.fg.toNat * 2 ^ 8 + c.op.toNat := by
  have hop := c.op.isLt
  simp (disch := omega) only [cmdWord, packWord, BitVec.toNat_or, bitsAt_toNat, mul_two_pow_or]
  simp

theorem statusWord_toNat (busy : Bool) (t : StatusReg) :
    (statusWord busy t).toNat =
      (pathBits t.path).toNat * 2 ^ 8 + (errBits t.err).toNat * 2 ^ 4 + t.ovr.toNat * 2 ^ 2 + t.done.toNat * 2 +
        busy.toNat := by
  have herr := (errBits t.err).isLt
  have hovr := (BitVec.ofBool t.ovr).isLt
  have hdone := (BitVec.ofBool t.done).isLt
  have hbusy := (BitVec.ofBool busy).isLt
  simp (disch := omega) only [statusWord, BitVec.or_assoc, BitVec.toNat_or, bitsAt_toNat, mul_two_pow_or]
  simp [Nat.add_assoc]

theorem predInWord_toNat (p : PredIn) :
    (predInWord p).toNat = p.c.toNat * 2 ^ 16 + p.b.toNat * 2 ^ 8 + p.a.toNat := by
  have hb := p.b.isLt
  have ha := p.a.isLt
  simp (disch := omega) only [predInWord, BitVec.or_assoc, BitVec.toNat_or, bitsAt_toNat, mul_two_pow_or]
  simp [Nat.add_assoc]

theorem predOutWord_toNat (p : PredOut) :
    (predOutWord p).toNat = (selBits p.sel).toNat * 2 ^ 8 + p.result.toNat := by
  have hresult := p.result.isLt
  simp (disch := omega) only [predOutWord, BitVec.toNat_or, bitsAt_toNat, mul_two_pow_or]
  simp

theorem predDistWord_toNat (p : PredDist) :
    (predDistWord p).toNat = p.pc.toNat * 2 ^ 20 + p.pb.toNat * 2 ^ 10 + p.pa.toNat := by
  have hb := p.pb.isLt
  have ha := p.pa.isLt
  simp (disch := omega) only [predDistWord, BitVec.or_assoc, BitVec.toNat_or, bitsAt_toNat, mul_two_pow_or]
  simp [Nat.add_assoc]

/-- A word with one field at bit 0 is that field's number. -/
theorem bitsAt_zero_toNat {n : Nat} (v : BitVec n) (h : n ≤ 32) : (bitsAt 0 v).toNat = v.toNat := by
  rw [bitsAt_toNat 0 v h, Nat.pow_zero, Nat.mul_one]

/-- Settles O56: register by register. -/
theorem registerFieldsStandInTheirBits : Obligations.RegisterFieldsStandInTheirBits := by
  unfold Obligations.RegisterFieldsStandInTheirBits
  intro s hp
  have hctrl : (s.readReg .ctrl).toNat = s.intEn.toNat :=
    (bitsAt_zero_toNat (BitVec.ofBool s.intEn) (by decide)).trans (BitVec.toNat_ofBool s.intEn)
  exact ⟨capWord_toNat hp, cmdWord_toNat s.cmd, statusWord_toNat s.busy s.status, hctrl,
    bitsAt_zero_toNat s.width (by decide), rfl, rfl, predInWord_toNat s.predIn, predOutWord_toNat s.predOut,
    predDistWord_toNat s.predDist⟩

end Sys2Proof.Machine
end

section
namespace Sys2Proof

/-! ### Encoding a command and decoding its word (30_encoding.md §1, §3) -/

/-- The facts of `Laws.Encoding`, one per constructor, as one. -/
theorem encoding_statement (i : Instr) : Laws.Encoding.Statement i :=
  match i with
  | .predict fg => Laws.Encoding.predict fg
  | .unfilter => Laws.Encoding.unfilter
  | .unfilterG => Laws.Encoding.unfilterG
  | .unfilterW1 => Laws.Encoding.unfilterW1
  | .unfilterW3 => Laws.Encoding.unfilterW3
  | .unfilterW4 => Laws.Encoding.unfilterW4
  | .unfilterGen fg => Laws.Encoding.unfilterGen fg
  | .reserved0 fg => Laws.Encoding.reserved0 fg
  | .reserved3 fg => Laws.Encoding.reserved3 fg
  | .reserved4to7 op fg => Laws.Encoding.reserved4to7 op fg
  | .reserved8toF op fg => Laws.Encoding.reserved8toF op fg

/-- An instruction's word decodes to the command that shares it (R96, R97). -/
@[simp] theorem decodeWord_encode (i : Instr) : decodeWord (encode i) = i.command :=
  (encoding_statement i).left

/-- A well-formed command shares its word with no other. -/
theorem command_eq_self {i : Instr} (hi : i.wellFormed = true) : i.command = i :=
  (encoding_statement i).right.mp hi

/-- The decoder on the four lanes of a word is the decoder on the word, and hands back what follows (20_memory.md R63;
R98). -/
theorem decode_byteLanes (w : Word) (rest : List Byte) :
    decode (byteLane w 0 :: byteLane w 1 :: byteLane w 2 :: byteLane w 3 :: rest) = .ok (decodeWord w, rest) := by
  rw [decode, wordOfBytes_byteLane]

/-- The table's numbering of a full word is the word (R98). -/
@[simp] theorem tableWord_toNat (w : Word) : tableWord 32 w.toNat = w := by
  rw [tableWord, Nat.mod_eq_of_lt w.isLt, BitVec.ofNat_toNat, BitVec.setWidth_eq]

/-- What the decoder reads from a word given as a number. -/
theorem decodeTableWord_toNat (w : Word) : decodeTableWord 32 w.toNat = some (decodeWord w) := by
  simp only [decodeTableWord, tableWord_toNat, decode_byteLanes]

/-- Settles O14: the lanes rebuild the word, and the word of each instruction decodes to the command that shares it. -/
theorem decodeOfEncodeIsTheInstruction : Obligations.DecodeOfEncodeIsTheInstruction := by
  unfold Obligations.DecodeOfEncodeIsTheInstruction
  refine ⟨fun i rest hi => ?_, fun i => ?_⟩
  · rw [decode_byteLanes, decodeWord_encode, command_eq_self hi]
  · rw [decodeTableWord_toNat, decodeWord_encode]

end Sys2Proof
end

section
namespace Sys2Proof.Machine

/-! ### A running UNFILTER under every interleaving (20_memory.md R66, R69; 70_reset_and_hazards.md R207) -/

/-- What neither the host nor the engine's element steps change while a row of length `l` is reconstructed: PREV, CUR
past the row, and the command's report in STATUS. -/
structure OutsideRow (l : Nat) (u v : State) : Prop where
  prev : v.prev = u.prev
  cur : ∀ x, l ≤ x → v.cur.read x = u.cur.read x
  err : v.status.err = u.status.err
  path : v.status.path = u.status.path

theorem OutsideRow.refl (l : Nat) (u : State) : OutsideRow l u u := ⟨rfl, fun _ _ => rfl, rfl, rfl⟩

theorem OutsideRow.trans {l : Nat} {u v t : State} (huv : OutsideRow l u v) (hvt : OutsideRow l v t) :
    OutsideRow l u t where
  prev := hvt.prev.trans huv.prev
  cur := fun x hx => (hvt.cur x hx).trans (huv.cur x hx)
  err := hvt.err.trans huv.err
  path := hvt.path.trans huv.path

section
variable {F P R : Nat → Byte} {w l : Nat} {p : FilterPath} {u : State}

/-- A host turn does not reach the row while the command runs (R207). -/
theorem RowProgress.step_hostTurn (h : RowProgress F P R w l p u) (hturn : nextTurn u = .host) :
    ∃ v, step u = .next v ∧ RowProgress F P R w l p v ∧ remaining w l p v = remaining w l p u ∧
      v.host.schedule = u.host.schedule.tail ∧ OutsideRow l u v := by
  obtain ⟨st, e, o, hstep, herr, hpath, hsched, -⟩ := hostTurn_busy (s := takeTurn u) h.busy
  rw [← step_host hturn] at hstep
  exact ⟨_, hstep, h.congr rfl rfl rfl rfl rfl, remaining_congr rfl, hsched, rfl, fun _ _ => rfl, herr, hpath⟩

/-- An engine turn with positions left reconstructs one of them (41_unfilter.md R140). -/
theorem RowProgress.step_engineTurn (hw : p.fits w) (hR : RowRecurrence w l F P R) (h : RowProgress F P R w l p u)
    (hturn : nextTurn u = .engine) (hleft : 0 < remaining w l p u) :
    ∃ v, step u = .next v ∧ RowProgress F P R w l p v ∧ remaining w l p v + 1 = remaining w l p u ∧
      v.host.schedule = u.host.schedule.tail ∧ OutsideRow l u v := by
  have h' : RowProgress F P R w l p (takeTurn u) := h.congr rfl rfl rfl rfl rfl
  have hleft' : remaining w l p (takeTurn u) = remaining w l p u := remaining_congr rfl
  cases hn : nextPosition p (takeTurn u) with
  | none =>
    have hzero := (h'.remaining_eq_zero hw).2 hn
    omega
  | some j =>
    obtain ⟨hj, hprogress, -⟩ := h'.move hw hR hn
    have hcount := h'.remaining_step hw hR hn
    have hstep := h'.engineTurn_element hw hR hn
    rw [← step_engine hturn] at hstep
    refine ⟨_, hstep, hprogress, by omega, by simp, by simp, fun x hx => ?_, by simp, by simp⟩
    rw [advance_cur, afterElement_cur, Memory.read_write_other _ _ (by omega), takeTurn_cur]

/-- Any list of turns without a reset, in whatever order: each engine turn reconstructs one position, and no turn
reaches anything else of the row (D17). -/
theorem RowProgress.run_turns (hw : p.fits w) (hR : RowRecurrence w l F P R) (turns : List Turn) {rest : List Turn}
    (h : RowProgress F P R w l p u) (hsched : u.host.schedule = turns ++ rest) (hreset : Turn.reset ∉ turns)
    (hleft : turns.count .engine ≤ remaining w l p u) :
    ∃ v, runSteps turns.length u = .next v ∧ RowProgress F P R w l p v ∧
      remaining w l p v + turns.count .engine = remaining w l p u ∧ v.host.schedule = rest ∧ OutsideRow l u v := by
  induction turns generalizing u with
  | nil => exact ⟨u, rfl, h, rfl, hsched, .refl l u⟩
  | cons t turns ih =>
    have hturn : nextTurn u = t := by simp [nextTurn, hsched]
    have hfirst : ∃ v, step u = .next v ∧ RowProgress F P R w l p v ∧
        remaining w l p v + [t].count .engine = remaining w l p u ∧ v.host.schedule = u.host.schedule.tail ∧
        OutsideRow l u v := by
      cases t with
      | host => exact h.step_hostTurn hturn
      | engine =>
        rw [List.count_cons_self] at hleft
        exact h.step_engineTurn hw hR hturn (by omega)
      | reset => exact absurd List.mem_cons_self hreset
    obtain ⟨v, hstep, hv, hcount, htail, hout⟩ := hfirst
    have hcons : (t :: turns).count .engine = [t].count .engine + turns.count .engine :=
      List.count_append (l₁ := [t])
    rw [hsched] at htail
    obtain ⟨v', hrun, hv', hcount', hrest, hout'⟩ :=
      ih hv htail (fun hmem => hreset (List.mem_cons_of_mem t hmem)) (by omega)
    exact ⟨v', (runSteps_succ hstep _).trans hrun, hv', by omega, hrest, hout.trans hout'⟩

/-- The finish step, once no position is left: CUR holds the reconstructed row (41_unfilter.md R142; 60_exceptions.md
R174). -/
theorem RowProgress.step_finish (hw : p.fits w) (h : RowProgress F P R w l p u) (hturn : nextTurn u = .engine)
    (hleft : remaining w l p u = 0) :
    step u = .next (takeTurn u).finish ∧ ∀ x, x < l → u.cur.read x = some (R x) := by
  have hn := (h.remaining_eq_zero hw).1 hleft
  have h' : RowProgress F P R w l p (takeTurn u) := h.congr rfl rfl rfl rfl rfl
  exact ⟨(step_engine hturn).trans (h'.engineTurn_finish hn), fun x hx => h.done x hx (h.all_done hw hn hx)⟩

end

/-- Settles O43: the loop invariant `RowProgress` from acceptance, over the list of turns, to the finish step. -/
theorem resultIsTheSameUnderEveryInterleaving : Obligations.ResultIsTheSameUnderEveryInterleaving := by
  unfold Obligations.ResultIsTheSameUnderEveryInterleaving
  intro s fg Rc program turns hready hwritten hR hreset hcount
  have ⟨_, hwidth, _⟩ := hready
  have hw := selectPath_fits s.params.hasFastpaths fg hwidth s.opLen
  obtain ⟨hstart, hleft⟩ := rowProgress_start (R := Rc) (fg := fg) hready hwritten
  obtain ⟨v, hrun, hv, hdone, hrest, hout⟩ :=
    RowProgress.run_turns hw hR turns (rest := [.engine])
      (u := ((s.afterUnfilter fg).setProgram program).setSchedule (turns ++ [.engine]))
      (hstart.congr rfl rfl rfl rfl rfl) rfl hreset (hcount.trans_le hleft.ge)
  have hnone : remaining s.opWidth s.opLen (selectPath s.params.hasFastpaths fg s.opWidth s.opLen) v = 0 := by
    have hsame := hdone.trans ((remaining_congr rfl).trans hleft)
    omega
  obtain ⟨hfinish, hrow⟩ := hv.step_finish hw (by simp [nextTurn, hrest]) hnone
  exact ⟨_, (runSteps_add hrun 1).trans (runSteps_succ hfinish 0), hrow, hout.cur, hout.prev, rfl, rfl, hout.err,
    hout.path⟩

end Sys2Proof.Machine
end

section
namespace Sys2Proof.Machine

/-! ### Bus errors (20_memory.md R62, R65) -/

/-- A transaction that R62 does not allow is a bus error, whatever the state. -/
theorem transact_not_allowed {t : Txn} {s : State} (h : t.allowed s.params = false) :
    transact t s = .next (busError t.isWrite s) := by
  cases t with
  | rd8 off | wr8 off | rd32 off | wr32 off =>
    cases hp : place s.params off <;> simp_all [transact, Txn.allowed, Txn.isWrite]
  | otherSize off write => rfl

section
variable {p : Params} {off : Nat}

/-- An unmapped offset reaches nothing (R61). -/
theorem place_unmapped (hp : p.valid) (h : unmapped p off) : place p off = .nothing := by
  have hlmax := lmax_ge p hp
  rcases h with ⟨hlo, hhi⟩ | ⟨hlo, hhi⟩ | hpast
  · rw [place, if_pos hhi, regAt_none_of_ge hlo]
  · rw [place, if_neg (by omega), if_pos hhi]
  · rw [place, if_neg (by omega), if_neg (by omega), if_neg (by omega), if_neg (by omega)]

/-- The windows begin at 0x100 or above (R61). -/
theorem windowOffset_ge (hp : p.valid) (b : Buffer) (pos : Nat) : 0x100 ≤ windowOffset p b pos := by
  have hlmax := lmax_ge p hp
  cases b <;> simp only [windowOffset] <;> omega

/-- No byte access is allowed outside the windows (R62). -/
theorem byte_not_allowed (hp : p.valid) (h : off < 0x100 ∨ unmapped p off) (x : Byte) :
    (Txn.rd8 off).allowed p = false ∧ (Txn.wr8 off x).allowed p = false := by
  cases hplace : place p off with
  | reg r => simp [Txn.allowed, hplace]
  | nothing => simp [Txn.allowed, hplace]
  | window b pos =>
    rcases h with hlow | hunmapped
    · obtain ⟨-, rfl⟩ := place_eq_window hplace
      exact absurd (windowOffset_ge hp b pos) (by omega)
    · rw [place_unmapped hp hunmapped] at hplace
      cases hplace

/-- No 32-bit access is allowed unaligned or outside the registers and windows (R62). -/
theorem word_not_allowed (hp : p.valid) (h : off % 4 ≠ 0 ∨ unmapped p off) (v : Word) :
    (Txn.rd32 off).allowed p = false ∧ (Txn.wr32 off v).allowed p = false := by
  rcases h with hodd | hunmapped
  · cases hplace : place p off with
    | reg r =>
      obtain rfl := place_eq_reg hplace
      exact absurd r.offset_mod_four hodd
    | window b pos => simp [Txn.allowed, hplace, hodd]
    | nothing => simp [Txn.allowed, hplace]
  · simp [Txn.allowed, place_unmapped hp hunmapped]

end

/-- Settles O48: the accesses listed are not allowed, so they are bus errors, which only respond. -/
theorem busErrorsChangeNothing : Obligations.BusErrorsChangeNothing := by
  unfold Obligations.BusErrorsChangeNothing
  intro s off v x write hp _
  refine ⟨fun h => ?bytes, fun h => ?words, transact_not_allowed rfl, rfl⟩
  case bytes =>
    obtain ⟨hread, hwrite⟩ := byte_not_allowed hp h x
    exact ⟨transact_not_allowed hread, transact_not_allowed hwrite⟩
  case words =>
    obtain ⟨hread, hwrite⟩ := word_not_allowed hp h v
    exact ⟨transact_not_allowed hread, transact_not_allowed hwrite⟩

/-! ### Words in the windows (20_memory.md R63, R64) -/

section
variable {s : State}

@[simp] theorem buffer_setBuffer_same (s : State) (b : Buffer) (m : Memory) : (s.setBuffer b m).buffer b = m := by
  cases b <;> rfl

@[simp] theorem buffer_respond (s : State) (r : BusResponse) (b : Buffer) : (s.respond r).buffer b = s.buffer b := by
  cases b <;> rfl

/-- A response and a buffer write do not see each other. -/
theorem respond_setBuffer (s : State) (r : BusResponse) (b : Buffer) (m : Memory) :
    (s.respond r).setBuffer b m = (s.setBuffer b m).respond r := by cases b <;> rfl

/-- An aligned 32-bit access at a window byte's offset is that window's. -/
theorem transact_word_window (hp : s.params.valid) (b : Buffer) {pos : Nat} (hpos : pos < s.params.lmax)
    (halign : pos % 4 = 0) (v : Word) :
    transact (.rd32 (windowOffset s.params b pos)) s = windowRead32 b pos s ∧
      transact (.wr32 (windowOffset s.params b pos) v) s = .next (windowWrite32 b pos v s) := by
  have hoff : windowOffset s.params b pos % 4 = 0 := (windowOffset_mod_four hp b pos).trans halign
  simp [transact, place_window hp b hpos, hoff]

/-- An idle 32-bit read of four written bytes answers them, lowest position in the lowest lane. -/
theorem windowRead32_idle (hb : s.busy = false) {b : Buffer} {pos : Nat} {b0 b1 b2 b3 : Byte}
    (h0 : (s.buffer b).read pos = some b0) (h1 : (s.buffer b).read (pos + 1) = some b1)
    (h2 : (s.buffer b).read (pos + 2) = some b2) (h3 : (s.buffer b).read (pos + 3) = some b3) :
    windowRead32 b pos s = .next (s.respond (.word (b3 ++ b2 ++ b1 ++ b0))) := by
  simp [windowRead32, hb, Memory.read32_ok h0 h1 h2 h3, wordOfBytes_eq_append]

/-- An idle 32-bit write stores its word and answers. -/
theorem windowWrite32_idle (hb : s.busy = false) (b : Buffer) (pos : Nat) (v : Word) :
    windowWrite32 b pos v s = (s.setBuffer b ((s.buffer b).write32 pos v)).respond .written := by
  rw [windowWrite32, whenIdle_idle (by simpa using hb), buffer_respond, respond_setBuffer]

/-- Lane `n` of a stored word stands at position `a + n`. -/
theorem Memory.read_write32_lane (m : Memory) (a : Nat) (v : Word) {n : Nat} (hn : n < 4) :
    (m.write32 a v).read (a + n) = some (byteLane v n) := by
  rw [Memory.read_write32]
  interval_cases n <;> simp

/-- A stored word leaves the bytes around its four. -/
theorem Memory.read_write32_other (m : Memory) {a x : Nat} (v : Word) (hx : x < a ∨ a + 4 ≤ x) :
    (m.write32 a v).read x = m.read x := by
  rw [Memory.read_write32, if_neg (by omega), if_neg (by omega), if_neg (by omega), if_neg (by omega)]

end

/-- Settles O50: both accesses are the window's own; what is read after the write are the word's lanes. -/
theorem windowWordsAreLittleEndian : Obligations.WindowWordsAreLittleEndian := by
  unfold Obligations.WindowWordsAreLittleEndian
  intro s b pos v hp hb hpos halign
  obtain ⟨hread, hwrite⟩ := transact_word_window hp b hpos halign v
  rw [windowWrite32_idle hb] at hwrite
  refine ⟨fun b0 b1 b2 b3 h0 h1 h2 h3 => hread.trans (windowRead32_idle hb h0 h1 h2 h3),
    _, hwrite, fun n hn => ?lanes, fun a ha => ?others, ?frame⟩
  case lanes =>
    rw [buffer_respond, buffer_setBuffer_same, Memory.read_write32_lane _ _ _ hn, byteLane_toNat]
  case others => rw [buffer_respond, buffer_setBuffer_same, Memory.read_write32_other _ _ ha]
  case frame => rw [buffer_respond, buffer_setBuffer_same]

/-! ### Lines of a host program (30_encoding.md R99, R100) -/

/-- What was read last does not depend on the writes since. -/
theorem lastRead_append {newer : List BusResponse} (h : ∀ x ∈ newer, x.readData = none) (older : List BusResponse) :
    lastRead (newer ++ older) = lastRead older := by
  induction newer with
  | nil => rfl
  | cons r newer ih =>
    obtain ⟨hr, hnewer⟩ := List.forall_mem_cons.1 h
    rw [List.cons_append, lastRead, hr]
    exact ih hnewer

/-- The most recent response is what was read last, where it answers a read. -/
theorem lastRead_cons {r : BusResponse} {d : Word} (h : r.readData = some d) (older : List BusResponse) :
    lastRead (r :: older) = d := by
  rw [lastRead, h]

/-- A 32-bit read that goes through answers with data (20_memory.md R65; 70_reset_and_hazards.md R207). -/
theorem transact_rd32_responds {off : Nat} {s u : State} (h : transact (.rd32 off) s = .next u) :
    ∃ r d, u.host.responses = r :: s.host.responses ∧ r.readData = some d := by
  by_cases hok : (Txn.rd32 off).allowed s.params = true
  case neg =>
    rw [transact_not_allowed (Bool.eq_false_iff.2 hok)] at h
    cases h
    exact ⟨.readError, _, rfl, rfl⟩
  case pos =>
    cases hp : place s.params off with
    | reg r =>
      simp only [transact, hp] at h
      cases h
      exact ⟨.word (s.readReg r), _, rfl, rfl⟩
    | nothing => simp [Txn.allowed, hp] at hok
    | window b pos =>
      have halign : off % 4 = 0 := by simpa [Txn.allowed, hp] using hok
      simp only [transact, hp, if_pos halign, windowRead32] at h
      split at h
      · cases h
        exact ⟨.word 0x00000000#32, _, rfl, rfl⟩
      · split at h <;> cases h
        exact ⟨.word _, _, rfl, rfl⟩

theorem pollResult_match {mask val : Word} {rest : List HostOp} {t : State}
    (h : lastRead t.host.responses &&& mask = val) : pollResult mask val rest t = t.setProgram rest := if_pos h

theorem pollResult_mismatch {mask val : Word} {rest : List HostOp} {t : State}
    (h : lastRead t.host.responses &&& mask ≠ val) : pollResult mask val rest t = t := if_neg h

/-- A register's offset answers a 32-bit read with the register (20_memory.md R64). -/
theorem transact_rd32_reg (r : Reg) (s : State) :
    transact (.rd32 r.offset) s = .next (s.respond (.word (s.readReg r))) := by
  simp [transact]

/-- The turns still to come are no part of a register. -/
@[simp] theorem readReg_takeTurn (r : Reg) (s : State) : (takeTurn s).readReg r = s.readReg r := by cases r <;> rfl

/-! The host's turn, line by line. -/

section
variable {s : State} {rest : List HostOp} (hturn : nextTurn s = .host)
include hturn

theorem step_programEnd (h : s.host.program = []) : step s = .next (takeTurn s) := by
  rw [step_host hturn, hostTurn, takeTurn_host, h]

theorem step_txn {t : Txn} (h : s.host.program = .txn t :: rest) :
    step s = transact t ((takeTurn s).setProgram rest) := by
  rw [step_host hturn, hostTurn, takeTurn_host, h]

/-- A `POLL` line whose read goes through ends or stays, by what was read. -/
theorem step_poll_next {off : Nat} {mask val : Word} (h : s.host.program = .poll off mask val :: rest) {u : State}
    (hread : transact (.rd32 off) (takeTurn s) = .next u) : step s = .next (pollResult mask val rest u) := by
  simp only [step_host hturn, hostTurn, takeTurn_host, h, hread]

/-- A `POLL` line stops where its read does. -/
theorem step_poll_fault {off : Nat} {mask val : Word} (h : s.host.program = .poll off mask val :: rest) {f : Fault}
    (hread : transact (.rd32 off) (takeTurn s) = .fault f) : step s = .fault f := by
  simp only [step_host hturn, hostTurn, takeTurn_host, h, hread]

/-- A `WR8 off, t` line writes the low byte of what was read last. -/
theorem step_wr8Last {off : Nat} (h : s.host.program = .wr8Last off :: rest) :
    step s =
      transact (.wr8 off (BitVec.ofNat 8 (lastRead s.host.responses).toNat)) ((takeTurn s).setProgram rest) := by
  have hlow := byteLane_toNat (lastRead s.host.responses) 0
  rw [Nat.mul_zero, Nat.pow_zero, Nat.div_one] at hlow
  simp only [step_host hturn, hostTurn, takeTurn_host, h, hlow]

end

/-- Settles O22: one rule for each kind of line, with what a POLL's read and the host's last read are. -/
theorem hostTurnPerformsOneLine : Obligations.HostTurnPerformsOneLine := by
  unfold Obligations.HostTurnPerformsOneLine
  intro s hturn
  refine ⟨step_programEnd hturn, fun t rest => step_txn hturn, fun r mask val rest hline => ?pollReg,
    fun off mask val rest hline => ⟨fun u hread => ?pollNext, fun f => step_poll_fault hturn hline⟩,
    fun off v rest resp hline hresp => ?byteRead, fun off rest newer r d older hline hresp hnewer hr => ?anyRead,
    fun off rest hline _ => ⟨_, step_wr8Last hturn hline⟩⟩
  case pollReg =>
    have hpoll := step_poll_next hturn hline (transact_rd32_reg r (takeTurn s))
    rw [readReg_takeTurn] at hpoll
    exact ⟨fun h => hpoll.trans (congrArg _ (pollResult_match h)),
      fun h => hpoll.trans (congrArg _ (pollResult_mismatch h))⟩
  case pollNext =>
    have hpoll := step_poll_next hturn hline hread
    obtain ⟨r, d, hresp, hr⟩ := transact_rd32_responds hread
    have hlast : lastRead u.host.responses = d := by rw [hresp, lastRead_cons hr]
    exact ⟨r, d, hresp, hr, fun h => hpoll.trans (congrArg _ (pollResult_match (hlast ▸ h))),
      fun h => hpoll.trans (congrArg _ (pollResult_mismatch (hlast ▸ h)))⟩
  case byteRead =>
    have hlast : lastRead s.host.responses = v.setWidth 32 := by rw [hresp, lastRead_cons rfl]
    have hbyte : BitVec.ofNat 8 (v.setWidth 32).toNat = v := by
      rw [BitVec.ofNat_toNat, BitVec.setWidth_setWidth_of_le v (by decide), BitVec.setWidth_eq]
    rw [step_wr8Last hturn hline, hlast, hbyte]
  case anyRead =>
    have hlast : lastRead s.host.responses = d := by rw [hresp, lastRead_append hnewer, lastRead_cons hr]
    rw [step_wr8Last hturn hline, hlast]

end Sys2Proof.Machine
end

section
namespace Sys2Proof

/-! ### Fields of a word (30_encoding.md R90, R93) -/

/-- A field that a mask keeps is read through it. -/
theorem extractLsb'_and_mask {m : Word} {lo n : Nat} (h : m.extractLsb' lo n = BitVec.allOnes n) (w : Word) :
    (w &&& m).extractLsb' lo n = w.extractLsb' lo n := by
  rw [BitVec.extractLsb'_and, h, BitVec.and_allOnes]

/-- A bit that a mask keeps is read through it. -/
theorem getLsbD_and_mask {m : Word} {i : Nat} (h : m.getLsbD i = true) (w : Word) :
    (w &&& m).getLsbD i = w.getLsbD i := by
  rw [BitVec.getLsbD_and, h, Bool.and_true]

/-- A field has no bit in common with a mask that is 0 in its place. -/
theorem bitsAt_and_eq_zero {m : Word} {lo n : Nat} (h : m.extractLsb' lo n = 0#n) (v : BitVec n) :
    bitsAt lo v &&& m = 0#32 := by
  apply BitVec.eq_of_getLsbD_eq
  intro i _
  rw [BitVec.getLsbD_and, bitsAt_getLsbD]
  by_cases hfield : lo ≤ i ∧ i - lo < n
  case pos =>
    have hm : (m.extractLsb' lo n).getLsbD (i - lo) = false := by rw [h, BitVec.getLsbD_zero]
    rw [BitVec.getLsbD_extractLsb', Nat.add_sub_cancel' hfield.1, decide_eq_true hfield.2, Bool.true_and] at hm
    simp [hm]
  case neg =>
    rcases not_and_or.1 hfield with hlo | hhi
    · simp [Nat.lt_of_not_le hlo]
    · simp [BitVec.getLsbD_of_ge v (i - lo) (Nat.le_of_not_lt hhi)]

/-! ### The decoder by OP and FG (30_encoding.md R96) -/

theorem wordOp_eq_ofNat (w : Word) : wordOp w = BitVec.ofNat 4 (w.toNat % 16) := by
  rw [← wordOp_toNat, BitVec.ofNat_toNat, BitVec.setWidth_eq]

/-! OP is the low bits of the word (R90). -/

theorem wordOp_getLsbD_three (w : Word) : (wordOp w).getLsbD 3 = w.getLsbD 3 := by
  simp [wordOp]

theorem wordOp_extractLsb' (w : Word) {n : Nat} (h : n ≤ 4) : (wordOp w).extractLsb' 0 n = w.extractLsb' 0 n := by
  ext i hi
  simp [wordOp, Nat.lt_of_lt_of_le hi h]

/-- The decoder looks at nothing but OP and FG (R93). -/
theorem decodeWord_congr {v w : Word} (hop : wordOp v = wordOp w) (hfg : v.getLsbD 8 = w.getLsbD 8) :
    decodeWord v = decodeWord w := by
  have hbit : v.getLsbD 3 = w.getLsbD 3 := by rw [← wordOp_getLsbD_three, hop, wordOp_getLsbD_three]
  have hlow : ∀ n, n ≤ 4 → v.extractLsb' 0 n = w.extractLsb' 0 n := fun n hn => by
    rw [← wordOp_extractLsb' v hn, hop, wordOp_extractLsb' w hn]
  rw [decodeWord, decodeWord, wordFg, wordFg, hop, hfg, hbit, hlow 2 (by decide), hlow 3 (by decide)]

/-- An OP of 0x8–0xF is bit 3 over the three low bits (R91). -/
theorem op_eq_append_three : ∀ x : BitVec 4, x.getLsbD 3 = true → 0b1#1 ++ x.extractLsb' 0 3 = x := by decide

/-- An OP of 0x4–0x7 is 01 over the two low bits (R91). -/
theorem op_eq_append_two : ∀ x : BitVec 4, x ≠ 0x1#4 → x ≠ 0x2#4 → x ≠ 0x0#4 → x ≠ 0x3#4 → x.getLsbD 3 = false →
    0b01#2 ++ x.extractLsb' 0 2 = x := by decide

/-- Every word decodes to a command with the word's OP. -/
theorem decodeWord_op (w : Word) : (decodeWord w).op = wordOp w := by
  unfold decodeWord
  split
  next h => exact h.symm
  next h1 =>
    split
    next h => split <;> exact h.symm
    next h2 =>
      split
      next h => exact h.symm
      next h0 =>
        split
        next h => exact h.symm
        next h3 =>
          rw [← wordOp_getLsbD_three, ← wordOp_extractLsb' w (n := 2) (by decide),
            ← wordOp_extractLsb' w (n := 3) (by decide)]
          split
          next h => exact op_eq_append_three _ h
          next h => exact op_eq_append_two _ h1 h2 h0 h3 (Bool.eq_false_iff.2 h)

end Sys2Proof
end

section
namespace Sys2Proof.Machine

/-! ### Reserved OP values (30_encoding.md R91; 60_exceptions.md R171) -/

/-- The OP of 0x4–0x7 as a number. -/
theorem append_op_two : ∀ op : BitVec 2, 0b01#2 ++ op = BitVec.ofNat 4 (4 + op.toNat) := by decide

/-- The OP of 0x8–0xF as a number. -/
theorem append_op_three : ∀ op : BitVec 3, 0b1#1 ++ op = BitVec.ofNat 4 (8 + op.toNat) := by decide

/-- Settles O31: while idle each reserved form is its acceptance, which latches the OP and raises BAD_OP. -/
theorem reservedOpsAreRejected : Obligations.ReservedOpsAreRejected := by
  unfold Obligations.ReservedOpsAreRejected
  intro s fg hb
  refine ⟨exec_command_idle rfl hb, exec_command_idle rfl hb, fun op => ?_, fun op => ?_⟩
  · rw [← append_op_two]
    exact exec_command_idle rfl hb
  · rw [← append_op_three]
    exact exec_command_idle rfl hb

/-- Settles O16: the first branches of the decoder; and an OP that is neither PREDICT's nor UNFILTER's leaves acceptance
only its BAD_OP end. -/
theorem decodingIsTotalByOpField : Obligations.DecodingIsTotalByOpField := by
  unfold Obligations.DecodingIsTotalByOpField
  intro w
  have hop : ∀ {n}, w.toNat % 16 = n → wordOp w = BitVec.ofNat 4 n := fun h => h ▸ wordOp_eq_ofNat w
  refine ⟨fun h => ?predict, fun h hfg => ?unfilter, fun h hfg => ?unfilterG, fun h1 h2 s hb => ?reserved⟩
  case predict => rw [decodeWord, hop h]; rfl
  case unfilter => rw [decodeWord, hop h, wordFg, hfg]; rfl
  case unfilterG => rw [decodeWord, hop h, wordFg, hfg]; rfl
  case reserved =>
    have hi := decodeWord_command w
    have hexec := exec_command_idle hi hb
    have hop1 : (decodeWord w).op ≠ 0x1#4 := fun e => h1 (by rw [← wordOp_toNat, ← decodeWord_op, e]; rfl)
    have hop2 : (decodeWord w).op ≠ 0x2#4 := fun e => h2 (by rw [← wordOp_toNat, ← decodeWord_op, e]; rfl)
    rcases acceptance_cases hi s with ⟨code, e, hunfilter | rfl⟩ | ⟨hpredict, _⟩ | ⟨hunfilter, _⟩
    · exact absurd hunfilter hop2
    · rw [e] at hexec
      exact ⟨_, hexec, rfl, rfl, rfl, rfl, hb, (decodeWord_op w).trans (wordOp_eq_ofNat w)⟩
    · exact absurd hpredict hop1
    · exact absurd hunfilter hop2

/-! ### Reserved bits (30_encoding.md R93) -/

/-- The command word's reserved bits are not decoded. -/
theorem decodeWord_and_mask (w : Word) : decodeWord (w &&& 0x0000010F#32) = decodeWord w :=
  decodeWord_congr (extractLsb'_and_mask (by decide) w) (getLsbD_and_mask (by decide) w)

/-- A write to a register takes the bits that its fields hold. -/
theorem writeReg_and_mask (r : Reg) (v : Word) (s : State) : writeReg r (v &&& r.fieldMask) s = writeReg r v s := by
  have hall : v &&& 0xFFFFFFFF#32 = v := BitVec.and_allOnes
  cases r with
  | cap | predOut | predDist => rfl
  | cmd => exact congrArg (exec · (s.respond .written)) (decodeWord_and_mask v)
  | status =>
    simp only [writeReg, State.clearStatus, Reg.fieldMask]
    rw [getLsbD_and_mask (by decide), getLsbD_and_mask (by decide)]
  | ctrl =>
    simp only [writeReg, Reg.fieldMask]
    rw [getLsbD_and_mask (by decide)]
  | width =>
    simp only [writeReg, Reg.fieldMask]
    rw [extractLsb'_and_mask (by decide)]
  | len | prevLen => simp only [writeReg, Reg.fieldMask, hall]
  | predIn =>
    simp only [writeReg, predInOf, Reg.fieldMask]
    rw [extractLsb'_and_mask (by decide), extractLsb'_and_mask (by decide), extractLsb'_and_mask (by decide)]

/-- Every field of a register lies inside its mask. -/
theorem readReg_and_not_mask (r : Reg) (s : State) : s.readReg r &&& ~~~r.fieldMask = 0x00000000#32 := by
  cases r with
  | len | prevLen => exact BitVec.and_zero
  | _ =>
    simp only [State.readReg, capWord, cmdWord, packWord, statusWord, ctrlWord, widthWord, predInWord,
      predOutWord, predDistWord, Reg.fieldMask]
    simp (disch := decide) only [BitVec.and_or_distrib_right, bitsAt_and_eq_zero, BitVec.or_zero]

/-- Settles O19: the decoder and every register write read fields through the mask, and every register reads fields
inside it. -/
theorem reservedBitsAreIgnoredAndReadZero : Obligations.ReservedBitsAreIgnoredAndReadZero := by
  unfold Obligations.ReservedBitsAreIgnoredAndReadZero
  exact ⟨fun w => (decodeWord_and_mask w).symm, fun r v s => (writeReg_and_mask r v s).symm, readReg_and_not_mask⟩

end Sys2Proof.Machine
end

section
namespace Sys2Proof.Machine

/-! ### A running command's operands (30_encoding.md R95; 60_exceptions.md R177) -/

/-- While BUSY no host access reaches CMD, the operands or the engine (70_reset_and_hazards.md R207). -/
theorem HostEffect.busy_frame {s e : State} {op : Option HostOp} (h : HostEffect s op e) (hb : s.busy = true) :
    e.cmd = s.cmd ∧ e.width = s.width ∧ e.len = s.len ∧ e.prevLen = s.prevLen ∧ e.predIn = s.predIn ∧
      e.engine = s.engine := by
  cases h with
  | none | hazard | status | ctrl => exact ⟨rfl, rfl, rfl, rfl, rfl, rfl⟩
  | command _ hidle | width _ hidle | len _ hidle | prevLen _ hidle | predIn _ hidle | byte _ _ _ hidle
  | word _ _ _ hidle => rw [hb] at hidle; cases hidle

/-- An engine step that does not end the command stays in its phase and path (41_unfilter.md R142). -/
theorem EngineEffect.busy_phase {s t : State} (h : EngineEffect s t) (hb : t.busy = true) :
    t.engine.phase = s.engine.phase ∧ t.engine.path = s.engine.path := by
  cases h with
  | rest => exact ⟨rfl, rfl⟩
  | predict | finish => cases hb
  | element => simp

/-- Settles O13: the host reaches none of it while BUSY, and the engine writes no operand. -/
theorem runningCommandKeepsItsOperands : Obligations.RunningCommandKeepsItsOperands := by
  unfold Obligations.RunningCommandKeepsItsOperands
  intro s t hb hstep hreset
  rcases step_cases hstep with ⟨_, e, o, he, rfl⟩ | ⟨_, he⟩ | ⟨hturn, _⟩
  case inl =>
    obtain ⟨hcmd, hwidth, hlen, hprevLen, hpredIn, hengine⟩ := he.busy_frame hb
    exact ⟨hcmd, hwidth, hlen, hprevLen, hpredIn, fun _ => ⟨congrArg _ hengine, congrArg _ hengine⟩⟩
  case inr.inl =>
    have heffect := engineTurn_effect he
    obtain ⟨_, hcmd, _, hwidth, hlen, hprevLen, hpredIn, _⟩ := heffect.frame
    exact ⟨hcmd, hwidth, hlen, hprevLen, hpredIn, heffect.busy_phase⟩
  case inr.inr => exact absurd hturn hreset

end Sys2Proof.Machine
end

section
namespace Sys2Proof.Machine

/-! ### Register lines of a host program (30_encoding.md R99, R100) -/

/-- A turn taken where none is scheduled changes nothing. -/
theorem takeTurn_eq_self {s : State} (h : s.host.schedule = []) : takeTurn s = s := by
  unfold takeTurn State.setSchedule
  rw [h, List.tail_nil, ← h]
  rfl

/-- A `WR32 CMD` line runs the command that its word decodes to (R96, R98). -/
theorem step_wrCmd {s : State} {v : Word} {rest : List HostOp} (hturn : nextTurn s = .host)
    (h : s.host.program = wrReg .cmd v :: rest) :
    step s = exec (decodeWord v) (((takeTurn s).setProgram rest).respond .written) := by
  rw [step_txn hturn h, transact_wr32_reg]
  rfl

/-- Settles O20: the placed line is a `WR32 CMD` line like any other, and its word decodes to the placed command. -/
theorem stepRunsTheWrittenCommand : Obligations.StepRunsTheWrittenCommand := by
  unfold Obligations.StepRunsTheWrittenCommand
  refine ⟨fun s w rest hturn => step_wrCmd hturn, fun s i hi => ?placed⟩
  case placed =>
    have hplaced := step_wrCmd (s := s.withFetchWord 32 (encode i).toNat) rfl rfl
    rw [tableWord_toNat, decodeWord_encode, command_eq_self hi] at hplaced
    exact hplaced

/-! The lines of an idle block with no turn scheduled: the host has the turn (log entry 4). -/

section
variable {s : State} {rest : List HostOp} (hsched : s.host.schedule = []) (hb : s.busy = false)
include hsched hb

theorem step_txn_idle {t : Txn} (h : s.host.program = .txn t :: rest) : step s = transact t (s.setProgram rest) := by
  rw [step_txn (nextTurn_idle hsched hb) h, takeTurn_eq_self hsched]

/-- A `WR32 PRED_IN` line stores its three fields (10_state.md R29). -/
theorem step_wrPredIn_idle {v : Word} (h : s.host.program = wrReg .predIn v :: rest) :
    step s = .next (((s.setProgram rest).respond .written).setPredIn (predInOf v)) :=
  (step_txn_idle hsched hb h).trans (transact_wr32_idle (s := s.setProgram rest) (r := .predIn) hb rfl)

/-- A `WR32 CMD` line accepts the command that its word decodes to (60_exceptions.md R171). -/
theorem step_wrCmd_idle {v : Word} (h : s.host.program = wrReg .cmd v :: rest) :
    step s = .next (acceptance (decodeWord v) ((s.setProgram rest).respond .written)) := by
  rw [step_wrCmd (nextTurn_idle hsched hb) h, takeTurn_eq_self hsched]
  exact exec_command_idle (decodeWord_command v) hb

/-- `WAIT` ends at its first POLL: bit 0 of STATUS is BUSY. -/
theorem step_wait_idle (h : s.host.program = waitOp :: rest) :
    step s = .next ((s.respond (.word (s.readReg .status))).setProgram rest) := by
  have hmask : s.readReg .status &&& 0x00000001#32 = 0x00000000#32 := by
    simp (disch := decide) only [State.readReg, statusWord, hb, BitVec.and_or_distrib_right, bitsAt_and_eq_zero]
    rfl
  obtain ⟨_, _, hpoll, _⟩ := hostTurnPerformsOneLine s (nextTurn_idle hsched hb)
  obtain ⟨hmatch, _⟩ := hpoll .status _ _ rest h
  rw [hmatch hmask, takeTurn_eq_self hsched]

end

/-! ### The PREDICT pseudo-instruction (30_encoding.md R100; 40_predictor.md R118, R119) -/

/-- PRED_IN takes the three operands from the word that holds them (10_state.md R29). -/
theorem predInOf_operands (a b c : Byte) :
    predInOf (bitsAt 16 c ||| bitsAt 8 b ||| bitsAt 0 a) = { a := a, b := b, c := c } := by
  have hword := predInWord_toNat { a := a, b := b, c := c }
  have ha := a.isLt
  have hb := b.isLt
  have hc := c.isLt
  simp only [predInWord] at hword
  simp only [predInOf, extractLsb'_eq_ofNat, PredIn.mk.injEq, hword]
  refine ⟨BitVec.eq_of_toNat_eq ?_, BitVec.eq_of_toNat_eq ?_, BitVec.eq_of_toNat_eq ?_⟩
  all_goals
    rw [BitVec.toNat_ofNat]
    omega

/-- A running PREDICT finishes at the next turn where none is scheduled (40_predictor.md R119). -/
theorem step_predict_unscheduled {s : State} (hsched : s.host.schedule = []) (hphase : s.engine.phase = .runPredict) :
    step s = .next (predictFinish s) := by
  have hturn : nextTurn s = .engine := nextTurn_busy hsched (by simp [busy_eq_true, hphase])
  rw [step_engine hturn, takeTurn_eq_self hsched, engineTurn, hphase]

/-- A PREDICT word and a WAIT on an idle block: the command is accepted and finished, and the WAIT ends. -/
theorem runSteps_predict {s : State} {rest : List HostOp} (hsched : s.host.schedule = []) (hb : s.busy = false)
    (h : s.host.program = wrReg .cmd 0x00000001#32 :: waitOp :: rest) :
    ∃ resp, runSteps 3 s = .next ((predictFinish (acceptance (.predict false) s)).setHost
      { s.host with program := rest, responses := resp }) := by
  have hcommand := step_wrCmd_idle hsched hb h
  have hfinish := step_predict_unscheduled
    (s := acceptance (.predict false) ((s.setProgram (waitOp :: rest)).respond .written)) hsched rfl
  have hwait := step_wait_idle
    (s := predictFinish (acceptance (.predict false) ((s.setProgram (waitOp :: rest)).respond .written))) hsched rfl rfl
  exact ⟨_, (runSteps_succ hcommand 2).trans ((runSteps_succ hfinish 1).trans (runSteps_succ hwait 0))⟩

/-- Settles O57: PRED_IN takes the operands, then `runSteps_predict`. -/
theorem predictPseudoReturnsThePrediction : Obligations.PredictPseudoReturnsThePrediction := by
  unfold Obligations.PredictPseudoReturnsThePrediction
  intro s a b c rest hb hsched hprogram
  have hoperands := step_wrPredIn_idle hsched hb (rest := wrReg .cmd 0x00000001#32 :: waitOp :: rest) hprogram
  rw [predInOf_operands] at hoperands
  obtain ⟨resp, hrun⟩ := runSteps_predict (rest := rest)
    (s := ((s.setProgram (wrReg .cmd 0x00000001#32 :: waitOp :: rest)).respond .written).setPredIn
      { a := a, b := b, c := c }) hsched hb rfl
  refine ⟨_, (runSteps_succ hoperands 3).trans hrun, ?_⟩
  simp [predictFinish, acceptance]

/-! ### The UNFILTER pseudo-instructions (30_encoding.md R100; 41_unfilter.md R142, R143) -/

/-- The engine takes no part in the outside's bookkeeping. -/
theorem host_of_step_engine {s t : State} (hturn : nextTurn s = .engine) (h : step s = .next t) :
    t.host = (takeTurn s).host := by
  rw [step_engine hturn] at h
  obtain ⟨_, _, _, _, _, _, _, _, hhost⟩ := (engineTurn_effect h).frame
  exact hhost

/-- In a ready state UNFILTER and UNFILTER.G start (60_exceptions.md R171). -/
theorem acceptance_unfilter {s : State} (h : s.unfilterReady) (fg : Bool) :
    acceptance (if fg then .unfilterG else .unfilter) s = s.afterUnfilter fg := by
  obtain ⟨_, hwidth, hlen, hequal⟩ := h
  have hcheck : s.unfilterError = none := unfilterError_eq_none.2 ⟨hwidth, hlen, hequal⟩
  cases fg <;> exact checkAndStart_start hcheck

section
variable {F P R : Nat → Byte} {w l : Nat} {p : FilterPath}

/-- With no turn scheduled the engine reconstructs every position that is left, one a step (R133). -/
theorem RowProgress.run_unscheduled (hw : p.fits w) (hR : RowRecurrence w l F P R) {n : Nat} {u : State}
    (h : RowProgress F P R w l p u) (hsched : u.host.schedule = []) (hleft : remaining w l p u = n) :
    ∃ v, runSteps n u = .next v ∧ RowProgress F P R w l p v ∧ remaining w l p v = 0 ∧ v.host = u.host := by
  induction n generalizing u with
  | zero => exact ⟨u, rfl, h, hleft, rfl⟩
  | succ n ih =>
    have hturn := nextTurn_busy hsched h.busy
    obtain ⟨v, hstep, hv, hcount, _⟩ := h.step_engineTurn hw hR hturn (by omega)
    have hhost : v.host = u.host := by rw [host_of_step_engine hturn hstep, takeTurn_eq_self hsched]
    obtain ⟨v', hrun, hv', hnone, hhost'⟩ := ih hv (hhost ▸ hsched) (by omega)
    exact ⟨v', (runSteps_succ hstep n).trans hrun, hv', hnone, hhost'.trans hhost⟩

end

/-- Settles O58: the command starts, the engine reconstructs the L positions and finishes, and the WAIT ends. -/
theorem unfilterPseudoReturnsTheRow : Obligations.UnfilterPseudoReturnsTheRow := by
  unfold Obligations.UnfilterPseudoReturnsTheRow
  intro s fg Rc rest hready hwritten hR hsched hprogram
  have ⟨hb, hwidth, _⟩ := hready
  have hw := selectPath_fits s.params.hasFastpaths fg hwidth s.opLen
  have hcommand : step s = .next (((s.setProgram (waitOp :: rest)).respond .written).afterUnfilter fg) := by
    rw [← acceptance_unfilter (s := (s.setProgram (waitOp :: rest)).respond .written) hready]
    cases fg <;> exact step_wrCmd_idle hsched hb hprogram
  obtain ⟨hstart, hleft⟩ := rowProgress_start (R := Rc) (fg := fg)
    (s := (s.setProgram (waitOp :: rest)).respond .written) hready hwritten
  obtain ⟨v, hrun, hv, hnone, hhost⟩ := hstart.run_unscheduled hw hR hsched hleft
  have hsched' : v.host.schedule = [] := by rw [hhost]; exact hsched
  have hprogram' : v.host.program = waitOp :: rest := by rw [hhost]; rfl
  obtain ⟨hfinish, hrow⟩ := hv.step_finish hw (nextTurn_busy hsched' hv.busy) hnone
  rw [takeTurn_eq_self hsched'] at hfinish
  have hwait := step_wait_idle (s := v.finish) hsched' rfl hprogram'
  exact ⟨_, (runSteps_succ hcommand (s.opLen + 2)).trans ((runSteps_add hrun 2).trans
    ((runSteps_succ hfinish 1).trans (runSteps_succ hwait 0))), hrow, rfl, rfl, rfl⟩

/-! ### ZEROPREV and COPYROW (30_encoding.md R100; 70_reset_and_hazards.md R205, R206) -/

/-- An idle byte write to a window stores the byte and answers (20_memory.md R64). -/
theorem transact_wr8_window {s : State} (hp : s.params.valid) (hb : s.busy = false) (b : Buffer) {pos : Nat}
    (hpos : pos < s.params.lmax) (v : Byte) :
    transact (.wr8 (windowOffset s.params b pos) v) s =
      .next ((s.setBuffer b ((s.buffer b).write pos v)).respond .written) := by
  simp only [transact, place_window hp b hpos, windowWrite8]
  rw [whenIdle_idle (by simpa using hb), buffer_respond, respond_setBuffer]

/-- An idle byte read of a window answers the byte (20_memory.md R64). -/
theorem transact_rd8_window {s : State} (hp : s.params.valid) (hb : s.busy = false) {b : Buffer} {pos : Nat}
    (hpos : pos < s.params.lmax) {v : Byte} (hread : (s.buffer b).read pos = some v) :
    transact (.rd8 (windowOffset s.params b pos)) s = .next (s.respond (.byte v)) := by
  simp [transact, place_window hp b hpos, windowRead8, hb, hread]

/-- How far a row pseudo-instruction has come from `s`: PREV holds `x` below `n` and is otherwise as before, CUR and the
build are as before, and the idle block's host goes on with `rest`. -/
structure PrevPrepared (x : Nat → Option Byte) (s : State) (n : Nat) (rest : List HostOp) (u : State) : Prop where
  below : ∀ j, j < n → u.prev.read j = x j
  above : ∀ j, n ≤ j → u.prev.read j = s.prev.read j
  cur : u.cur = s.cur
  params : u.params = s.params
  idle : u.busy = false
  schedule : u.host.schedule = []
  program : u.host.program = rest

section
variable {x : Nat → Option Byte} {s u : State} {n : Nat} {rest program : List HostOp}

/-- The line that writes position `n`. -/
theorem PrevPrepared.step_write (h : PrevPrepared x s n program u) (hp : s.params.valid) (hn : n < s.params.lmax)
    {v : Byte} (hv : x n = some v)
    (hline : step u = transact (.wr8 (windowOffset s.params .prev n) v) (u.setProgram rest)) :
    ∃ t, step u = .next t ∧ PrevPrepared x s (n + 1) rest t := by
  rw [← h.params] at hp hn hline
  have hwrite := transact_wr8_window (s := u.setProgram rest) hp h.idle .prev hn v
  refine ⟨_, hline.trans hwrite, fun j hj => ?below, fun j hj => ?above, h.cur, h.params, h.idle, h.schedule, rfl⟩
  case below =>
    show (u.prev.write n v).read j = x j
    rw [Memory.read_write]
    split
    next hjn => rw [hjn, hv]
    next hjn => exact h.below j (by omega)
  case above =>
    show (u.prev.write n v).read j = s.prev.read j
    rw [Memory.read_write_other _ _ (by omega)]
    exact h.above j (by omega)

/-- The line that reads position `n` of CUR leaves the byte as the host's last response. -/
theorem PrevPrepared.step_read (h : PrevPrepared x s n (.txn (.rd8 (windowOffset s.params .cur n)) :: rest) u)
    (hp : s.params.valid) (hn : n < s.params.lmax) {v : Byte} (hv : s.cur.read n = some v) :
    ∃ t, step u = .next t ∧ PrevPrepared x s n rest t ∧ t.host.responses = .byte v :: u.host.responses := by
  have hline := step_txn_idle h.schedule h.idle h.program
  rw [← h.params] at hp hn hline
  rw [← h.cur] at hv
  have hread := transact_rd8_window (s := u.setProgram rest) (b := .cur) hp h.idle hn hv
  exact ⟨_, hline.trans hread, ⟨h.below, h.above, h.cur, h.params, h.idle, h.schedule, rfl⟩, rfl⟩

end

section
variable {s : State} (hp : s.params.valid) (hb : s.busy = false) (hsched : s.host.schedule = [])
include hp hb hsched

/-- `ZEROPREV`, one position a step. -/
theorem runSteps_zeroPrev {l : Nat} (hl : l ≤ s.params.lmax) {rest : List HostOp}
    (hprogram : s.host.program = (Pseudo.zeroPrev l).expand s.params ++ rest) :
    ∃ u, runSteps l s = .next u ∧ PrevPrepared (fun _ => some 0x00#8) s l rest u := by
  induction l generalizing rest with
  | zero => exact ⟨s, rfl, nofun, fun _ _ => rfl, rfl, rfl, hb, hsched, hprogram⟩
  | succ l ih =>
    simp only [Pseudo.expand, List.range_succ, List.map_append, List.append_assoc] at hprogram ih
    obtain ⟨u, hrun, hu⟩ := ih (by omega) hprogram
    obtain ⟨t, hstep, ht⟩ := hu.step_write hp hl rfl (step_txn_idle hu.schedule hu.idle hu.program)
    exact ⟨t, (runSteps_add hrun 1).trans (runSteps_succ hstep 0), ht⟩

/-- `COPYROW`, one position every two steps. -/
theorem runSteps_copyRow {l : Nat} (hl : l ≤ s.params.lmax) {rest : List HostOp}
    (hprogram : s.host.program = (Pseudo.copyRow l).expand s.params ++ rest)
    (hwritten : ∀ j, j < l → (s.cur.read j).isSome = true) :
    ∃ u, runSteps (2 * l) s = .next u ∧ PrevPrepared s.cur.read s l rest u := by
  induction l generalizing rest with
  | zero => exact ⟨s, rfl, nofun, fun _ _ => rfl, rfl, rfl, hb, hsched, hprogram⟩
  | succ l ih =>
    simp only [Pseudo.expand, List.range_succ, List.flatMap_append, List.append_assoc] at hprogram ih
    obtain ⟨u, hrun, hu⟩ := ih (by omega) hprogram (fun j hj => hwritten j (by omega))
    obtain ⟨v, hv⟩ := Option.isSome_iff_exists.1 (hwritten l (by omega))
    obtain ⟨u', hread, hu', hresp⟩ := hu.step_read hp hl hv
    have hturn := nextTurn_idle hu'.schedule hu'.idle
    obtain ⟨_, _, _, _, hlast, _⟩ := hostTurnPerformsOneLine u' hturn
    have hline := hlast _ v _ _ hu'.program hresp
    rw [takeTurn_eq_self hu'.schedule] at hline
    obtain ⟨t, hwrite, ht⟩ := hu'.step_write hp hl hv hline
    exact ⟨t, (runSteps_add hrun 2).trans ((runSteps_succ hread 1).trans (runSteps_succ hwrite 0)), ht⟩

end

/-- Settles O59: each expansion position by position. -/
theorem rowPseudosPrepareThePreviousRow : Obligations.RowPseudosPrepareThePreviousRow := by
  unfold Obligations.RowPseudosPrepareThePreviousRow
  intro s l rest hp hb hsched hl
  refine ⟨fun hprogram => ?zero, fun hprogram hwritten => ?copy⟩
  case zero =>
    obtain ⟨u, hrun, hu⟩ := runSteps_zeroPrev hp hb hsched hl hprogram
    exact ⟨u, hrun, hu.below, hu.above, hu.cur, hu.program, hu.idle⟩
  case copy =>
    obtain ⟨u, hrun, hu⟩ := runSteps_copyRow hp hb hsched hl hprogram hwritten
    exact ⟨u, hrun, hu.below, hu.above, hu.cur, hu.program, hu.idle⟩

end Sys2Proof.Machine
end

section
namespace Sys2Proof.Machine

/-! ### The predictor's choice (40_predictor.md R113, R115) -/

section
variable {a b c : Byte}

/-- `left` wins its ties (R113). -/
theorem paeth_left (hb : (paeth a b c).pa ≤ (paeth a b c).pb) (hc : (paeth a b c).pa ≤ (paeth a b c).pc) :
    (paeth a b c).value = a ∧ (paeth a b c).sel = .left := by
  rcases paeth_choice a b c with ⟨_, _, hchoice⟩ | ⟨hnot, _⟩ | ⟨hnot, _⟩
  · exact hchoice
  · exact absurd ⟨hb, hc⟩ hnot
  · exact absurd ⟨hb, hc⟩ hnot

/-- `above` wins its tie with `aboveLeft` (R113). -/
theorem paeth_above (hleft : ¬((paeth a b c).pa ≤ (paeth a b c).pb ∧ (paeth a b c).pa ≤ (paeth a b c).pc))
    (hc : (paeth a b c).pb ≤ (paeth a b c).pc) : (paeth a b c).value = b ∧ (paeth a b c).sel = .above := by
  rcases paeth_choice a b c with ⟨hb, hc, _⟩ | ⟨_, _, hchoice⟩ | ⟨_, hnot, _⟩
  · exact absurd ⟨hb, hc⟩ hleft
  · exact hchoice
  · exact absurd hc hnot

/-- `aboveLeft` is the fallback (R113). -/
theorem paeth_aboveLeft (hleft : ¬((paeth a b c).pa ≤ (paeth a b c).pb ∧ (paeth a b c).pa ≤ (paeth a b c).pc))
    (habove : ¬(paeth a b c).pb ≤ (paeth a b c).pc) :
    (paeth a b c).value = c ∧ (paeth a b c).sel = .aboveLeft := by
  rcases paeth_choice a b c with ⟨hb, hc, _⟩ | ⟨_, hc, _⟩ | ⟨_, _, hchoice⟩
  · exact absurd ⟨hb, hc⟩ hleft
  · exact absurd hc habove
  · exact hchoice

/-- A winning tie of `left` and `above` is between equal bytes: opposite deltas would make `pc` 0 (R115 item 4). -/
theorem eq_of_paeth_tie (htie : (paeth a b c).pa = (paeth a b c).pb) (hwins : (paeth a b c).pb ≤ (paeth a b c).pc) :
    a = b := by
  rw [paeth_pb, paeth_pc] at hwins
  rw [paeth_pa, paeth_pb] at htie
  refine BitVec.eq_of_toNat_eq ?_
  rcases Int.natAbs_eq_natAbs_iff.1 htie with hsame | hopposite
  · unfold intOf at hsame
    omega
  · rw [hopposite, add_neg_cancel, Int.natAbs_zero] at hwins
    unfold intOf at hwins hopposite
    omega

end

/-- Settles O23: the distances are those of the definition, and the three branches of R113 are the lemmas above. -/
theorem predictorSelectsByTieBreak : Obligations.PredictorSelectsByTieBreak := by
  unfold Obligations.PredictorSelectsByTieBreak
  intro a b c
  refine ⟨(paeth a b c).pa, (paeth a b c).pb, (paeth a b c).pc, ?_, ?_, ?_, rfl, rfl, rfl, fun h => ?_, paeth_above,
    paeth_aboveLeft⟩
  · rw [paeth_pa, Int.natCast_natAbs]; rfl
  · rw [paeth_pb, Int.natCast_natAbs]; rfl
  · rw [paeth_pc, Int.natCast_natAbs]; rfl
  · obtain ⟨hb, hc⟩ := h
    exact paeth_left hb hc

/-- The value is the neighbour that SEL names (R115 item 2). -/
theorem paeth_value_of_sel (a b c : Byte) :
    ((paeth a b c).sel = .left → (paeth a b c).value = a) ∧ ((paeth a b c).sel = .above → (paeth a b c).value = b) ∧
      ((paeth a b c).sel = .aboveLeft → (paeth a b c).value = c) := by
  rcases paeth_choice a b c with ⟨_, _, hvalue, hsel⟩ | ⟨_, _, hvalue, hsel⟩ | ⟨_, _, hvalue, hsel⟩
  · simp [hsel, hvalue]
  · simp [hsel, hvalue]
  · simp [hsel, hvalue]

/-- Equal inputs are at distance 0 (R115 item 3). -/
theorem paeth_self (a : Byte) : paeth a a a = { value := a, sel := .left, pa := 0, pb := 0, pc := 0 } := by
  simp [paeth]

/-- Settles O24: SEL names the value, and each tie decides a branch of R113. -/
theorem predictorReturnsANeighbour : Obligations.PredictorReturnsANeighbour := by
  unfold Obligations.PredictorReturnsANeighbour
  intro a b c
  obtain ⟨hleft, habove, haboveLeft⟩ := paeth_value_of_sel a b c
  refine ⟨?oneOfThree, hleft, habove, haboveLeft, ?equal, fun htie hwins => ?tieLeftAbove,
    fun htie hlt => ?tieAboveAboveLeft, fun htie hlt => ?tieLeftAboveLeft⟩
  case oneOfThree =>
    cases hsel : (paeth a b c).sel with
    | left => exact .inl (hleft hsel)
    | above => exact .inr (.inl (habove hsel))
    | aboveLeft => exact .inr (.inr (haboveLeft hsel))
  case equal =>
    rintro rfl rfl
    exact paeth_self a
  case tieLeftAbove =>
    obtain ⟨_, hleft⟩ := paeth_left htie.le (htie.trans_le hwins)
    exact ⟨eq_of_paeth_tie htie hwins, hleft⟩
  case tieAboveAboveLeft =>
    obtain ⟨_, habove⟩ := paeth_above (fun h => hlt.not_ge h.2) htie.le
    exact habove
  case tieLeftAboveLeft =>
    obtain ⟨_, hleft⟩ := paeth_left (htie.trans_lt hlt).le htie.le
    exact hleft

/-! ### The datapath (40_predictor.md R111, R116) -/

/-- Every value that R112 forms lies below the sign bit of a datapath of at least 10 bits. -/
theorem datapath_bound {n : Nat} (hn : Config.minArithBits ≤ n) : (2 ^ 9 : Int) ≤ 2 ^ (n - 1) :=
  pow_le_pow_right₀ (by decide) (Nat.le_sub_one_of_lt hn)

/-- The sign bit of a distance's delta tells its sign. -/
theorem msb_ofInt_datapath {n : Nat} (hn : Config.minArithBits ≤ n) {x : Int} (hx : x.natAbs ≤ 510) :
    (BitVec.ofInt n x).msb = decide (x < 0) := by
  have hbound := datapath_bound hn
  have hpos : 0 < n := Nat.lt_of_lt_of_le (by decide) hn
  rw [BitVec.msb_eq_toInt, BitVec.toInt_ofInt_eq_self hpos (by omega) (by omega)]

/-- An absolute value, taken by branching on the sign, is exact in the range that R111 names. -/
theorem absBranch_ofInt {n : Nat} (hn : Config.minArithBits ≤ n) {x : Int} (hx : x.natAbs ≤ 510) :
    (absBranch n (BitVec.ofInt n x)).toNat = x.natAbs := by
  have habs : absBranch n (BitVec.ofInt n x) = BitVec.ofNat n x.natAbs := by
    unfold absBranch
    rw [msb_ofInt_datapath hn hx, ← BitVec.ofInt_neg, ← BitVec.ofInt_natCast]
    by_cases hneg : x < 0
    · rw [decide_eq_true hneg, if_pos rfl, Int.ofNat_natAbs_of_nonpos hneg.le]
    · rw [decide_eq_false hneg, if_neg Bool.false_ne_true, Int.natAbs_of_nonneg (Int.not_lt.1 hneg)]
  have hfits : 2 ^ 10 ≤ 2 ^ n := Nat.pow_le_pow_right (by decide) hn
  rw [habs, BitVec.toNat_ofNat, Nat.mod_eq_of_lt (by omega)]

/-- The mask of the branch-free form: the sign bit in every place (R111). -/
theorem sshiftRight_sign {n : Nat} (x : BitVec n) :
    x.sshiftRight (n - 1) = if x.msb then BitVec.allOnes n else 0#n := by
  refine BitVec.eq_of_getElem_eq fun i hi => ?_
  rw [BitVec.getElem_sshiftRight]
  have hsign : (if h : n - 1 + i < n then x[n - 1 + i] else x.msb) = x.msb := by
    split
    next h =>
      obtain rfl : i = 0 := by omega
      rw [BitVec.msb_eq_getLsbD_last]
      exact (BitVec.getLsbD_eq_getElem h).symm
    next => rfl
  rw [hsign]
  cases x.msb with
  | false => simp
  | true => simp

/-- The branch-free absolute value is the branching one, at every width (R111). -/
theorem absBitTrick_eq_absBranch (n : Nat) : absBitTrick n = absBranch n := by
  funext x
  unfold absBitTrick absBranch
  rw [sshiftRight_sign]
  cases x.msb with
  | false => simp
  | true =>
    rw [if_pos rfl, if_pos rfl, BitVec.xor_allOnes, ← BitVec.neg_one_eq_allOnes, sub_neg_eq_add]
    exact (BitVec.neg_eq_not_add x).symm

/-- A byte enters the datapath as the integer it is. -/
theorem setWidth_eq_ofInt (n : Nat) (x : Byte) : BitVec.setWidth n x = BitVec.ofInt n (intOf x) := by
  rw [intOf, BitVec.ofInt_natCast]
  exact BitVec.eq_of_toNat_eq (by simp)

/-- The datapath's difference of two bytes is the delta of R112. -/
theorem setWidth_sub_eq_ofInt (n : Nat) (x y : Byte) :
    BitVec.setWidth n x - BitVec.setWidth n y = BitVec.ofInt n (intOf x - intOf y) := by
  rw [setWidth_eq_ofInt, setWidth_eq_ofInt, sub_eq_add_neg, sub_eq_add_neg, BitVec.ofInt_add, BitVec.ofInt_neg]

/-- The predictor on a datapath is exact if its absolute value is, in the range of R111. -/
theorem paethAtWidth_eq_paeth {n : Nat} {abs : BitVec n → BitVec n}
    (habs : ∀ x : Int, x.natAbs ≤ 510 → (abs (BitVec.ofInt n x)).toNat = x.natAbs) (a b c : Byte) :
    paethAtWidth n abs a b c = paeth a b c := by
  obtain ⟨hpa, hpb, hpc⟩ := paeth_ranges a b c
  rw [paeth_pa] at hpa
  rw [paeth_pb] at hpb
  rw [paeth_pc] at hpc
  unfold paethAtWidth paeth
  simp only [setWidth_sub_eq_ofInt, ← BitVec.ofInt_add]
  rw [habs _ (hpa.trans (by decide)), habs _ (hpb.trans (by decide)), habs _ hpc]

/-- Settles O25: on the datapath only the absolute value could differ, and both forms of it are exact. -/
theorem datapathWidthIsUnobservable : Obligations.DatapathWidthIsUnobservable := by
  unfold Obligations.DatapathWidthIsUnobservable
  intro n hn a b c
  have hexact := paethAtWidth_eq_paeth (fun _ => absBranch_ofInt hn) a b c
  refine ⟨hexact, ?_⟩
  rwa [absBitTrick_eq_absBranch]

/-! ### The PREDICT command (40_predictor.md R118, R119) -/

/-- While PREDICT runs, the engine's turn is its finish step. -/
theorem engineTurn_predict {s : State} (hphase : s.engine.phase = .runPredict) :
    engineTurn s = .next (predictFinish s) := by
  rw [engineTurn, hphase]

/-- Settles O26: acceptance starts PREDICT, and the turn that follows is the finish step. -/
theorem predictIsAcceptedAndCompletes : Obligations.PredictIsAcceptedAndCompletes := by
  unfold Obligations.PredictIsAcceptedAndCompletes
  intro fg s hidle
  exact ⟨acceptance (.predict fg) s, predictFinish (acceptance (.predict fg) s), exec_command_idle rfl hidle, rfl, rfl,
    engineTurn_predict rfl, rfl, rfl⟩

/-- Settles O27: the distances fit the 9-bit fields, and a running command keeps PRED_IN (O13). -/
theorem predictFinishStoresThePrediction : Obligations.PredictFinishStoresThePrediction := by
  unfold Obligations.PredictFinishStoresThePrediction
  intro s hphase
  have hbusy : s.busy = true := by simp [busy_eq_true, hphase]
  obtain ⟨hpa, hpb, hpc⟩ := predDist_fits s.predIn.a s.predIn.b s.predIn.c
  refine ⟨predictFinish s, engineTurn_predict hphase, rfl, rfl, hpa, hpb, hpc, rfl, rfl, rfl, rfl, rfl, rfl, rfl, rfl, rfl,
    rfl, rfl, rfl, rfl, fun u hreset hstep => ?predIn⟩
  case predIn =>
    obtain ⟨_, _, _, _, hpredIn, _⟩ := runningCommandKeepsItsOperands s u hbusy hstep hreset
    exact hpredIn

end Sys2Proof.Machine
end

section
namespace Sys2Proof.Machine

/-! ### A row that satisfies the recurrence (41_unfilter.md R131, R144, R147) -/

section
variable {w l : Nat} {F P R : Nat → Byte}

/-- A channel is computed from its own positions up to the pixel asked for (R144). -/
theorem laneByte_congr {F' P' : Nat → Byte} {k n : Nat}
    (h : ∀ m, m ≤ n → F (k + m * w) = F' (k + m * w) ∧ P (k + m * w) = P' (k + m * w)) :
    laneByte w F P k n = laneByte w F' P' k n := by
  induction n with
  | zero =>
    obtain ⟨hF, hP⟩ := h 0 (Nat.le_refl 0)
    rw [Nat.zero_mul, Nat.add_zero] at hF hP
    rw [laneByte, laneByte, hF, hP]
  | succ n ih =>
    obtain ⟨hF, hP⟩ := h (n + 1) (Nat.le_refl _)
    obtain ⟨-, hP'⟩ := h n (Nat.le_succ n)
    rw [laneByte, laneByte, ih fun m hm => h m (Nat.le_succ_of_le hm), hF, hP, hP']

/-- The channel-by-channel result satisfies the recurrence. -/
theorem rowRecurrence_rowResult (hw : 0 < w) : RowRecurrence w l F P (rowResult w F P) := by
  intro j _
  have hj := Nat.mod_add_div' j w
  by_cases hfirst : w ≤ j
  case pos =>
    have hmod : (j - w) % w = j % w := (Nat.mod_eq_sub_mod hfirst).symm
    have hdiv : j / w = (j - w) / w + 1 := Nat.div_eq_sub_div hw hfirst
    have hleft := Nat.mod_add_div' (j - w) w
    rw [hdiv] at hj
    rw [hmod] at hleft
    simp only [rowResult, hmod, hdiv, if_pos hfirst, laneByte, hj, hleft]
  case neg =>
    have hlt := Nat.lt_of_not_le hfirst
    simp only [rowResult, Nat.mod_eq_of_lt hlt, Nat.div_eq_of_lt hlt, if_neg hfirst, laneByte]

/-- The recurrence reads the row below its length only. -/
theorem RowRecurrence.congr {F' P' : Nat → Byte} (h : RowRecurrence w l F P R)
    (hF : ∀ j, j < l → F' j = F j) (hP : ∀ j, j < l → P' j = P j) : RowRecurrence w l F' P' R := by
  intro j hj
  rw [h j hj, hF j hj, hP j hj, hP (j - w) (Nat.lt_of_le_of_lt (Nat.sub_le j w) hj)]

/-- An original row satisfies the recurrence on its forward-filtered bytes (R147). -/
theorem rowRecurrence_forwardFilter (w l : Nat) (O P : Nat → Byte) :
    RowRecurrence w l (forwardFilter w O P) P O := by
  intro j _
  rw [forwardFilter, BitVec.add_comm, BitVec.sub_add_cancel]

end

/-- Settles O45: channel `j mod w` up to pixel `j div w` lies at the positions of the premise. -/
theorem channelsAreIndependent : Obligations.ChannelsAreIndependent := by
  unfold Obligations.ChannelsAreIndependent
  intro w F F' P P' j hw h
  refine laneByte_congr fun m hm => h _ ?position ?channel
  case position =>
    calc j % w + m * w ≤ j % w + j / w * w := Nat.add_le_add_left (Nat.mul_le_mul_right w hm) _
      _ = j := Nat.mod_add_div' j w
  case channel => rw [Nat.add_mul_mod_self_right, Nat.mod_mod]

/-! ### A whole UNFILTER, given its engine turns one by one (41_unfilter.md R141–R143; 70_reset_and_hazards.md R210) -/

/-- The engine's L + 1 turns lie ahead, and all L positions are left. -/
theorem rowProgress_engineTurns {s : State} {R : Nat → Byte} {fg : Bool} (hready : s.unfilterReady)
    (hwritten : s.rowsWritten) :
    RowProgress (rowOf s.cur) (rowOf s.prev) R s.opWidth s.opLen
      (selectPath s.params.hasFastpaths fg s.opWidth s.opLen) ((s.afterUnfilter fg).engineTurns (s.opLen + 1)) ∧
    remaining s.opWidth s.opLen (selectPath s.params.hasFastpaths fg s.opWidth s.opLen)
      ((s.afterUnfilter fg).engineTurns (s.opLen + 1)) = s.opLen := by
  obtain ⟨hstart, hleft⟩ := rowProgress_start (R := R) (fg := fg) hready hwritten
  exact ⟨hstart.congr rfl rfl rfl rfl rfl, hleft⟩

/-- What an UNFILTER of a written row ends in: CUR holds the recurrence's row, and otherwise only the engine's hidden
state, STATUS (R174) and the turns have changed since acceptance. -/
theorem unfilter_ends {s : State} {R : Nat → Byte} (fg : Bool) (hready : s.unfilterReady) (hwritten : s.rowsWritten)
    (hR : RowRecurrence s.opWidth s.opLen (rowOf s.cur) (rowOf s.prev) R) :
    ∃ c e, runSteps (s.opLen + 1) ((s.afterUnfilter fg).engineTurns (s.opLen + 1)) =
        .next ((((s.afterUnfilter fg).setCur c).setEngine e).setSchedule []).finish ∧
      (∀ j, j < s.opLen → c.read j = some (R j)) ∧ (∀ j, s.opLen ≤ j → c.read j = s.cur.read j) := by
  have ⟨_, hwidth, _⟩ := hready
  have hw := selectPath_fits s.params.hasFastpaths fg hwidth s.opLen
  obtain ⟨hstart, hleft⟩ := rowProgress_engineTurns (R := R) (fg := fg) hready hwritten
  obtain ⟨v, hrun, hv, hcount, hshape, hpast⟩ :=
    hstart.run hw hR s.opLen (rest := [.engine]) List.replicate_succ' hleft.ge
  have hturn : nextTurn v = .engine := by rw [hshape]; rfl
  obtain ⟨hfinish, hrow⟩ := hv.step_finish hw hturn (Nat.add_eq_right.1 (hcount.trans hleft))
  refine ⟨v.cur, v.engine, (runSteps_add hrun 1).trans ((runSteps_succ hfinish 0).trans ?_), hrow, hpast⟩
  rw [hshape]
  rfl

/-- Settles O40: `unfilter_ends`, register by register. -/
theorem unfilterComputesTheRecurrence : Obligations.UnfilterComputesTheRecurrence := by
  unfold Obligations.UnfilterComputesTheRecurrence
  intro s fg Rc hready hwritten hR
  obtain ⟨c, e, hrun, hrow, hpast⟩ := unfilter_ends fg hready hwritten hR
  exact ⟨_, hrun, hrow, hpast, rfl, rfl, rfl, rfl, rfl, rfl, rfl, rfl, rfl, rfl, rfl, rfl, rfl⟩

/-- Settles O42: both runs end in the same row, the one that satisfies the recurrence. -/
theorem allPathsLeaveTheSameRow : Obligations.AllPathsLeaveTheSameRow := by
  unfold Obligations.AllPathsLeaveTheSameRow
  intro s hready hwritten
  have ⟨_, hwidth, _⟩ := hready
  have hR := rowRecurrence_rowResult (l := s.opLen) (F := rowOf s.cur) (P := rowOf s.prev)
    (Nat.pos_of_ne_zero hwidth)
  obtain ⟨c, e, hrun, hrow, hpast⟩ := unfilter_ends false hready hwritten hR
  obtain ⟨c', e', hrun', hrow', hpast'⟩ := unfilter_ends true hready hwritten hR
  refine ⟨_, _, hrun, hrun', fun a => ?sameByte, rfl, rfl⟩
  case sameByte =>
    rcases Nat.lt_or_ge a s.opLen with ha | ha
    · exact (hrow a ha).trans (hrow' a ha).symm
    · exact (hpast a ha).trans (hpast' a ha).symm

/-- Settles O46: the original row satisfies the recurrence on the bytes in the buffers, so it is what is left. -/
theorem unfilterInvertsTheForwardFilter : Obligations.UnfilterInvertsTheForwardFilter := by
  unfold Obligations.UnfilterInvertsTheForwardFilter
  intro s fg O P hready hbytes
  have hwritten : s.rowsWritten := fun j hj => by
    obtain ⟨hcur, hprev⟩ := hbytes j hj
    rw [hcur, hprev]
    exact ⟨rfl, rfl⟩
  have hR : RowRecurrence s.opWidth s.opLen (rowOf s.cur) (rowOf s.prev) O := by
    refine (rowRecurrence_forwardFilter s.opWidth s.opLen O P).congr (fun j hj => ?_) (fun j hj => ?_)
    · rw [rowOf, (hbytes j hj).1, Option.getD_some]
    · rw [rowOf, (hbytes j hj).2, Option.getD_some]
  obtain ⟨c, e, hrun, hrow, -⟩ := unfilter_ends fg hready hwritten hR
  exact ⟨_, hrun, rfl, hrow⟩

end Sys2Proof.Machine
end

section
namespace Sys2Proof.Machine

/-! ### The path selector (41_unfilter.md R134) -/

theorem selectPath_forced {fast fg : Bool} (h : fg = true ∨ fast = false) (w l : Nat) :
    selectPath fast fg w l = .gen := by
  rcases h with rfl | rfl <;> simp [selectPath]

/-- The fast paths are chosen by the width and the length alone. -/
theorem selectPath_fast (w l : Nat) :
    selectPath true false w l =
      if w = 1 then .w1
      else if w = 3 ∧ l % 3 = 0 then .w3
      else if w = 4 ∧ l % 4 = 0 then .w4
      else .gen := rfl

/-- PATH stands in bits 10:8 of STATUS (10_state.md R24). -/
theorem statusWord_path (busy : Bool) (t : StatusReg) : (statusWord busy t).extractLsb' 8 3 = pathBits t.path := by
  apply BitVec.eq_of_toNat_eq
  have hpath := (pathBits t.path).isLt
  have herr := (errBits t.err).isLt
  have hovr := t.ovr.toNat_lt
  have hdone := t.done.toNat_lt
  have hbusy := busy.toNat_lt
  rw [BitVec.extractLsb'_toNat, statusWord_toNat, Nat.shiftRight_eq_div_pow]
  omega

/-- Settles O28: the branches of the selector, and acceptance. -/
theorem selectorDispatchesByWidthAndLength : Obligations.SelectorDispatchesByWidthAndLength := by
  unfold Obligations.SelectorDispatchesByWidthAndLength
  intro fast fg w l
  refine ⟨fun h => selectPath_forced h w l, ?fast, rfl, rfl, rfl, rfl, fun s hready => ?latched⟩
  case fast =>
    rintro rfl rfl
    rw [selectPath_fast]
    refine ⟨fun h => if_pos h, ?_, ?_, fun h1 h3 h4 => ?_⟩
    · rintro rfl hl
      simp [hl]
    · rintro rfl hl
      simp [hl]
    · rw [if_neg h1, if_neg h3, if_neg h4]
  case latched =>
    have hcommand : (if fg then Instr.unfilterG else .unfilter).wellFormed = true := by cases fg <;> rfl
    have ⟨hidle, _⟩ := hready
    exact ⟨s.afterUnfilter fg, (exec_command_idle hcommand hidle).trans (congrArg _ (acceptance_unfilter hready fg)),
      rfl, rfl, statusWord_path _ _⟩

/-! ### The element step and the steps of the four paths (41_unfilter.md R136–R140) -/

/-- Adding bytes is adding their numbers mod 256 (00_scope.md R7). -/
theorem byte_add_eq_ofNat (x y : Byte) : x + y = BitVec.ofNat 8 ((x.toNat + y.toNat) % 256) := by
  apply BitVec.eq_of_toNat_eq
  rw [BitVec.toNat_add, BitVec.toNat_ofNat, Nat.mod_mod]

/-- Settles O34: the state is `afterElement`, whose frame is known. -/
theorem elementReconstructsOneByte : Obligations.ElementReconstructsOneByte := by
  unfold Obligations.ElementReconstructsOneByte
  intro j k s
  refine ⟨element_prev_unwritten, fun b => element_cur_unwritten, fun b f hb hf => ?written⟩
  case written =>
    have hcur : (afterElement j k b f s).cur.read j =
        some ((paeth s.engine.pairA[k] b s.engine.pairC[k]).value + f) := Memory.read_write_same _ _ _
    refine ⟨afterElement j k b f s, element_ok hb hf, ?_, Vector.getElem_set_self k.isLt, ?_,
      fun k' hk => afterElement_other_pair hk.symm j b f, fun a ha => Memory.read_write_other _ _ ha,
      rfl, rfl, rfl, rfl, rfl, rfl⟩
    · rw [hcur, byte_add_eq_ofNat]
    · rw [hcur]
      exact congrArg some (Vector.getElem_set_self k.isLt)

section
variable {p : FilterPath} {s : State} {b f : Byte} (hphase : s.engine.phase = .runUnfilter) (hpath : s.engine.path = p)
  (hb : s.prev.read s.engine.j = some b) (hf : s.cur.read s.engine.j = some f)
include hphase hpath hb hf

/-- A running path's form with a position left is an element step at `j` and the move on. -/
theorem exec_instr_element (hn : nextPosition p s = some s.engine.j) (fg : Bool) :
    exec (p.instr fg) s = .next (advance p (afterElement s.engine.j (pairOf p s.engine.j) b f s)) := by
  rw [exec_instr]
  exact pathStep_element (running_iff.2 ⟨hphase, hpath⟩) hn hb hf

/-- A pixel-serial form moves to `j + 1`. -/
theorem exec_instr_serial (hp : p ≠ .gen) (hj : s.engine.j < s.opLen) {k : Fin 4} (hk : pairOf p s.engine.j = k)
    (fg : Bool) :
    exec (p.instr fg) s = .next (advanceSerial (afterElement s.engine.j k b f s)) := by
  rw [exec_instr_element hphase hpath hb hf ((next_serial hp).2 ⟨rfl, hj⟩), advance_serial hp, hk]
  rfl

end

/-- Settles O35: each form's pair is `pairOf` its path. -/
theorem serialPathsStepThroughTheRow : Obligations.SerialPathsStepThroughTheRow := by
  unfold Obligations.SerialPathsStepThroughTheRow
  intro s b f hphase hj hb hf
  exact ⟨fun hpath => exec_instr_serial hphase hpath hb hf nofun hj rfl false,
    fun hpath k hk => exec_instr_serial hphase hpath hb hf nofun hj (Fin.ext hk.symm) false,
    fun hpath k hk => exec_instr_serial hphase hpath hb hf nofun hj (Fin.ext hk.symm) false⟩

/-- Settles O36: GEN's two moves; the next channel's zeroes overwrite the pair just written. -/
theorem genericPathStepsThroughChannels : Obligations.GenericPathStepsThroughChannels := by
  unfold Obligations.GenericPathStepsThroughChannels
  intro s fg b f hphase hpath hi hb hf
  have hexec := exec_instr_element hphase hpath hb hf (next_gen.2 ⟨rfl, hi⟩) fg
  refine ⟨fun halong => ?along, fun hend => ?nextChannel⟩
  case along =>
    rw [advance_gen_along (s := afterElement s.engine.j (pairOf .gen s.engine.j) b f s) halong] at hexec
    exact hexec
  case nextChannel =>
    have hzero : ∀ (v : Vector Byte 4) (x : Byte), (v.set 0 x).set 0 0x00#8 = v.set 0 0x00#8 := fun _ x =>
      Vector.set_set x (by decide)
    rw [advance_gen_next (s := afterElement s.engine.j (pairOf .gen s.engine.j) b f s) hend] at hexec
    rw [← hzero s.engine.pairA, ← hzero s.engine.pairC]
    exact hexec

end Sys2Proof.Machine
end

section
namespace Sys2Proof.Machine

/-! ### The order of the positions (41_unfilter.md R132, R136–R139) -/

/-- Position `y` is what a path reconstructs right after `x`: the next byte, or on GEN the next pixel of the channel or a
later channel's position. -/
def follows (p : FilterPath) (w x y : Nat) : Prop :=
  if p = .gen then x % w < y % w ∨ y = x + w else y = x + 1

theorem follows_gen {p : FilterPath} (hp : p = .gen) {w x y : Nat} :
    follows p w x y ↔ x % w < y % w ∨ y = x + w := by rw [follows, if_pos hp]

theorem follows_serial {p : FilterPath} (hp : p ≠ .gen) {w x y : Nat} : follows p w x y ↔ y = x + 1 := by
  rw [follows, if_neg hp]

/-- The position at which the sequencer stands after `n` steps. -/
def visit (u : State) (n : Nat) : Nat :=
  match runSteps n u with
  | .next v => v.engine.j
  | .fault _ => 0
  | .refused _ => 0

@[simp] theorem visit_zero (u : State) : visit u 0 = u.engine.j := rfl

theorem visit_succ {u v : State} (h : step u = .next v) (n : Nat) : visit u (n + 1) = visit v n := by
  rw [visit, visit, runSteps_succ h]

/-- Where a run stands after `m` steps is where its later visits start. -/
theorem visit_add {u v : State} {m : Nat} (h : runSteps m u = .next v) (n : Nat) : visit u (m + n) = visit v n := by
  rw [visit, visit, runSteps_add h]

section
variable {F P R : Nat → Byte} {w l : Nat} {p : FilterPath} {u : State}

/-- While positions are left, the one the sequencer stands at is next. -/
theorem RowProgress.nextPosition_eq (hw : p.fits w) (h : RowProgress F P R w l p u) (hleft : 0 < remaining w l p u) :
    nextPosition p u = some u.engine.j := by
  cases hn : nextPosition p u with
  | none => exact absurd ((h.remaining_eq_zero hw).2 hn) hleft.ne'
  | some j =>
    obtain ⟨rfl, -⟩ := nextPosition_eq_some.1 hn
    rfl

/-- GEN's next position lies in channel `i`. -/
theorem RowProgress.next_mod (h : RowProgress F P R w l .gen u) {j : Nat} (hn : nextPosition .gen u = some j) :
    j % w = u.engine.i := by
  obtain ⟨rfl, hi⟩ := next_gen.1 hn
  obtain ⟨-, hseq⟩ := (seq_gen h.path).1 h.seq
  obtain ⟨-, hmod⟩ := hseq hi
  rwa [h.width] at hmod

/-- Moving on from position `j` leads to one that follows it. -/
theorem RowProgress.advance_follows (hw : p.fits w) (hR : RowRecurrence w l F P R) (h : RowProgress F P R w l p u)
    {j : Nat} (hn : nextPosition p u = some j) {v : State}
    (hv : v = advance p (afterElement j (pairOf p j) (P j) (F j) u)) {j' : Nat} (hn' : nextPosition p v = some j') :
    follows p w j j' := by
  obtain ⟨-, hmove, -⟩ := h.move hw hR hn
  rw [← hv] at hmove
  by_cases hp : p = .gen
  case neg =>
    rw [follows_serial hp]
    rw [advance_serial hp] at hv
    obtain ⟨rfl, -⟩ := (next_serial hp).1 hn
    obtain ⟨rfl, -⟩ := (next_serial hp).1 hn'
    rw [hv]
    rfl
  case pos =>
    subst hp
    rw [follows_gen rfl, h.next_mod hn, hmove.next_mod hn']
    obtain ⟨rfl, -⟩ := next_gen.1 hn
    obtain ⟨rfl, -⟩ := next_gen.1 hn'
    by_cases halong : u.engine.j + u.opWidth < u.opLen
    · rw [advance_gen_along (by exact halong)] at hv
      right
      rw [hv, ← h.width]
      rfl
    · rw [advance_gen_next (by exact Nat.not_lt.1 halong)] at hv
      left
      rw [hv]
      exact Nat.lt_succ_self u.engine.i

end

/-! A run whose turns are the engine's: one for every position that is left, and one for the finish step. -/

section
variable {F P R : Nat → Byte} {w l : Nat} {p : FilterPath} {u : State} (hw : p.fits w) (hR : RowRecurrence w l F P R)
  (h : RowProgress F P R w l p u) (hsched : u.host.schedule = List.replicate (remaining w l p u + 1) .engine)
include hw hR h hsched

/-- A step while positions are left: the sequencer's position is done and no other, and the sequencer moves to one that
follows it. -/
theorem RowProgress.step_visit (hleft : 0 < remaining w l p u) :
    ∃ v, step u = .next v ∧ RowProgress F P R w l p v ∧ remaining w l p v + 1 = remaining w l p u ∧
      v.host.schedule = List.replicate (remaining w l p v + 1) .engine ∧
      (∀ x, x < l → (undone p w v.engine.i v.engine.j x ↔ undone p w u.engine.i u.engine.j x ∧ x ≠ u.engine.j)) ∧
      (0 < remaining w l p v → follows p w u.engine.j v.engine.j) := by
  have h' : RowProgress F P R w l p (takeTurn u) := h.congr rfl rfl rfl rfl rfl
  have hturn : nextTurn u = .engine := by rw [nextTurn, hsched]; rfl
  have hn : nextPosition p (takeTurn u) = some u.engine.j := h'.nextPosition_eq hw hleft
  obtain ⟨-, hv, hundone⟩ := h'.move hw hR hn
  have hcount : remaining w l p u = _ := h'.remaining_step hw hR hn
  refine ⟨_, (step_engine hturn).trans (h'.engineTurn_element hw hR hn), hv, hcount.symm, ?schedule, hundone,
    fun hleft' => h'.advance_follows hw hR hn rfl (hv.nextPosition_eq hw hleft')⟩
  case schedule => rw [advance_host, afterElement_host, takeTurn_host, hsched, ← hcount]; rfl

/-- The run up to any position that is left, or to the finish step. -/
theorem RowProgress.run_visits {n : Nat} (hn : n ≤ remaining w l p u) :
    ∃ v, runSteps n u = .next v ∧ RowProgress F P R w l p v ∧ remaining w l p v + n = remaining w l p u ∧
      v.host.schedule = List.replicate (remaining w l p v + 1) .engine ∧ v.status = u.status := by
  have hturns : u.host.schedule = List.replicate n .engine ++ List.replicate (remaining w l p u - n + 1) .engine := by
    rw [hsched, List.replicate_append_replicate]
    congr 1
    omega
  obtain ⟨v, hrun, hv, hcount, hshape, -⟩ := h.run hw hR n hturns hn
  refine ⟨v, hrun, hv, hcount, ?_, by rw [hshape]; rfl⟩
  rw [← hcount, Nat.add_sub_cancel] at hshape
  rw [hshape]
  rfl

/-- Every visited position lies in the row and is still to be done when the run begins. -/
theorem RowProgress.visit_undone {n : Nat} (hn : n < remaining w l p u) :
    visit u n < l ∧ undone p w u.engine.i u.engine.j (visit u n) := by
  induction n generalizing u with
  | zero =>
    have hnext := h.nextPosition_eq hw hn
    obtain ⟨hj, -⟩ := h.move hw hR hnext
    exact ⟨hj, h.undone_next hnext⟩
  | succ n ih =>
    obtain ⟨v, hstep, hv, hcount, hsched', hundone, -⟩ := h.step_visit hw hR hsched (by omega)
    obtain ⟨hlt, hlater⟩ := ih hv hsched' (by omega)
    obtain ⟨hbefore, -⟩ := (hundone _ hlt).1 hlater
    rw [visit_succ hstep]
    exact ⟨hlt, hbefore⟩

/-- No position is visited twice: a visited position is done from then on. -/
theorem RowProgress.visit_ne {m n : Nat} (hmn : m < n) (hn : n < remaining w l p u) : visit u m ≠ visit u n := by
  obtain ⟨d, rfl⟩ := Nat.exists_eq_add_of_lt hmn
  obtain ⟨v, hrun, hv, hcount, hsched', -⟩ := h.run_visits hw hR hsched (n := m) (by omega)
  obtain ⟨v', hstep, hv', hcount', hsched'', hundone, -⟩ := hv.step_visit hw hR hsched' (by omega)
  obtain ⟨hlt, hlater⟩ := hv'.visit_undone hw hR hsched'' (n := d) (by omega)
  obtain ⟨-, hne⟩ := (hundone _ hlt).1 hlater
  have hm : visit u m = v.engine.j := visit_add hrun 0
  rw [Nat.add_assoc, visit_add hrun, visit_succ hstep, hm]
  exact hne.symm

theorem RowProgress.visit_injective {m n : Nat} (hm : m < remaining w l p u) (hn : n < remaining w l p u)
    (heq : visit u m = visit u n) : m = n := by
  rcases Nat.lt_trichotomy m n with hlt | hsame | hlt
  · exact absurd heq (h.visit_ne hw hR hsched hlt hn)
  · exact hsame
  · exact absurd heq.symm (h.visit_ne hw hR hsched hlt hm)

/-- Each visited position follows the one before it. -/
theorem RowProgress.visit_follows {n : Nat} (hn : n + 1 < remaining w l p u) :
    follows p w (visit u n) (visit u (n + 1)) := by
  obtain ⟨v, hrun, hv, hcount, hsched', -⟩ := h.run_visits hw hR hsched (n := n) (by omega)
  obtain ⟨v', hstep, -, hcount', -, -, hfollows⟩ := hv.step_visit hw hR hsched' (by omega)
  have hcurrent : visit u n = v.engine.j := visit_add hrun 0
  rw [visit_add hrun, visit_succ hstep, hcurrent]
  exact hfollows (by omega)

/-- A pixel-serial path visits the bytes in ascending order. -/
theorem RowProgress.visit_serial (hp : p ≠ .gen) {n : Nat} (hn : n < remaining w l p u) :
    visit u n = u.engine.j + n := by
  induction n with
  | zero => rfl
  | succ n ih =>
    rw [(follows_serial hp).1 (h.visit_follows hw hR hsched hn), ih (Nat.lt_of_succ_lt hn), Nat.add_assoc]

end

/-- Settles O41: the visits of the run from acceptance, all L of them left there. -/
theorem eachPositionIsVisitedOnce : Obligations.EachPositionIsVisitedOnce := by
  unfold Obligations.EachPositionIsVisitedOnce
  intro s fg hready hwritten
  have ⟨_, hwidth, _⟩ := hready
  have hw := selectPath_fits s.params.hasFastpaths fg hwidth s.opLen
  have hR := rowRecurrence_rowResult (l := s.opLen) (F := rowOf s.cur) (P := rowOf s.prev) (fits_pos hw)
  obtain ⟨h, hcount⟩ := rowProgress_engineTurns (R := rowResult s.opWidth (rowOf s.cur) (rowOf s.prev)) (fg := fg)
    hready hwritten
  have hsched := congrArg (fun n => List.replicate (n + 1) Turn.engine) hcount.symm
  refine ⟨visit ((s.afterUnfilter fg).engineTurns (s.opLen + 1)), fun n hn => ⟨?inRow, ?visited⟩, fun m n hm hn => ?once,
    fun hp n hn => ?serial, fun hp n hn => ?generic, ?lastElement, ?finish⟩
  case inRow =>
    obtain ⟨hlt, -⟩ := h.visit_undone hw hR hsched (hn.trans_eq hcount.symm)
    exact hlt
  case visited =>
    obtain ⟨v, hrun, hv, hcount', -, hstatus⟩ := h.run_visits hw hR hsched (hn.le.trans_eq hcount.symm)
    refine ⟨v, hrun, hv.busy, by rw [hstatus]; rfl, hv.path, ?_⟩
    rw [hv.path, hv.nextPosition_eq hw (by omega)]
    exact congrArg some (visit_add hrun 0).symm
  case once => exact h.visit_injective hw hR hsched (hm.trans_eq hcount.symm) (hn.trans_eq hcount.symm)
  case serial => exact (h.visit_serial hw hR hsched hp (hn.trans_eq hcount.symm)).trans (Nat.zero_add n)
  case generic => exact (follows_gen hp).1 (h.visit_follows hw hR hsched (hn.trans_eq hcount.symm))
  case lastElement =>
    obtain ⟨v, hrun, hv, hcount', -⟩ := h.run_visits hw hR hsched hcount.ge
    refine ⟨v, hrun, hv.busy, ?_⟩
    rw [hv.path]
    exact (hv.remaining_eq_zero hw).1 (by omega)
  case finish =>
    obtain ⟨c, e, hrun, -⟩ := unfilter_ends fg hready hwritten hR
    exact ⟨_, hrun, rfl, rfl⟩

end Sys2Proof.Machine
end

section
namespace Sys2Proof.Machine

/-! ### UNFILTER's acceptance and rejection (41_unfilter.md R142, R143; 60_exceptions.md R171–R173) -/

section
variable {s : State}

/-! The code of the first check that fails (R172). -/

theorem unfilterError_badWidth (hwidth : s.opWidth = 0) : s.unfilterError = some .badWidth := by
  rw [State.unfilterError, if_pos hwidth]

theorem unfilterError_lenRange (hwidth : s.opWidth ≠ 0)
    (hrange : s.opLen > s.params.lmax ∨ s.opPrevLen > s.params.lmax) : s.unfilterError = some .lenRange := by
  rw [State.unfilterError, if_neg hwidth, if_pos hrange]

theorem unfilterError_lenMismatch (hwidth : s.opWidth ≠ 0) (hlen : s.opLen ≤ s.params.lmax)
    (hprevLen : s.opPrevLen ≤ s.params.lmax) (hdiffer : s.opLen ≠ s.opPrevLen) :
    s.unfilterError = some .lenMismatch := by
  rw [State.unfilterError, if_neg hwidth, if_neg (by omega), if_pos hdiffer]

/-- An UNFILTER or UNFILTER.G whose checks fail is rejected with the code (R173). -/
theorem acceptance_unfilter_rejected {code : ErrCode} (hcheck : s.unfilterError = some code) (fg : Bool) :
    acceptance (if fg then .unfilterG else .unfilter) s = (s.latchCommand 0x2#4 fg).raiseError code := by
  cases fg <;> exact checkAndStart_error hcheck

/-- While idle UNFILTER and UNFILTER.G are their acceptance. -/
theorem exec_unfilter_idle (hb : s.busy = false) (fg : Bool) :
    exec (if fg then .unfilterG else .unfilter) s = .next (acceptance (if fg then .unfilterG else .unfilter) s) := by
  cases fg <;> exact exec_command_idle rfl hb

theorem exec_unfilter_ready (h : s.unfilterReady) (fg : Bool) :
    exec (if fg then .unfilterG else .unfilter) s = .next (s.afterUnfilter fg) := by
  have ⟨hb, _⟩ := h
  rw [exec_unfilter_idle hb, acceptance_unfilter h]

theorem exec_unfilter_rejected (hb : s.busy = false) {code : ErrCode} (hcheck : s.unfilterError = some code)
    (fg : Bool) :
    exec (if fg then .unfilterG else .unfilter) s = .next ((s.latchCommand 0x2#4 fg).raiseError code) := by
  rw [exec_unfilter_idle hb, acceptance_unfilter_rejected hcheck]

end

/-- Settles O29: both words start the engine, and the forced path is GEN. -/
theorem unfilterIsAcceptedAndStarts : Obligations.UnfilterIsAcceptedAndStarts := by
  unfold Obligations.UnfilterIsAcceptedAndStarts
  intro s hready
  refine ⟨exec_unfilter_ready hready false, exec_unfilter_ready hready true, rfl, rfl, ?forced⟩
  case forced => exact congrArg some (selectPath_forced (.inl rfl) s.opWidth s.opLen)

/-- Settles O30: in each of the three cases the checks answer its code. -/
theorem unfilterIsRejectedByPriority : Obligations.UnfilterIsRejectedByPriority := by
  unfold Obligations.UnfilterIsRejectedByPriority
  intro s code hb hcases
  have hcheck : s.unfilterError = some code := by
    rcases hcases with ⟨hwidth, rfl⟩ | ⟨hwidth, hrange, rfl⟩ | ⟨hwidth, hlen, hprevLen, hdiffer, rfl⟩
    · exact unfilterError_badWidth hwidth
    · exact unfilterError_lenRange hwidth hrange
    · exact unfilterError_lenMismatch hwidth hlen hprevLen hdiffer
  exact ⟨exec_unfilter_rejected hb hcheck false, exec_unfilter_rejected hb hcheck true⟩

/-! ### The ends of a path's run (41_unfilter.md R136–R140; 60_exceptions.md R174, R179) -/

section
variable {p : FilterPath} {s : State}

/-- A running path's form with no position left is the finish step. -/
theorem exec_instr_finish (hphase : s.engine.phase = .runUnfilter) (hpath : s.engine.path = p)
    (hend : nextPosition p s = none) (fg : Bool) : exec (p.instr fg) s = .next s.finish := by
  rw [exec_instr]
  exact pathStep_finish (running_iff.2 ⟨hphase, hpath⟩) hend

/-- A running path's form stops with the fault of its element step. -/
theorem exec_instr_fault {j : Nat} {f : Fault} (hrun : s.running p = true) (hn : nextPosition p s = some j)
    (helement : element j (pairOf p j) s = .error f) (fg : Bool) : exec (p.instr fg) s = .fault f := by
  rw [exec_instr, pathStep, if_pos hrun, hn]
  simp only [helement]

end

/-- Settles O37: at the end of the row no path has a next position. -/
theorem pathsFinishAtTheEndOfTheRow : Obligations.PathsFinishAtTheEndOfTheRow := by
  unfold Obligations.PathsFinishAtTheEndOfTheRow
  intro s hphase
  exact ⟨fun hpath hj => exec_instr_finish hphase hpath (nextPosition_eq_none.2 hj) false,
    fun hpath hj => exec_instr_finish hphase hpath (nextPosition_eq_none.2 hj) false,
    fun hpath hj => exec_instr_finish hphase hpath (nextPosition_eq_none.2 hj) false,
    fun hpath hi fg => exec_instr_finish hphase hpath (nextPosition_eq_none.2 hi) fg⟩

/-- Settles O38: the element step reads PREV, then CUR. -/
theorem pathsFaultOnUnwrittenBytes : Obligations.PathsFaultOnUnwrittenBytes := by
  unfold Obligations.PathsFaultOnUnwrittenBytes
  intro s p fg j hrun hn
  refine ⟨fun hprev => exec_instr_fault hrun hn (element_prev_unwritten hprev) fg, fun hprev hcur => ?_⟩
  obtain ⟨b, hb⟩ := Option.isSome_iff_exists.1 hprev
  exact exec_instr_fault hrun hn (element_cur_unwritten hb hcur) fg

/-! ### Window reads of unwritten bytes (10_state.md R33; 20_memory.md R63; 60_exceptions.md R179) -/

/-- A 32-bit read that goes through has read four written bytes. -/
theorem Memory.written_of_read32_ok {m : Memory} {a : Nat} {v : Word} (h : m.read32 a = .ok v) {n : Nat} (hn : n < 4) :
    m.read (a + n) ≠ none := by
  unfold Memory.read32 at h
  split at h
  · cases h
  next h0 =>
    split at h
    · cases h
    next h1 =>
      split at h
      · cases h
      next h2 =>
        split at h
        · cases h
        next h3 => interval_cases n <;> simp [h0, h1, h2, h3]

/-- A 32-bit read over an unwritten byte fails, at one of its four positions that is unwritten. -/
theorem Memory.read32_unwritten {m : Memory} {a n : Nat} (hn : n < 4) (h : m.read (a + n) = none) :
    ∃ k, k < 4 ∧ m.read (a + k) = none ∧ m.read32 a = .error (a + k) := by
  cases hread : m.read32 a with
  | ok v => exact absurd h (Memory.written_of_read32_ok hread hn)
  | error bad =>
    obtain ⟨⟨k, hk, rfl⟩, hbad⟩ := Memory.read32_error hread
    exact ⟨k, hk, hbad, rfl⟩

section
variable {s : State} {b : Buffer} {pos : Nat} (hb : s.busy = false)
include hb

theorem windowRead8_unwritten (h : (s.buffer b).read pos = none) : windowRead8 b pos s = .fault (.uninit b pos) := by
  simp [windowRead8, hb, h]

theorem windowRead32_unwritten {bad : Nat} (h : (s.buffer b).read32 pos = .error bad) :
    windowRead32 b pos s = .fault (.uninit b bad) := by
  simp [windowRead32, hb, h]

end

/-- A byte read at a window byte's offset is that window's. -/
theorem transact_rd8_eq_windowRead8 {s : State} (hp : s.params.valid) (b : Buffer) {pos : Nat}
    (hpos : pos < s.params.lmax) : transact (.rd8 (windowOffset s.params b pos)) s = windowRead8 b pos s := by
  simp [transact, place_window hp b hpos]

/-- Settles O51: both reads are the window's own, which stop at the unwritten byte they meet. -/
theorem unwrittenWindowReadsFault : Obligations.UnwrittenWindowReadsFault := by
  unfold Obligations.UnwrittenWindowReadsFault
  intro s b pos hp hb hpos
  refine ⟨fun hread => ?byte, fun halign hunwritten => ?word⟩
  case byte => exact (transact_rd8_eq_windowRead8 hp b hpos).trans (windowRead8_unwritten hb hread)
  case word =>
    obtain ⟨n, hn, hread⟩ := hunwritten
    obtain ⟨k, hk, hbad, herror⟩ := Memory.read32_unwritten hn hread
    obtain ⟨hword, -⟩ := transact_word_window hp b hpos halign 0#32
    exact ⟨k, hk, hbad, hword.trans (windowRead32_unwritten hb herror)⟩

end Sys2Proof.Machine
end

section
namespace Sys2Proof.Machine

/-! ### The reset block (70_reset_and_hazards.md R200–R203) -/

/-- A K that R5 allows fits CAP.KBITS (10_state.md R22). -/
theorem bitsAt_kbits {p : Params} (hp : p.valid) : bitsAt 8 (BitVec.ofNat 5 p.k) = BitVec.ofNat 32 p.k <<< 8 := by
  have hk : p.k < 2 ^ 5 := hp.2.trans_lt (by decide)
  rw [bitsAt, BitVec.setWidth_ofNat_of_le_of_lt (by decide) hk]

/-- CAP by its three fields (R22). -/
theorem capWord_eq {p : Params} (hp : p.valid) :
    capWord p = 0x01000000#32 ||| (BitVec.ofNat 32 p.k <<< 8) |||
      (if p.hasFastpaths then 0x00000001#32 else 0x00000000#32) := by
  rw [capWord, bitsAt_kbits hp]
  cases p.hasFastpaths <;> rfl

/-- A field that is 0 adds nothing to its register. -/
theorem bitsAt_zero (lo n : Nat) : bitsAt lo 0#n = 0x00000000#32 := by
  rw [bitsAt, BitVec.setWidth_zero, BitVec.zero_shiftLeft]

/-- Every register but CAP reads 0 after reset, all its fields being 0 (R200). -/
theorem readReg_resetWith {r : Reg} (hr : r ≠ .cap) (p : Params) (h : HostSide) :
    (State.resetWith p h).readReg r = 0x00000000#32 := by
  cases r with
  | cap => exact absurd rfl hr
  | len | prevLen => rfl
  | _ =>
    simp only [State.readReg, State.resetWith, State.busy, cmdWord, packWord, statusWord, ctrlWord, widthWord,
      predInWord, predOutWord, predDistWord, pathBits, errBits, selBits, BitVec.ofBool_false,
      BitVec.ofNat_eq_ofNat, bitsAt_zero, BitVec.or_zero]

/-- Settles O1: CAP by its fields, the other registers one by one; the three states are all `State.resetWith`. -/
theorem resetGivesTheTabledRegisters : Obligations.ResetGivesTheTabledRegisters := by
  unfold Obligations.ResetGivesTheTabledRegisters
  intro tabled
  have htabled : ∀ (p : Params) (h : HostSide), p.valid → tabled p (State.resetWith p h) := fun p h hp =>
    ⟨capWord_eq hp, fun _ hr => readReg_resetWith hr p h, rfl, rfl⟩
  exact ⟨htabled, htabled Params.default _ (by decide), fun s hp hturn => ⟨_, step_eq_resetWith hturn, htabled _ _ hp⟩⟩

/-- Settles O2: the fields of `State.resetWith`. -/
theorem resetAbortsAndLeavesBuffersUnwritten : Obligations.ResetAbortsAndLeavesBuffersUnwritten := by
  unfold Obligations.ResetAbortsAndLeavesBuffersUnwritten
  intro s hturn
  have hzero (k : Fin 4) : (Vector.replicate 4 0x00#8)[k] = 0x00#8 := Vector.getElem_replicate k.isLt
  exact ⟨_, step_eq_resetWith hturn, fun _ => ⟨rfl, rfl⟩, rfl, rfl, rfl, rfl, rfl, fun k => ⟨hzero k, hzero k⟩⟩

/-! ### The end of BUSY (R203, R209) -/

/-- Settles O8: no host access reaches the engine while BUSY, and the engine turn that ends BUSY sets DONE alone. -/
theorem busyEndsOnlyByFinishOrReset : Obligations.BusyEndsOnlyByFinishOrReset := by
  unfold Obligations.BusyEndsOnlyByFinishOrReset
  intro s t hstep hbusy hidle
  rcases step_cases hstep with ⟨_, e, o, he, rfl⟩ | ⟨hturn, he⟩ | ⟨hturn, _⟩
  case inl =>
    obtain ⟨_, _, _, _, _, hengine⟩ := he.busy_frame hbusy
    have hstill : (e.setHost o).busy = s.busy := busy_congr (congrArg Engine.phase hengine)
    rw [hstill, hbusy] at hidle
    cases hidle
  case inr.inl =>
    rcases (engineTurn_effect he).status_cases with ⟨hsame, _⟩ | ⟨_, _, hstatus⟩
    · rw [hsame, busy_takeTurn, hbusy] at hidle
      cases hidle
    · exact .inr ⟨hturn, by rw [hstatus], by rw [hstatus]; rfl⟩
  case inr.inr => exact .inl hturn

/-! ### The first row (R205) -/

/-- With nothing above, the predictor returns left. -/
theorem paeth_zero_above (a : Byte) :
    (paeth a 0x00#8 0x00#8).value = a ∧ (paeth a 0x00#8 0x00#8).sel = .left := by
  have hpa : (paeth a 0x00#8 0x00#8).pa = 0 := by rw [paeth_pa, Int.sub_self, Int.natAbs_zero]
  exact paeth_left (hpa ▸ Nat.zero_le _) (hpa ▸ Nat.zero_le _)

/-- Settles O47: the recurrence of `rowResult`, whose predictor has nothing above to weigh. -/
theorem firstRowIsARunningSum : Obligations.FirstRowIsARunningSum := by
  unfold Obligations.FirstRowIsARunningSum
  refine ⟨paeth_zero_above, fun w F j hw => ?_⟩
  have hrecurrence := rowRecurrence_rowResult (F := F) (P := fun _ => 0x00#8) hw j (Nat.lt_succ_self j)
  rw [ite_self, (paeth_zero_above _).1] at hrecurrence
  exact hrecurrence

/-! ### Hazard accesses (R207) -/

section
variable {s : State}

/-- A register that is written only while idle drops its write while BUSY. -/
theorem transact_wr32_hazard (hb : s.busy = true) {r : Reg} {v : Word} {effect : State → State}
    (h : writeReg r v s = .next ((s.respond .written).whenIdle effect)) :
    transact (.wr32 r.offset v) s = .next ((s.respond .written).overrun) := by
  rw [transact_wr32_reg, h, whenIdle_busy (by simpa using hb)]

/-- Every register that R207 lists is one of those. -/
theorem transact_wr32_busy (hb : s.busy = true) (v : Word) {r : Reg}
    (hr : r ∈ [Reg.cmd, .width, .len, .prevLen, .predIn]) :
    transact (.wr32 r.offset v) s = .next ((s.respond .written).overrun) := by
  simp only [List.mem_cons, List.not_mem_nil, or_false] at hr
  rcases hr with rfl | rfl | rfl | rfl | rfl
  · exact transact_wr32_hazard hb (exec_command (decodeWord_command v) _)
  all_goals exact transact_wr32_hazard hb rfl

/-- A byte access to a window is dropped while BUSY. -/
theorem transact_byte_busy (hp : s.params.valid) (hb : s.busy = true) (b : Buffer) {pos : Nat}
    (hpos : pos < s.params.lmax) (x : Byte) :
    transact (.rd8 (windowOffset s.params b pos)) s = .next ((s.respond (.byte 0x00#8)).overrun) ∧
      transact (.wr8 (windowOffset s.params b pos) x) s = .next ((s.respond .written).overrun) := by
  simp [transact, place_window hp b hpos, windowRead8, windowWrite8, State.whenIdle, hb]

/-- An aligned 32-bit access to a window is dropped while BUSY. -/
theorem transact_word_busy (hp : s.params.valid) (hb : s.busy = true) (b : Buffer) {pos : Nat}
    (hpos : pos < s.params.lmax) (halign : pos % 4 = 0) (v : Word) :
    transact (.rd32 (windowOffset s.params b pos)) s = .next ((s.respond (.word 0x00000000#32)).overrun) ∧
      transact (.wr32 (windowOffset s.params b pos) v) s = .next ((s.respond .written).overrun) := by
  obtain ⟨hread, hwrite⟩ := transact_word_window hp b hpos halign v
  rw [hread, hwrite]
  simp [windowRead32, windowWrite32, State.whenIdle, hb]

end

/-- A write to a read-only register is answered and dropped (10_state.md R22, R30, R31). -/
theorem transact_wr32_readOnly {r : Reg} (hr : r ∈ [Reg.cap, .predOut, .predDist]) (v : Word) (s : State) :
    transact (.wr32 r.offset v) s = .next (s.respond .written) := by
  simp only [List.mem_cons, List.not_mem_nil, or_false] at hr
  rw [transact_wr32_reg]
  rcases hr with rfl | rfl | rfl <;> rfl

/-- Settles O52: the accesses R207 lists, then those it leaves out, one lemma for each kind. -/
theorem hazardAccessesAreDropped : Obligations.HazardAccessesAreDropped := by
  unfold Obligations.HazardAccessesAreDropped
  intro s v hp
  refine ⟨fun hb => ⟨fun r hr => transact_wr32_busy hb v hr, fun b pos x hpos => ?windows⟩,
    fun r => transact_rd32_reg r s, fun r hr => transact_wr32_readOnly hr v s, transact_wr32_status v s,
    transact_wr32_ctrl v s, fun t _ => transact_not_allowed⟩
  case windows =>
    obtain ⟨hread, hwrite⟩ := transact_byte_busy hp hb b hpos x
    exact ⟨hread, hwrite, fun halign => transact_word_busy hp hb b hpos halign v⟩

end Sys2Proof.Machine
end

section
namespace Sys2Proof.Machine

/-! ### Written bytes stay written (10_state.md R33; 20_memory.md R68) -/

/-- A buffer after a write of one by name. -/
theorem buffer_setBuffer (s : State) (b b' : Buffer) (m : Memory) :
    (s.setBuffer b' m).buffer b = if b = b' then m else s.buffer b := by
  cases b <;> cases b' <;> rfl

/-- A write unwrites nothing. -/
theorem Memory.isSome_read_write {m : Memory} {a : Nat} (h : (m.read a).isSome = true) (pos : Nat) (v : Byte) :
    ((m.write pos v).read a).isSome = true := by
  rw [Memory.read_write]
  split
  · rfl
  · exact h

theorem Memory.isSome_read_write32 {m : Memory} {a : Nat} (h : (m.read a).isSome = true) (pos : Nat) (v : Word) :
    ((m.write32 pos v).read a).isSome = true :=
  isSome_read_write (isSome_read_write (isSome_read_write (isSome_read_write h _ _) _ _) _ _) _ _

/-- A command word reaches neither buffer (60_exceptions.md R171–R173). -/
theorem acceptance_buffer {i : Instr} (hi : i.wellFormed = true) (s : State) (b : Buffer) :
    (acceptance i s).buffer b = s.buffer b := by
  rcases acceptance_cases hi s with ⟨_, e, _⟩ | ⟨_, e⟩ | ⟨_, _, e⟩ <;> rw [e] <;> cases b <;> rfl

section
variable {s t : State} {b : Buffer} {a : Nat} (h : ((s.buffer b).read a).isSome = true)
include h

/-- Replacing a buffer unwrites nothing that the new one holds. -/
theorem written_setBuffer {b' : Buffer} {m : Memory} (hm : b = b' → (m.read a).isSome = true) :
    (((s.setBuffer b' m).buffer b).read a).isSome = true := by
  rw [buffer_setBuffer]
  split
  next hb => exact hm hb
  next => exact h

/-- No host effect unwrites a byte. -/
theorem HostEffect.written {op : Option HostOp} (he : HostEffect s op t) : ((t.buffer b).read a).isSome = true := by
  cases he with
  | command v => rwa [acceptance_buffer (decodeWord_command v)]
  | byte b' pos v => exact written_setBuffer h fun hb => Memory.isSome_read_write (hb ▸ h) pos v
  | word b' pos v => exact written_setBuffer h fun hb => Memory.isSome_read_write32 (hb ▸ h) pos v
  | _ => cases b <;> exact h

/-- No engine turn unwrites a byte. -/
theorem EngineEffect.written (he : EngineEffect s t) : ((t.buffer b).read a).isSome = true := by
  cases he with
  | element =>
    cases b with
    | cur =>
      rw [buffer_cur, advance_cur, afterElement_cur]
      exact Memory.isSome_read_write h _ _
    | prev =>
      rw [buffer_prev, advance_prev, afterElement_prev]
      exact h
  | _ => cases b <;> exact h

end

/-! ### Turns are taken in the order of the schedule (20_memory.md R69) -/

/-- Acceptance leaves the outside alone. -/
theorem acceptance_host (i : Instr) (s : State) : (acceptance i s).host = s.host :=
  (congrArg State.host (acceptance_setHost i s s.host) :)

/-- A transaction leaves the turns to come. -/
theorem transact_schedule {t : Txn} {s u : State} (h : transact t s = .next u) :
    u.host.schedule = s.host.schedule := by
  rcases transact_cases t s with ⟨_, e⟩ | ⟨_, _, e⟩ | ⟨v, _, e⟩ | ⟨_, _, e⟩ | ⟨_, _, e⟩ | ⟨_, _, _, e⟩ | ⟨_, _, _, e⟩ |
    ⟨_, _, _, e⟩ | ⟨_, _, _, e⟩ | ⟨_, b, _, _, _, e⟩ | ⟨_, b, _, _, _, _, e⟩ | ⟨_, _, _, _, _, e⟩ <;> rw [e] at h
  case inr.inr.inl =>
    rw [exec_command (decodeWord_command v)] at h
    cases h
    rw [State.whenIdle]
    split
    · rfl
    · rw [acceptance_host]; rfl
  all_goals cases h
  any_goals rfl
  all_goals cases b <;> rfl

/-- A host turn leaves the turns to come. -/
theorem hostTurn_schedule {s u : State} (h : hostTurn s = .next u) : u.host.schedule = s.host.schedule := by
  rcases hostTurn_cases s with ⟨_, e⟩ | ⟨_, _, _, e⟩ | ⟨_, _, _, _, _, hread⟩ | ⟨_, _, _, _, e⟩
  · rw [e] at h; cases h; rfl
  · exact (transact_schedule (e.symm.trans h) :)
  · rcases hread with ⟨v, hv, e | e⟩ | ⟨_, _, e⟩ | ⟨_, _, e⟩ <;> rw [e] at h <;> cases h
    · exact transact_schedule (u := v) hv
    · exact transact_schedule hv
  · exact (transact_schedule (e.symm.trans h) :)

/-- A step takes its own turn off the schedule, and no other. -/
theorem step_schedule {s t : State} (h : step s = .next t) : t.host.schedule = s.host.schedule.tail := by
  cases hturn : nextTurn s with
  | host =>
    rw [step_host hturn] at h
    exact hostTurn_schedule h
  | engine => rw [host_of_step_engine hturn h, takeTurn_host]
  | reset =>
    rw [step_reset hturn] at h
    cases h
    rfl

/-- A reset turn is always one that the schedule names. -/
theorem reset_mem_schedule {s : State} (h : nextTurn s = .reset) : Turn.reset ∈ s.host.schedule := by
  unfold nextTurn at h
  split at h
  next t rest hsched => rw [hsched, h]; exact List.mem_cons_self
  next => split at h <;> cases h

/-! ### Where a fault comes from (60_exceptions.md R179) -/

/-- A byte of a buffer's own range that nothing has written. -/
def State.hasUnwritten (s : State) : Prop := ∃ b a, a < s.params.lmax ∧ (s.buffer b).read a = none

/-- A window reaches its buffer's own range alone. -/
theorem transact_fault {t : Txn} {s : State} {f : Fault} (hp : s.params.valid) (h : transact t s = .fault f) :
    s.hasUnwritten := by
  rcases transact_cases t s with ⟨_, e⟩ | ⟨_, _, e⟩ | ⟨v, _, e⟩ | ⟨_, _, e⟩ | ⟨_, _, e⟩ | ⟨_, _, _, e⟩ | ⟨_, _, _, e⟩ |
    ⟨_, _, _, e⟩ | ⟨_, _, _, e⟩ | ⟨_, _, _, _, _, e⟩ | ⟨_, _, _, _, _, _, e⟩ | ⟨_, b, a, ha, hread, _⟩
  any_goals rw [e] at h
  any_goals cases h
  · rw [exec_command (decodeWord_command v)] at h
    cases h
  · exact ⟨b, a, ha hp, hread⟩

/-- A host turn stops where the transaction of its line does. -/
theorem hostTurn_fault {s : State} {f : Fault} (hp : s.params.valid) (h : hostTurn s = .fault f) :
    s.hasUnwritten := by
  rcases hostTurn_cases s with ⟨_, e⟩ | ⟨_, rest, _, e⟩ | ⟨_, _, _, _, _, hread⟩ | ⟨_, _, rest, _, e⟩
  · rw [e] at h; cases h
  · exact transact_fault (s := s.setProgram rest) hp (e.symm.trans h)
  · rcases hread with ⟨_, _, e | e⟩ | ⟨_, hfault, _⟩ | ⟨_, _, e⟩
    · rw [e] at h; cases h
    · rw [e] at h; cases h
    · exact transact_fault hp hfault
    · rw [e] at h; cases h
  · exact transact_fault (s := s.setProgram rest) hp (e.symm.trans h)

/-- Under the invariant a running UNFILTER reads its buffers' own range alone. -/
theorem engineTurn_fault {s : State} {f : Fault} (hinv : s.Inv) (h : engineTurn s = .fault f) : s.hasUnwritten := by
  rcases engineTurn_cases s with ⟨_, e⟩ | ⟨_, e⟩ | ⟨hphase, e⟩ <;> rw [e] at h
  · cases h
  · cases h
  · rcases pathStep_cases s.engine.path s with ⟨_, e⟩ | ⟨_, _, e⟩ | ⟨_, _, _, _, _, _, _, e⟩ | ⟨_, j, b, hn, hread, _⟩
    case inr.inr.inr =>
      obtain ⟨_, hcheck, _, _⟩ := hinv.unfilter_running hphase
      obtain ⟨_, hlen, _⟩ := unfilterError_eq_none.1 hcheck
      exact ⟨b, j, (nextPosition_lt (hinv.unfilter_sequencer hphase) hn).trans_le hlen, hread⟩
    all_goals
      rw [e] at h
      cases h

/-- Under the invariant a step that faults leaves some byte below LMAX to blame. -/
theorem step_fault {s : State} {f : Fault} (hinv : s.Inv) (h : step s = .fault f) : s.hasUnwritten := by
  cases hturn : nextTurn s with
  | host =>
    rw [step_host hturn] at h
    exact hostTurn_fault (s := takeTurn s) hinv.params_valid h
  | engine =>
    rw [step_engine hturn] at h
    exact engineTurn_fault (s := takeTurn s) (hinv.setHost _) h
  | reset =>
    rw [step_reset hturn] at h
    cases h

/-! ### Safe runs (R179, R204) -/

/-- A run is safe when an invariant of its steps excludes the fault. -/
theorem safeFrom_of_invariant {P : State → Prop} (hstep : ∀ s t, P s → step s = .next t → P t)
    (hsafe : ∀ s f, P s → step s ≠ .fault f) {s : State} (hs : P s) : SafeFrom s := by
  intro n f
  induction n generalizing s with
  | zero => rw [runSteps_zero]; nofun
  | succ n ih =>
    cases hnext : step s with
    | next t => rw [runSteps_succ hnext]; exact ih (hstep s t hs hnext)
    | fault g => exact absurd hnext (hsafe s g hs)
    | refused r => rw [runSteps_succ_refused hnext]; nofun

/-- The invariant, no byte below LMAX left unwritten, and no reset to come to forget one. -/
structure State.Written (s : State) : Prop where
  inv : s.Inv
  bytes : ∀ b a, a < s.params.lmax → ((s.buffer b).read a).isSome = true
  noReset : Turn.reset ∉ s.host.schedule

/-- Every step keeps all of it. -/
theorem State.Written.next {s t : State} (h : s.Written) (hstep : step s = .next t) : t.Written where
  inv := stepKeepsInvariant s t h.inv hstep
  bytes b a ha := by
    obtain ⟨hparams, _⟩ := capabilitiesAreConstant s t hstep
    have hread := h.bytes b a (hparams ▸ ha)
    rcases step_cases hstep with ⟨_, e, o, he, rfl⟩ | ⟨_, he⟩ | ⟨hturn, _⟩
    · have hwritten := he.written hread
      cases b <;> exact hwritten
    · exact (engineTurn_effect he).written (s := takeTurn s) (by cases b <;> exact hread)
    · exact absurd (reset_mem_schedule hturn) h.noReset
  noReset := fun hmem => h.noReset (List.mem_of_mem_tail (step_schedule hstep ▸ hmem))

/-- Nothing unwritten, no fault. -/
theorem State.Written.step_ne_fault {s : State} (h : s.Written) (f : Fault) : step s ≠ .fault f := by
  intro hfault
  obtain ⟨b, a, ha, hread⟩ := step_fault h.inv hfault
  have hsome := h.bytes b a ha
  rw [hread] at hsome
  cases hsome

/-- Settles O5: the run keeps `State.Written`, and a fault would need a byte that it excludes. -/
theorem writtenBuffersNeverFault : Obligations.WrittenBuffersNeverFault := by
  unfold Obligations.WrittenBuffersNeverFault
  intro s hinv hbytes hreset
  have hwritten : s.Written :=
    { inv := hinv
      bytes := fun b a ha => by
        obtain ⟨hcur, hprev⟩ := hbytes a ha
        cases b with
        | cur => exact hcur
        | prev => exact hprev
      noReset := hreset }
  exact safeFrom_of_invariant (fun _ _ h => h.next) (fun _ f h => h.step_ne_fault f) hwritten

end Sys2Proof.Machine
end

section
namespace Sys2Proof.Machine

/-! ### Who writes the row buffers (20_memory.md R68) -/

/-- The engine changes CUR only by an element step, and only at the position it reconstructs (41_unfilter.md R140). -/
theorem EngineEffect.cur_changes {s t : State} (h : EngineEffect s t) {a : Nat} (ha : t.cur.read a ≠ s.cur.read a) :
    s.engine.phase = .runUnfilter ∧ nextPosition s.engine.path s = some a := by
  cases h with
  | rest | predict | finish => exact absurd rfl ha
  | element hphase hnext =>
    refine ⟨hphase, ?_⟩
    by_contra hother
    rw [advance_cur, afterElement_cur] at ha
    exact ha (Memory.read_write_other _ _ fun e => hother (e ▸ hnext))

/-- Settles O12: the engine's frame has PREV, its one position of CUR lies in the row by the invariant, and a host turn
while BUSY reaches neither buffer. -/
theorem buffersChangeOnlyByTheirOwners : Obligations.BuffersChangeOnlyByTheirOwners := by
  unfold Obligations.BuffersChangeOnlyByTheirOwners
  intro s t hinv hstep
  refine ⟨fun hturn => ?prev, fun a hturn ha => ?cur, fun hturn hb => ?host⟩
  case prev =>
    rw [step_engine hturn] at hstep
    obtain ⟨_, _, _, _, _, _, _, hprev, _⟩ := (engineTurn_effect hstep).frame
    exact hprev
  case cur =>
    rw [step_engine hturn] at hstep
    obtain ⟨hphase, hnext⟩ := (engineTurn_effect hstep).cur_changes ha
    exact ⟨hphase, nextPosition_lt (s := takeTurn s) (hinv.unfilter_sequencer hphase) hnext⟩
  case host =>
    obtain ⟨_, _, _, hnext, _⟩ := hostTurn_busy (s := takeTurn s) hb
    rw [step_host hturn, hnext] at hstep
    cases hstep
    exact ⟨rfl, rfl⟩

end Sys2Proof.Machine
end

section
namespace Sys2Proof

/-! ### The word of a decoded word (30_encoding.md R90–R97) -/

/-- Every word decodes to a command with the word's FG. -/
theorem decodeWord_fg (w : Word) : (decodeWord w).fg = wordFg w := by
  unfold decodeWord
  repeat' split
  case isFalse.isTrue.isTrue hfg => exact hfg.symm
  case isFalse.isTrue.isFalse hfg => exact (Bool.eq_false_iff.2 hfg).symm
  all_goals rfl

/-- OP and FG packed again are the word without its reserved bits (R93). -/
theorem packWord_fields (w : Word) : packWord (wordOp w) (wordFg w) = w &&& 0x0000010F#32 := by
  have hmask : ∀ i, i < 32 → (0x0000010F#32).getLsbD i = (decide (i < 4) || decide (i = 8)) := by decide
  apply BitVec.eq_of_getLsbD_eq
  intro i hi
  rw [packWord_getLsbD, BitVec.getLsbD_and, hmask i hi]
  by_cases hfg : i = 8
  · simp [hfg, wordOp, wordFg]
  · simp [hfg, wordOp, Bool.and_comm]

/-- Decoding a word and encoding it again loses its reserved bits alone. -/
theorem encode_decodeWord (w : Word) : encode (decodeWord w) = w &&& 0x0000010F#32 := by
  rw [encode, decodeWord_op, decodeWord_fg, packWord_fields]

/-- Settles O15. -/
theorem encodeOfDecodeMasksReservedBits : Obligations.EncodeOfDecodeMasksReservedBits := by
  unfold Obligations.EncodeOfDecodeMasksReservedBits
  exact fun w => ⟨decodeWord_command w, encode_decodeWord w⟩

/-! ### The rows of the opcode table -/

/-- No row looks at a reserved bit. -/
theorem and_rowMask (w : Word) (i : Instr) : w &&& i.rowMask = encode (decodeWord w) &&& i.rowMask := by
  have hmask : 0x0000010F#32 &&& i.rowMask = i.rowMask := by cases i <;> simp [Instr.rowMask]
  rw [encode_decodeWord, BitVec.and_assoc, hmask]

/-- An instruction's word matches its own row. -/
theorem encode_matches_row (i : Instr) : encode i &&& i.rowMask = i.rowMatch := by
  cases i with
  | unfilter | unfilterG | unfilterW1 | unfilterW3 | unfilterW4 => decide
  | predict fg | unfilterGen fg | reserved0 fg | reserved3 fg => cases fg <;> decide
  | reserved4to7 op fg | reserved8toF op fg => revert op fg; decide

/-- The rows of the commands do not overlap: of the 32 pairs of OP and FG, each that matches a command's row decodes
to a command of that row. -/
theorem row_of_packWord {i : Instr} (hi : i.wellFormed = true) : ∀ (op : BitVec 4) (fg : Bool),
    packWord op fg &&& i.rowMask = i.rowMatch →
      i.rowMask = (decodeWord (packWord op fg)).rowMask ∧ i.rowMatch = (decodeWord (packWord op fg)).rowMatch := by
  cases i with
  | unfilterW1 | unfilterW3 | unfilterW4 | unfilterGen => cases hi
  | predict | unfilter | unfilterG | reserved0 | reserved3 | reserved4to7 | reserved8toF =>
    simp only [Instr.rowMask, Instr.rowMatch]
    decide

/-- Settles O17: a word and the word its decoding encodes to match the same rows, and decode alike. -/
theorem decodingMatchesOneTableRow : Obligations.DecodingMatchesOneTableRow := by
  unfold Obligations.DecodingMatchesOneTableRow
  refine fun w => ⟨?ownRow, fun i hi hmatch => ?noOther⟩
  case ownRow => rw [and_rowMask, encode_matches_row]
  case noOther =>
    have hdecode : decodeWord (encode (decodeWord w)) = decodeWord w := by
      rw [decodeWord_encode, command_eq_self (decodeWord_command w)]
    rw [and_rowMask] at hmatch
    rw [← hdecode]
    exact row_of_packWord hi _ _ hmatch

/-- Settles O18: nine closed words. -/
theorem spelledWordsDecode : Obligations.SpelledWordsDecode := by
  unfold Obligations.SpelledWordsDecode
  decide

end Sys2Proof
end

section
namespace Sys2Proof.Machine

/-! ### The frame of the commands (60_exceptions.md R171–R173, R177) -/

/-- An accepted command word writes CMD, STATUS but for OVR and, only if it starts, the engine. -/
theorem acceptance_eq {i : Instr} (hi : i.wellFormed = true) (s : State) :
    ∃ st e, acceptance i s = ((s.setCmd { op := i.op, fg := i.fg }).setStatus st).setEngine e ∧
      st.ovr = s.status.ovr ∧ ((acceptance i s).busy = false → e = s.engine) := by
  refine ⟨(acceptance i s).status, (acceptance i s).engine, ?_⟩
  rcases acceptance_cases hi s with ⟨_, e, _⟩ | ⟨_, e⟩ | ⟨_, _, e⟩ <;> rw [e]
  · exact ⟨rfl, rfl, fun _ => rfl⟩
  · exact ⟨rfl, rfl, nofun⟩
  · exact ⟨rfl, rfl, nofun⟩

/-- Settles O33: while BUSY the word sets OVR alone, while idle it is accepted. -/
theorem commandsFrame : Obligations.CommandsFrame := by
  unfold Obligations.CommandsFrame
  intro i s t hi h
  cases hb : s.busy with
  | true =>
    rw [exec_command_busy hi hb] at h
    cases h
    simp
  | false =>
    rw [exec_command_idle hi hb] at h
    obtain ⟨st, e, heq, hovr, hengine⟩ := acceptance_eq hi s
    cases h
    rw [heq] at hengine ⊢
    exact ⟨rfl, rfl, rfl, rfl, rfl, rfl, rfl, rfl, rfl, fun _ => ⟨rfl, rfl⟩, nofun, fun _ => ⟨rfl, hovr⟩, hengine⟩

/-! ### The one solution of the recurrence (41_unfilter.md R131) -/

section
variable {w l : Nat} {F P R R' : Nat → Byte}

/-- Two solutions agree below the length, since each byte is determined by the one a pixel to its left. -/
theorem RowRecurrence.unique (hw : 0 < w) (h : RowRecurrence w l F P R) (h' : RowRecurrence w l F P R') :
    ∀ j, j < l → R j = R' j := by
  intro j
  induction j using Nat.strong_induction_on with
  | _ j ih =>
    intro hj
    rw [h j hj, h' j hj]
    split
    next hleft => rw [ih (j - w) (by omega) (by omega)]
    next => rfl

/-- A row that agrees with a solution below the length is a solution. -/
theorem RowRecurrence.of_eq (h : RowRecurrence w l F P R) (heq : ∀ j, j < l → R' j = R j) :
    RowRecurrence w l F P R' := by
  intro j hj
  rw [heq j hj, heq (j - w) (Nat.lt_of_le_of_lt (Nat.sub_le j w) hj), h j hj]

end

/-- Settles O44: `rowResult` is a solution, and solutions are unique below the length. -/
theorem rowResultIsTheRecurrence : Obligations.RowResultIsTheRecurrence := by
  unfold Obligations.RowResultIsTheRecurrence
  intro w l F P R hw
  have hresult := rowRecurrence_rowResult (l := l) (F := F) (P := P) hw
  exact ⟨fun h => h.unique hw hresult, hresult.of_eq⟩

/-! ### Reset and the windows -/

/-- Settles O3: `resetWith_inv`, whose premise the default build meets. -/
theorem resetMeetsInvariant : Obligations.ResetMeetsInvariant := by
  unfold Obligations.ResetMeetsInvariant
  exact ⟨resetWith_inv (by decide) _, fun _ h hp => resetWith_inv hp h⟩

/-- Settles O49: the idle byte accesses, and what a buffer holds after its write. -/
theorem windowBytesReadAndWrite : Obligations.WindowBytesReadAndWrite := by
  unfold Obligations.WindowBytesReadAndWrite
  intro s b pos v hp hb hpos
  refine ⟨transact_rd8_window hp hb hpos, _, transact_wr8_window hp hb b hpos v, ?written, fun a ha => ?others, ?frame⟩
  all_goals rw [buffer_respond, buffer_setBuffer_same]
  case written => exact Memory.read_write_same _ pos v
  case others => exact Memory.read_write_other _ v ha

end Sys2Proof.Machine
end
